-- ==== Sys2Proof/Word.lean ====
section
/-! DEFINITION. The plain value types of CME: bytes, 16-byte blocks, directions and keys
(spec/00_scope.md rules R6, R9, R11). -/

namespace Sys2Proof

/-- A byte, an integer 0 to 255 (R9). -/
abbrev Byte := BitVec 8

/-- A block: an array of 16 bytes, index 0 the first and index 15 the last (R6, R9). -/
abbrev Block := Vector Byte 16

/-- A direction (R11): a command's mode direction, or the primitive direction of a block unit. -/
inductive Dir where
  | enc
  | dec
  deriving DecidableEq, Repr

/-- A valid key: 16, 24 or 32 bytes (R6, R8, R22). The three lengths are the three constructors, so
that the invariant of R22 ("`bits` is always one of {128,192,256}; `bytes` length equals `bits/8`")
holds of every term. -/
inductive Key where
  | k128 (bytes : Vector Byte 16)
  | k192 (bytes : Vector Byte 24)
  | k256 (bytes : Vector Byte 32)
  deriving DecidableEq, Repr

/-- The record field `BITS` of a key (R22). -/
def Key.bits : Key → Nat
  | .k128 _ => 128
  | .k192 _ => 192
  | .k256 _ => 256

/-- The record field `BYTES` of a key, in index order (R22). -/
def Key.bytes : Key → List Byte
  | .k128 b => b.toList
  | .k192 b => b.toList
  | .k256 b => b.toList

end Sys2Proof
end

