-- ==== Sys2Proof/Config.lean ====
section
/-! DEFINITION. What an implementation of CME fixes: the block primitive (a free value: nothing in
Lean can evaluate it), and the parameters the spec leaves open (spec/00_scope.md rules R7, R8). -/

namespace Sys2Proof

/-- The block primitive (R8, R121): two total functions and the one law the source gives of them,
"`decryptBlock(encryptBlock(b)) == b`". Nothing else may be assumed of it. The default values of the
fields serve only to show Lean that the type has a member; no definition uses them. -/
structure BlockPrimitive where
  encryptBlock : Key → Block → Block := fun _ b => b
  decryptBlock : Key → Block → Block := fun _ b => b
  law : ∀ k b, decryptBlock k (encryptBlock k b) = b := by intros; rfl
  deriving Inhabited

/-- The block primitive of this machine: a free value (R8, U15; notes/assumptions/1.md). -/
opaque Config.primitive : BlockPrimitive

/-- `transformBlock` after `installKey(dir, bits, K)` (R121): `encryptBlock(K, blk)` or
`decryptBlock(K, blk)`. -/
def BlockPrimitive.transform (prim : BlockPrimitive) : Dir → Key → Block → Block
  | .enc, k, b => prim.encryptBlock k b
  | .dec, k, b => prim.decryptBlock k b

/-- The parameters of R7 that no register holds and no step changes. `NCTX` is the length of the
list of ports. -/
structure Params where
  /-- `AW`, the width of a data-memory address in bits (D8) -/
  aw : Nat
  /-- `LENW`, the width of `LEN` and `POS` in bits (D9) -/
  lenw : Nat
  /-- `PORT_BASE` -/
  portBase : Nat
  /-- `PORT_STRIDE`, at least 0x80 -/
  portStride : Nat
  /-- what the host's `enable()` answers (R122) -/
  enableOk : Bool
  /-- what the host's `disable()` answers (R122) -/
  disableOk : Bool
  deriving DecidableEq, Repr

/-- The parameter values of the machine `State.reset`: `AW = LENW = 32` and `enableOk = disableOk =
true` are the spec's defaults (R7); `PORT_BASE` and `PORT_STRIDE` are open, and these values are a DESIGN CHOICE
(notes/assumptions/3.md). -/
def Params.default : Params where
  aw := 32
  lenw := 32
  portBase := 0
  portStride := 0x80
  enableOk := true
  disableOk := true

/-- `NCTX` of the machine `State.reset`: open (R7, D1), a DESIGN CHOICE (notes/assumptions/3.md). The
programs of the spec need two ports (spec/95_test_vectors.md section 10). -/
def Config.nctx : Nat := 2

end Sys2Proof
end

