-- ==== Sys2Proof/Syntax.lean ====
section
/-! DEFINITION. The command set of CME: one constructor for each of the 13 rows of
spec/opcode_table.json (spec/30_encoding.md rules R90, R93). A command word carries no operand
(R92): every operand is a register of the port the command is written to (R95). -/

namespace Sys2Proof

/-- The 13 commands (R90). The assembler aliases `CTR.ENC` and `CTR.DEC` are `CTR` (R100). -/
inductive Instr where
  /-- `INIT`, R123 -/
  | init
  /-- `FREE`, R124 -/
  | free
  /-- `SETKEY.DEC`, R127 -/
  | setkeyDec
  /-- `SETKEY.ENC`, R126 -/
  | setkeyEnc
  /-- `ECB.DEC`, R152 -/
  | ecbDec
  /-- `ECB.ENC`, R151 -/
  | ecbEnc
  /-- `CBC.DEC`, R163 -/
  | cbcDec
  /-- `CBC.ENC`, R162 -/
  | cbcEnc
  /-- `CFB128.DEC`, R184 -/
  | cfb128Dec
  /-- `CFB128.ENC`, R183 -/
  | cfb128Enc
  /-- `CFB8.DEC`, R205 -/
  | cfb8Dec
  /-- `CFB8.ENC`, R204 -/
  | cfb8Enc
  /-- `CTR`, R224 -/
  | ctr
  deriving DecidableEq, Repr

end Sys2Proof
end

