-- ==== Sys2Proof/WellFormed.lean ====
section
/-! DEFINITION. The checks on what reaches CME from outside: a command byte is one of the table
(spec/30_encoding.md rules R92 to R94, R98), and the parameters place windows that do not overlap
(spec/00_scope.md rule R7). A term of `Instr` has no field, so every term of it is well formed. -/

namespace Sys2Proof

/-- The bits 7:5 of a command are 000: the byte is below 0x20 (R92). -/
def CommandByte.zeroOk (w : Byte) : Bool := w.toNat < 0x20

/-- `OP`, the low half of the byte, is one of 1 to 8 (R93, R98). -/
def CommandByte.opOk (w : Byte) : Bool := 1 ≤ w.toNat % 16 && w.toNat % 16 ≤ 8

/-- `INIT`, `FREE` and `CTR` (`OP` 1, 2, 8) take no direction and have `DIR`, bit 4, equal to 0 (R94). -/
def CommandByte.dirOk (w : Byte) : Bool :=
  w.toNat / 16 % 2 = 0 || !(w.toNat % 16 = 1 || w.toNat % 16 = 2 || w.toNat % 16 = 8)

/-- A byte that is a command, by its fields (R92, R93, R94). -/
def CommandByte.wf (w : Byte) : Bool :=
  CommandByte.zeroOk w && CommandByte.opOk w && CommandByte.dirOk w

/-- `PORT_STRIDE >= 0x80` (R7): windows of 0x80 bytes do not overlap. -/
def Params.wf (ps : Params) : Bool := 0x80 ≤ ps.portStride

end Sys2Proof
end

