-- ==== Sys2Proof/Decode.lean ====
section
/-! DEFINITION. The decoder of command bytes, total, rejecting each reserved byte by name, and the
encoder (spec/30_encoding.md rules R92, R93, R94, R98). -/

namespace Sys2Proof

/-- Why a byte is reserved (R98). -/
inductive Reserved where
  /-- bits 7:5 are not 000 -/
  | zeroField
  /-- `OP` is 0 or 9 to 15 -/
  | opField
  /-- `OP` is 1, 2 or 8, which take no direction, and `DIR` is 1 -/
  | dirField
  deriving DecidableEq, Repr

/-- The field `OP`, bits 3:0 (R92). -/
def opField (w : Byte) : BitVec 4 := w.extractLsb' 0 4

/-- The field `DIR`, bit 4 (R92). -/
def dirField (w : Byte) : BitVec 1 := w.extractLsb' 4 1

/-- The field `ZERO`, bits 7:5 (R92). -/
def zeroField (w : Byte) : BitVec 3 := w.extractLsb' 5 3

/-- The opcode map of R93 read by its fields: `ZERO` must be 000, `OP` selects the operation and
`DIR` the direction of the operations that have one. -/
def decodeByte (w : Byte) : Except Reserved Instr :=
  if zeroField w ≠ 0 then .error .zeroField
  else
    match (opField w).toNat, (dirField w).toNat with
    | 1, 0 => .ok .init
    | 1, _ => .error .dirField
    | 2, 0 => .ok .free
    | 2, _ => .error .dirField
    | 3, 0 => .ok .setkeyDec
    | 3, _ => .ok .setkeyEnc
    | 4, 0 => .ok .ecbDec
    | 4, _ => .ok .ecbEnc
    | 5, 0 => .ok .cbcDec
    | 5, _ => .ok .cbcEnc
    | 6, 0 => .ok .cfb128Dec
    | 6, _ => .ok .cfb128Enc
    | 7, 0 => .ok .cfb8Dec
    | 7, _ => .ok .cfb8Enc
    | 8, 0 => .ok .ctr
    | 8, _ => .error .dirField
    | _, _ => .error .opField

/-- The field `OP` of a command (R93). -/
def Instr.op : Instr → BitVec 4
  | .init => 1
  | .free => 2
  | .setkeyDec => 3
  | .setkeyEnc => 3
  | .ecbDec => 4
  | .ecbEnc => 4
  | .cbcDec => 5
  | .cbcEnc => 5
  | .cfb128Dec => 6
  | .cfb128Enc => 6
  | .cfb8Dec => 7
  | .cfb8Enc => 7
  | .ctr => 8

/-- The field `DIR` of a command (R93, R94): 1 for the encrypt direction, 0 for the decrypt direction
and for the commands that have none. -/
def Instr.dirBit : Instr → BitVec 1
  | .init => 0
  | .free => 0
  | .setkeyDec => 0
  | .setkeyEnc => 1
  | .ecbDec => 0
  | .ecbEnc => 1
  | .cbcDec => 0
  | .cbcEnc => 1
  | .cfb128Dec => 0
  | .cfb128Enc => 1
  | .cfb8Dec => 0
  | .cfb8Enc => 1
  | .ctr => 0

/-- The command byte of a command: `ZERO`, `DIR`, `OP` from the high end (R92). -/
def encode (i : Instr) : Byte := (0 : BitVec 3) ++ i.dirBit ++ i.op

/-- The command of a byte, none for a reserved byte (R91, R98). -/
def decodeCommand (w : Byte) : Option Instr :=
  match decodeByte w with
  | .ok i => some i
  | .error _ => none

/-- The command the decoder reads from a word numbered as spec/opcode_table.json numbers it: one
byte, so a word with a bit above bit 7 is none. -/
def decodeTableWord (nbits w : Nat) : Option Instr :=
  if w % 2 ^ nbits < 256 then decodeCommand (BitVec.ofNat 8 (w % 2 ^ nbits)) else none

end Sys2Proof
end

