-- ==== Sys2Proof/Machine/State.lean ====
section
/-! DEFINITION. The state of CME (spec/10_state.md): every port with its registers and its
sequencer, the shared engine state, data memory, the host's pending actions; the reasons a step can
stop; and the machine after reset (R44). -/

namespace Sys2Proof.Machine

/-- The result kinds of R240. -/
inductive Result where
  | ok
  | invalidKeyLength
  | invalidInputLength
  | keyNotSet
  | engineUnavailable
  | illegalCommand
  | contextState
  deriving DecidableEq, Repr

/-- A key record (R22, R133): the source's `Unset | Set(bits, bytes)`. `PRESENT` is 1 of a set record. -/
inductive KeyRecord where
  | unset
  | set (k : Key)
  deriving DecidableEq, Repr

/-- `PRESENT` (R22). -/
def KeyRecord.present : KeyRecord → Bool
  | .unset => false
  | .set _ => true

/-- The lock (R41): free, or held by one port. -/
inductive Lock where
  | free
  | held (c : Nat)
  deriving DecidableEq, Repr

/-- The register updates of the commands' pseudocode (R123, R124, R126, R127, R151, R152, R162, R163,
R183, R184, R203 to R205, R224): each is one atomic step (R74). `in`, `blk` and `out` are the
sequencer's latches: the input unit, the block unit's block, and the output unit. -/
inductive RegOp where
  /-- `blk <- in` (R151, R152) -/
  | blkFromIn
  /-- `X <- xor16(P, IV)` (R162) -/
  | blkFromInXorIv
  /-- `TEMP <- in` (R163) -/
  | tempFromIn
  /-- `blk <- TEMP` (R163) -/
  | blkFromTemp
  /-- `blk <- IV` (R182, R203) -/
  | blkFromIv
  /-- `blk <- NC` (R222) -/
  | blkFromNc
  /-- `out <- blk` (R151, R152, R162) -/
  | outFromBlk
  /-- `O <- xor16(Y, IV)` (R163) -/
  | outFromBlkXorIv
  /-- `o <- IV[OFFSET] xor b` (R183, R184) -/
  | outFromIvAtOffset
  /-- `y <- IV[0] xor x`, the register holding the keystream block (R203) -/
  | outFromIvFirst
  /-- `o <- b xor SB[OFFSET]` (R224) -/
  | outFromSbAtOffset
  /-- `IV <- blk` (R162, R182, R203) -/
  | ivFromBlk
  /-- `IV <- TEMP` (R163) -/
  | ivFromTemp
  /-- `IV[OFFSET] <- o` (R183) -/
  | ivAtOffsetFromOut
  /-- `IV[OFFSET] <- b` (R184) -/
  | ivAtOffsetFromIn
  /-- `IV <- OV[1..16]` (R203) -/
  | ivFromOv
  /-- `OV[0..15] <- IV` (R203) -/
  | ovFromIv
  /-- `OV[16] <- y` (R203, R204) -/
  | ovLastFromOut
  /-- `OV[16] <- x` (R203, R205) -/
  | ovLastFromIn
  /-- `SB <- blk` (R222, R224) -/
  | sbFromBlk
  /-- `NC <- inc128(NC)` (R222, R223) -/
  | incNc
  /-- `OFFSET <- (OFFSET + 1) mod 16` (R183, R184, R224) -/
  | incOffset
  /-- `POS <- POS + n` (R38) -/
  | advance (n : Nat)
  /-- `EK <- unset` (R123, R124) -/
  | clearEk
  /-- `DK <- unset` (R123, R124) -/
  | clearDk
  /-- `KEYIN <- all zero` (R124) -/
  | clearKeyin
  /-- `EK <- {1, KEYBITS, KEYIN[0..b/8-1]}` (R126) -/
  | recordEk
  /-- `DK <- {1, KEYBITS, KEYIN[0..b/8-1]}` (R127) -/
  | recordDk
  deriving DecidableEq, Repr

/-- The atomic steps of a sequencer (R74): single-byte memory accesses, register updates, the steps
of a lock span, and the end of a command. -/
inductive MicroOp where
  /-- read one byte of the input unit: `in[j] <- mem[SRC + POS + j]` (R61, R66) -/
  | memRead (j : Fin 16)
  /-- write one byte of the output unit: `mem[DST + POS + j] <- out[j]` (R62, R66) -/
  | memWrite (j : Fin 16)
  /-- a register update -/
  | reg (r : RegOp)
  /-- `take(c)` (R72) -/
  | take
  /-- `installKey(dir, K.BITS, K.BYTES)` with the record `K` of that direction (R121, R130) -/
  | install (d : Dir)
  /-- `blk <- transformBlock(dir, blk)` (R121, R130) -/
  | transform (d : Dir)
  /-- `give(c)` (R72) -/
  | give
  /-- the reference-count change of `INIT`, with the enable edge (R123) -/
  | acquire
  /-- the reference-count change of `FREE`, with the disable edge (R124) -/
  | release
  /-- `LIVE <- b`, unless the reference-count change failed (R123, R124) -/
  | setLive (b : Bool)
  /-- the result of `INIT` and `FREE`: `raise EngineUnavailable` if the reference-count change failed, else
  `complete Ok` (R123, R124); the write of `RESULT`, before `BUSY` is cleared (R245) -/
  | conclude
  /-- `complete Ok` (R245): the write of `RESULT`, before `BUSY` is cleared -/
  | complete
  deriving DecidableEq, Repr

/-- Where a port's sequencer stands (R33, R37, R91). `BUSY` is 1 unless it is idle. -/
inductive Seq where
  /-- no command: `BUSY = 0` -/
  | idle
  /-- `CMD` was written and decoded, and the command is not yet validated (R91); a reserved byte decodes
  to none -/
  | decoded (i : Option Instr)
  /-- command `i` is validated; `todo` is the rest of its current unit's steps, and an empty `todo`
  is the loop head, where `POS` is compared with `LEN` -/
  | run (i : Instr) (todo : List MicroOp)
  /-- command `i` (none: a reserved byte) has its `RESULT` written, and `BUSY` is not yet cleared (R245) -/
  | ending (i : Option Instr)
  deriving DecidableEq, Repr

/-- The sequencer's latches: the local variables of the pseudocode (the model's own,
notes/assumptions/8.md). -/
structure Scratch where
  /-- the input unit: `in`, `P`, or in index 0 `b`, `x` -/
  inp : Block
  /-- the block unit's block: its operand, then its result -/
  blk : Block
  /-- the output unit: `out`, `O`, or in index 0 `o`, `y` -/
  out : Block
  /-- `failed` of R123 and R124 -/
  failed : Bool
  deriving DecidableEq, Repr

/-- The latches of an idle sequencer. -/
def Scratch.empty : Scratch where
  inp := Vector.replicate 16 0
  blk := Vector.replicate 16 0
  out := Vector.replicate 16 0
  failed := false

/-- One port (R20): its registers and its sequencer. -/
structure Port where
  /-- `CMD`, 8 bits (R32) -/
  cmd : Byte
  /-- `RESULT` (R34), read as its code (R240) -/
  result : Result
  /-- `LIVE`, 1 bit (R21) -/
  live : Bool
  /-- `EK` (R22) -/
  ek : KeyRecord
  /-- `DK` (R22) -/
  dk : KeyRecord
  /-- `KEYIN[0..31]` (R24) -/
  keyin : Vector Byte 32
  /-- `KEYBITS`, 16 bits (R24) -/
  keybits : BitVec 16
  /-- `IV[0..15]` (R26) -/
  iv : Block
  /-- `OFFSET`, 4 bits (R27) -/
  offset : BitVec 4
  /-- `NC[0..15]` (R28) -/
  nc : Block
  /-- `SB[0..15]` (R29) -/
  sb : Block
  /-- `LEN`, `LENW` bits (R30): a number below `2^LENW`, the width being a parameter -/
  len : Nat
  /-- `SRC`, `AW` bits (R31): a number below `2^AW` -/
  src : Nat
  /-- `DST`, `AW` bits (R31): a number below `2^AW` -/
  dst : Nat
  /-- `POS`, hidden (R38): `LENW` bits, and never wrapping, so that a plain count says the same -/
  pos : Nat
  /-- `OV[0..16]`, hidden (R39) -/
  ov : Vector Byte 17
  /-- `TEMP[0..15]`, hidden (R39) -/
  temp : Block
  /-- the running command and `BUSY` (R33, R37) -/
  seq : Seq
  /-- the sequencer's latches (the model's own) -/
  scratch : Scratch
  deriving DecidableEq, Repr

/-- The shared state of R20. -/
structure Engine where
  /-- `REFCOUNT` (R40) -/
  refcount : Nat
  /-- `LOCK` (R41) -/
  lock : Lock
  /-- `ENABLED` (R42) -/
  enabled : Bool
  /-- `ACTIVE` (R43): the key's constructor gives its bits -/
  active : Option (Dir × Key)
  deriving DecidableEq, Repr

/-- Data memory (R60): the bytes that differ from `Memory.blank`, addresses strictly rising and below
`2^AW`. -/
abbrev Memory := List Host.Cell

/-- What the outside of CME does next (R3, R99): an action of the host, or a step of one port's
sequencer, which the schedule lets move (R74). A host's access in register space is one byte, and a register
of several bytes takes several events: the spec gives the offsets (R35) and a `WR` of a whole register (R99),
but neither the width nor the atomicity of an access; DESIGN CHOICE, notes/assumptions/24.md. -/
inductive Event where
  /-- the host calls a command: it writes `w` to `CMD[c]` and waits (R99) -/
  | call (c : Nat) (w : Byte)
  /-- the host writes a byte in register space (R35) -/
  | write (a : Nat) (b : Byte)
  /-- the host reads a byte in register space (R35) -/
  | read (a : Nat)
  /-- the host writes the byte of data memory at `a` modulo `2^AW` (R60, R63) -/
  | memWrite (a : Nat) (b : Byte)
  /-- the host reads the byte of data memory at `a` modulo `2^AW` (R60, R63) -/
  | memRead (a : Nat)
  /-- the sequencer of port `c` takes its next atomic step, if it has one (R74) -/
  | grant (c : Nat)
  /-- hardware reset (R280) -/
  | reset
  deriving DecidableEq, Repr

/-- The whole machine. -/
structure State where
  /-- the parameters of R7, which no step changes -/
  params : Params
  /-- the ports 0 to `NCTX - 1` (R20) -/
  ports : List Port
  /-- the shared state (R20) -/
  engine : Engine
  /-- data memory (R60) -/
  mem : Memory
  /-- the port whose command is called (the model's own, notes/assumptions/5.md) -/
  cur : Nat
  /-- what happens next, oldest first (the model's own, notes/assumptions/5.md) -/
  agenda : List Event
  /-- the byte the host's last read returned (the model's own, notes/assumptions/13.md) -/
  rdata : Byte
  deriving DecidableEq, Repr

/-- Why the machine stops. No command of the table does so in a state that satisfies the invariant
of Sys2Proof/Safety.lean. -/
inductive Fault where
  /-- Raised by a call of, or a step granted to, a port number at or above `NCTX`: there is no such
  window (R256). Safe: the machine stops. -/
  | noSuchPort
  /-- Raised by a host access to a register-space address in no port's window (R35). Safe. -/
  | noSuchRegister
  /-- Raised by a block unit whose key record is unset, the precondition of R130 that validation
  establishes. Safe. -/
  | keyAbsent
  /-- Raised by `transformBlock` when `ACTIVE` is none or of another direction: R43 and U11 give it no
  meaning there. Safe. -/
  | notInstalled
  deriving DecidableEq, Repr

/-- Why an instruction has no meaning. -/
inductive Refusal where
  /-- Raised by an arm of `exec` whose instruction is not modelled: none is. Safe. -/
  | notModelled (mnemonic : String)
  deriving DecidableEq, Repr

/-- A port after reset (R44); `OV`, `TEMP` and the latches are a DESIGN CHOICE
(notes/assumptions/8.md). -/
def Port.reset : Port where
  cmd := 0
  result := .ok
  live := false
  ek := .unset
  dk := .unset
  keyin := Vector.replicate 32 0
  keybits := 0
  iv := Vector.replicate 16 0
  offset := 0
  nc := Vector.replicate 16 0
  sb := Vector.replicate 16 0
  len := 0
  src := 0
  dst := 0
  pos := 0
  ov := Vector.replicate 17 0
  temp := Vector.replicate 16 0
  seq := .idle
  scratch := Scratch.empty

/-- The shared state after reset (R44). -/
def Engine.reset : Engine where
  refcount := 0
  lock := .free
  enabled := false
  active := none

/-- The machine after reset for every value of the parameters (R7, R44). -/
def State.resetWith (nctx : Nat) (ps : Params) : State where
  params := ps
  ports := List.replicate nctx Port.reset
  engine := Engine.reset
  mem := []
  cur := 0
  agenda := []
  rdata := 0

/-- The machine after reset (R44), at the parameter values of Config. -/
def State.reset : State := State.resetWith Config.nctx Params.default

end Sys2Proof.Machine
end

