-- ==== Sys2Proof/Machine/Bytes.lean ====
section
/-! DEFINITION. Arithmetic on bytes and blocks: the list of spec/00_scope.md rule R13 (xor, the
128-bit increment, the move of CFB-8), the number a block stands for (R9), and the little-endian
bytes of a scalar register (spec/10_state.md rule R35). -/

namespace Sys2Proof.Machine

/-- `xor16(A, B)` (R10). -/
def xor16 (a b : Block) : Block := Vector.ofFn fun i => a[i] ^^^ b[i]

/-- `be128(B) = sum over i of B[i] * 256^(15-i)` (R9). -/
def be128 (b : Block) : Nat :=
  ((List.finRange 16).map fun i => b[i].toNat * 256 ^ (15 - i.val)).sum

/-- The loop of R223 from index `i` down: it stops at the first byte that does not wrap to 0. -/
def incFrom : (i : Nat) → i < 16 → Block → Block
  | 0, _, n => n.set 0 (n[0] + 1)
  | i + 1, h, n =>
    let n' := n.set (i + 1) (n[i + 1] + 1)
    if n[i + 1] + 1 ≠ 0 then n' else incFrom i (Nat.lt_of_succ_lt h) n'

/-- `inc128(N)` (R223). -/
def inc128 (n : Block) : Block := incFrom 15 (by decide) n

/-- `V[1..15] ++ [z]`: the move of R202, every byte one index toward 0. -/
def shiftIn (v : Block) (z : Byte) : Block :=
  Vector.ofFn fun i => if h : i.val < 15 then v[i.val + 1] else z

/-- Byte `k` of a scalar, byte 0 holding bits 7:0 (R35). -/
def byteLE (v k : Nat) : Byte := BitVec.ofNat 8 (v / 256 ^ k)

/-- A scalar of `w` bits with byte `k` replaced (R35); of the byte only the bits that fit are kept
(notes/assumptions/2.md). -/
def setByteLE (w v k : Nat) (b : Byte) : Nat :=
  (v % 256 ^ k + b.toNat * 256 ^ k + v / 256 ^ (k + 1) * 256 ^ (k + 1)) % 2 ^ w

/-- The byte of a block at a 4-bit offset (R27). -/
def byteAt (b : Block) (o : BitVec 4) : Byte := b[o.toNat]'o.isLt

/-- A block with the byte at a 4-bit offset replaced (R27). -/
def setByteAt (b : Block) (o : BitVec 4) (x : Byte) : Block := b.set o.toNat x o.isLt

end Sys2Proof.Machine
end

