-- ==== Sys2Proof/Machine/Flags.lean ====
section
/-! DEFINITION. The status bits and the result codes. CME has no arithmetic flag (spec/00_scope.md
rule R13): what a host reads of a command's outcome is `STATUS` (spec/10_state.md rule R33) and
`RESULT` (spec/60_exceptions.md rule R240). -/

namespace Sys2Proof.Machine

/-- The code of a result kind (R240). -/
def Result.code : Result → Byte
  | .ok => 0
  | .invalidKeyLength => 1
  | .invalidInputLength => 2
  | .keyNotSet => 3
  | .engineUnavailable => 4
  | .illegalCommand => 5
  | .contextState => 6

/-- `BUSY` (R33): 1 from the `CMD` write that starts a command until it completes. -/
def Port.busy (p : Port) : Bool :=
  match p.seq with
  | .idle => false
  | .decoded _ => true
  | .run _ _ => true
  | .ending _ => true

/-- The command a busy port holds (R37), none for a reserved byte. -/
def Port.command (p : Port) : Option Instr :=
  match p.seq with
  | .idle => none
  | .decoded i => i
  | .run i _ => some i
  | .ending i => i

/-- `STATUS` (R33): bit 0 `BUSY`, bit 1 `LIVE`, bit 2 `EK.PRESENT`, bit 3 `DK.PRESENT`, bits 7:4 zero. -/
def Port.status (p : Port) : Byte :=
  (0 : BitVec 4) ++ BitVec.ofBool p.dk.present ++ BitVec.ofBool p.ek.present
    ++ BitVec.ofBool p.live ++ BitVec.ofBool p.busy

end Sys2Proof.Machine
end

