-- ==== Sys2Proof/Machine/Operands.lean ====
section
/-! DEFINITION. Where operands come from: the register window of a port (spec/10_state.md rules R35,
R36), the addresses of a unit (spec/20_memory.md rules R61 to R63), the key a `SETKEY` records
(spec/30_encoding.md rule R96), and the key record of a direction (R22). -/

namespace Sys2Proof.Machine

/-- The byte a host reads at an offset of a port's window (R35). The window has no read path to a key
record (R23), `KEYIN` reads 0 (R24), and the reserved offsets read 0. -/
def Port.readReg (p : Port) (off : Nat) : Byte :=
  if off = 0x00 then p.cmd
  else if off = 0x01 then p.status
  else if off = 0x02 then p.result.code
  else if off = 0x03 then p.offset.setWidth 8
  else if off < 0x08 then byteLE p.len (off - 0x04)
  else if off < 0x0C then byteLE p.src (off - 0x08)
  else if off < 0x10 then byteLE p.dst (off - 0x0C)
  else if h : off < 0x20 then p.iv[off - 0x10]
  else if h : off < 0x30 then p.nc[off - 0x20]
  else if h : off < 0x40 then p.sb[off - 0x30]
  else if off < 0x60 then 0
  else if off < 0x62 then byteLE p.keybits.toNat (off - 0x60)
  else 0

/-- `CMD <- w; BUSY <- 1; POS <- 0`; decode `w` (R91). -/
def Port.start (p : Port) (w : Byte) : Port :=
  { p with cmd := w, pos := 0, seq := .decoded (decodeCommand w) }

/-- What a host's byte write does at an offset of the window of a port that is not busy (R35): a write
of `CMD` starts a command (R91), `OFFSET` keeps bits 3:0 (R27), `LEN`, `SRC` and `DST` keep the bits their
width holds, and the read-only and reserved offsets keep their value (notes/assumptions/9.md). -/
def Port.writeRegIdle (p : Port) (ps : Params) (off : Nat) (b : Byte) : Port :=
  if off = 0x00 then p.start b
  else if off = 0x01 then p
  else if off = 0x02 then p
  else if off = 0x03 then { p with offset := b.setWidth 4 }
  else if off < 0x08 then { p with len := setByteLE ps.lenw p.len (off - 0x04) b }
  else if off < 0x0C then { p with src := setByteLE ps.aw p.src (off - 0x08) b }
  else if off < 0x10 then { p with dst := setByteLE ps.aw p.dst (off - 0x0C) b }
  else if h : off < 0x20 then { p with iv := p.iv.set (off - 0x10) b }
  else if h : off < 0x30 then { p with nc := p.nc.set (off - 0x20) b }
  else if h : off < 0x40 then { p with sb := p.sb.set (off - 0x30) b }
  else if h : off < 0x60 then { p with keyin := p.keyin.set (off - 0x40) b }
  else if off < 0x62 then 
    { p with keybits := BitVec.ofNat 16 (setByteLE 16 p.keybits.toNat (off - 0x60) b) }
  else p

/-- A host's byte write to a port's window: ignored while the port is busy (R36). -/
def Port.writeReg (p : Port) (ps : Params) (off : Nat) (b : Byte) : Port :=
  if p.busy then p else p.writeRegIdle ps off b

/-- The port and the window offset of a register-space address (R35), if it lies in a window. Register-space
addresses, `PORT_BASE` and `PORT_STRIDE` are unbounded numbers and nothing wraps: the spec gives the register
space no width (91 N4); DESIGN CHOICE, notes/assumptions/25.md. -/
def decodeRegAddr (ps : Params) (nctx a : Nat) : Option (Nat × Nat) :=
  if ps.portBase ≤ a then
    let c := (a - ps.portBase) / ps.portStride
    let off := (a - ps.portBase) % ps.portStride
    if c < nctx ∧ off < 0x80 then some (c, off) else none
  else none

/-- The register-space address of a window offset: `PORT_BASE + c * PORT_STRIDE + off` (R35). -/
def regAddr (ps : Params) (c off : Nat) : Nat := ps.portBase + c * ps.portStride + off

/-- The address of byte `j` of the input unit: `SRC + POS + j` (R67, R101), which the access reduces modulo
`2^AW` (R63). -/
def Port.srcAddr (p : Port) (j : Nat) : Nat := p.src + p.pos + j

/-- The address of byte `j` of the output unit: `DST + POS + j` (R67, R101), which the access reduces modulo
`2^AW` (R63). -/
def Port.dstAddr (p : Port) (j : Nat) : Nat := p.dst + p.pos + j

/-- The key `SETKEY` records: `KEYIN[0 .. b/8 - 1]` for `KEYBITS` = `b` one of 128, 192, 256, and none for
every other value (R96). -/
def Port.stagedKey (p : Port) : Option Key :=
  if p.keybits = 128 then some (.k128 (Vector.ofFn fun i => p.keyin[i.val]))
  else if p.keybits = 192 then some (.k192 (Vector.ofFn fun i => p.keyin[i.val]))
  else if p.keybits = 256 then some (.k256 (Vector.ofFn fun i => p.keyin[i.val]))
  else none

/-- What `SETKEY` leaves in a record: the staged key, and where there is none (validation has refused
that case, R128) the record as it was. -/
def Port.recorded (p : Port) (old : KeyRecord) : KeyRecord :=
  match p.stagedKey with
  | some k => .set k
  | none => old

/-- The key record of a primitive direction (R130): `EK` for encrypt, `DK` for decrypt. -/
def Port.record (p : Port) : Dir → KeyRecord
  | .enc => p.ek
  | .dec => p.dk

end Sys2Proof.Machine
end

