-- ==== Sys2Proof/Machine/Ops.lean ====
section
/-! DEFINITION. The named operations every command is made of: data memory (spec/20_memory.md rules
R61, R62), how a command ends (spec/60_exceptions.md rule R245), the checks (R246), the atomic steps
of a sequencer (R74), a lock span (spec/40_lifecycle_and_keys.md rule R130), and running a command on
a port. -/

namespace Sys2Proof.Machine

/-! ### Data memory -/

/-- What an address that no entry lists reads as: a DESIGN CHOICE (notes/assumptions/7.md). -/
def Memory.blank : Byte := 0

/-- The byte at an address, in the list. -/
def Memory.lookup : Memory → Nat → Byte
  | [], _ => Memory.blank
  | (k, x) :: r, a => if k = a then x else Memory.lookup r a

/-- A list entry put in front, unless it says what an unlisted address reads as. -/
def Memory.cons (a : Nat) (b : Byte) (r : Memory) : Memory :=
  if b = Memory.blank then r else (a, b) :: r

/-- The list with one byte replaced, in canonical form. -/
def Memory.store : Memory → Nat → Byte → Memory
  | [], a, b => Memory.cons a b []
  | (k, x) :: r, a, b =>
    if a < k then Memory.cons a b ((k, x) :: r)
    else if a = k then Memory.cons a b r
    else (k, x) :: Memory.store r a b

/-- A canonical list whose addresses are at least `lo`: strictly rising, below `2^AW`, no entry equal to
what an unlisted address reads as. -/
def Memory.wfFrom (aw : Nat) : Nat → Memory → Bool
  | _, [] => true
  | lo, (k, x) :: r => lo ≤ k && k < 2 ^ aw && x != Memory.blank && Memory.wfFrom aw (k + 1) r

/-- The canonical form of data memory of `2^AW` bytes. -/
def Memory.wf (m : Memory) (aw : Nat) : Bool := Memory.wfFrom aw 0 m

/-- A single-byte read (R61, R66); the address is reduced modulo `2^AW` (R63). -/
def Memory.read (m : Memory) (aw a : Nat) : Byte := Memory.lookup m (a % 2 ^ aw)

/-- A single-byte write (R62, R66); the address is reduced modulo `2^AW` (R63). -/
def Memory.write (m : Memory) (aw a : Nat) (b : Byte) : Memory := Memory.store m (a % 2 ^ aw) b

/-- `MemRead(a, n)`: `n` single-byte reads, ascending, modulo `2^AW` (R61). -/
def Memory.readBytes (m : Memory) (aw a n : Nat) : List Byte :=
  (List.range n).map fun j => m.read aw (a + j)

/-- `MemWrite(a, n, V)`: `n` single-byte writes, ascending, modulo `2^AW` (R62). -/
def Memory.writeBytes (m : Memory) (aw a : Nat) : List Byte → Memory
  | [] => m
  | b :: bs => Memory.writeBytes (m.write aw a b) aw (a + 1) bs

/-- `MemRead(a, 16)` as a block, index `j` from `a + j` (R64). -/
def Memory.readBlock (m : Memory) (aw a : Nat) : Block :=
  Vector.ofFn fun j => m.read aw (a + j.val)

/-- `MemWrite(a, 16, V)` of a block (R62, R64). -/
def Memory.writeBlock (m : Memory) (aw a : Nat) (b : Block) : Memory := m.writeBytes aw a b.toList

/-! ### What one sequencer reaches -/

/-- What a step of one sequencer can read and write: its own port, the shared state and data memory
(R20, R256). -/
structure View where
  port : Port
  eng : Engine
  mem : Memory
  deriving DecidableEq, Repr

/-- The view of a port, if there is such a port. -/
def State.view (s : State) (c : Nat) : Option View :=
  (s.ports[c]?).map fun p => { port := p, eng := s.engine, mem := s.mem }

/-- The machine with a port's view put back. -/
def State.putView (s : State) (c : Nat) (v : View) : State :=
  { s with ports := s.ports.set c v.port, engine := v.eng, mem := v.mem }

/-- The next state of an outcome changed by a function, a stop kept. -/
def mapNext {α β : Type} (f : α → β) : Host.Outcome α Fault Refusal → Host.Outcome β Fault Refusal
  | .next a => .next (f a)
  | .fault r => .fault r
  | .refused r => .refused r

/-! ### How a command ends -/

/-- The first of the two register updates of `raise Kind(c)` and `complete Ok` (R245): `RESULT` is written.
The sequencer still holds its command, and `BUSY` is 1. -/
def Port.setResult (p : Port) (k : Result) : Port :=
  { p with result := k, seq := .ending p.command }

/-- The second (R245): `BUSY` is cleared; the latches of an idle sequencer hold nothing
(notes/assumptions/8.md). -/
def Port.clearBusy (p : Port) : Port := { p with seq := .idle, scratch := Scratch.empty }

/-- `raise Kind(c)` and `complete Ok` whole (R245): `RESULT` is written and `BUSY` cleared, and nothing else of
the port changes. This is the one way every command ends, with a failure or not. -/
def Port.finish (p : Port) (k : Result) : Port := (p.setResult k).clearBusy

/-- A port whose command has its result ends it; any other port stays as it is. -/
def Port.settle (p : Port) : Port :=
  match p.seq with
  | .idle => p
  | .decoded _ => p
  | .run _ _ => p
  | .ending _ => p.clearBusy

/-- The port with its sequencer at another place. -/
def Port.withSeq (p : Port) (q : Seq) : Port := { p with seq := q }

/-! ### The checks of R246, each the result it raises -/

/-- The first check that fails (R246). -/
def firstFailure : List (Option Result) → Option Result
  | [] => none
  | some k :: _ => some k
  | none :: r => firstFailure r

/-- The life-cycle check of `INIT` (R247). -/
def checkNotLive (p : Port) : Option Result := if p.live then some .contextState else none

/-- The life-cycle check of every other command (R247). -/
def checkLive (p : Port) : Option Result := if p.live then none else some .contextState

/-- The operand check of `SETKEY` (R241). -/
def checkKeyBits (p : Port) : Option Result :=
  if p.keybits = 128 ∨ p.keybits = 192 ∨ p.keybits = 256 then none else some .invalidKeyLength

/-- The operand check of CBC (R161, R242). -/
def checkLength (p : Port) : Option Result :=
  if p.len % 16 = 0 then none else some .invalidInputLength

/-- The key check: the record of the primitive direction the command issues (R132, R243). -/
def checkKey (p : Port) (d : Dir) : Option Result :=
  if (p.record d).present then none else some .keyNotSet

/-! ### The atomic steps -/

/-- The register updates. -/
def RegOp.apply (r : RegOp) (p : Port) : Port :=
  let l := p.scratch
  match r with
  | .blkFromIn => { p with scratch := { l with blk := l.inp } }
  | .blkFromInXorIv => { p with scratch := { l with blk := xor16 l.inp p.iv } }
  | .tempFromIn => { p with temp := l.inp }
  | .blkFromTemp => { p with scratch := { l with blk := p.temp } }
  | .blkFromIv => { p with scratch := { l with blk := p.iv } }
  | .blkFromNc => { p with scratch := { l with blk := p.nc } }
  | .outFromBlk => { p with scratch := { l with out := l.blk } }
  | .outFromBlkXorIv => { p with scratch := { l with out := xor16 l.blk p.iv } }
  | .outFromIvAtOffset =>
    { p with scratch := { l with out := l.out.set 0 (byteAt p.iv p.offset ^^^ l.inp[0]) } }
  | .outFromIvFirst => { p with scratch := { l with out := l.out.set 0 (p.iv[0] ^^^ l.inp[0]) } }
  | .outFromSbAtOffset =>
    { p with scratch := { l with out := l.out.set 0 (l.inp[0] ^^^ byteAt p.sb p.offset) } }
  | .ivFromBlk => { p with iv := l.blk }
  | .ivFromTemp => { p with iv := p.temp }
  | .ivAtOffsetFromOut => { p with iv := setByteAt p.iv p.offset l.out[0] }
  | .ivAtOffsetFromIn => { p with iv := setByteAt p.iv p.offset l.inp[0] }
  | .ivFromOv => { p with iv := Vector.ofFn fun i => p.ov[i.val + 1] }
  | .ovFromIv => { p with ov := Vector.ofFn fun i => if h : i.val < 16 then p.iv[i.val] else p.ov[16] }
  | .ovLastFromOut => { p with ov := p.ov.set 16 l.out[0] }
  | .ovLastFromIn => { p with ov := p.ov.set 16 l.inp[0] }
  | .sbFromBlk => { p with sb := l.blk }
  | .incNc => { p with nc := inc128 p.nc }
  | .incOffset => { p with offset := p.offset + 1 }
  | .advance n => { p with pos := p.pos + n }
  | .clearEk => { p with ek := .unset }
  | .clearDk => { p with dk := .unset }
  | .clearKeyin => { p with keyin := Vector.replicate 32 0 }
  | .recordEk => { p with ek := p.recorded p.ek }
  | .recordDk => { p with dk := p.recorded p.dk }

/-- `failed <- b` (R123, R124). -/
def Port.withFailed (p : Port) (b : Bool) : Port :=
  { p with scratch := { p.scratch with failed := b } }

/-- `INIT`'s change of the reference count (R123, R125): on the 0 to 1 transition `enable()` is called,
and if it fails the change is rolled back. -/
def acquireStep (ps : Params) (v : View) : View :=
  if v.eng.refcount + 1 = 1 then
    if ps.enableOk then
      { v with
        port := v.port.withFailed false
        eng := { v.eng with refcount := v.eng.refcount + 1, enabled := true } }
    else { v with port := v.port.withFailed true }
  else
    { v with
      port := v.port.withFailed false
      eng := { v.eng with refcount := v.eng.refcount + 1 } }

/-- `FREE`'s change of the reference count (R124, R125): on the 1 to 0 transition `disable()` is called,
and if it fails the change is rolled back. -/
def releaseStep (ps : Params) (v : View) : View :=
  if v.eng.refcount - 1 = 0 then
    if ps.disableOk then
      { v with
        port := v.port.withFailed false
        eng := { v.eng with refcount := v.eng.refcount - 1, enabled := false } }
    else { v with port := v.port.withFailed true }
  else
    { v with
      port := v.port.withFailed false
      eng := { v.eng with refcount := v.eng.refcount - 1 } }

/-- `LIVE <- b` of `INIT` and `FREE`, which a failed reference-count change does not come to (R123, R124). -/
def Port.setLive (p : Port) (b : Bool) : Port := if p.scratch.failed then p else { p with live := b }

/-- The result of `INIT` and `FREE` (R123, R124). -/
def Port.conclude (p : Port) : Port :=
  p.setResult (if p.scratch.failed then .engineUnavailable else .ok)

/-- Whether a port's next step can be taken: `take` only while the lock is free, `give` only by its holder
(R72). Every other step always can. -/
def MicroOp.enabled (c : Nat) (op : MicroOp) (e : Engine) : Bool :=
  match op with
  | .take => decide (e.lock = .free)
  | .give => decide (e.lock = .held c)
  | _ => true

/-- The effect of one atomic step of port `c`. -/
def perform (prim : BlockPrimitive) (ps : Params) (c : Nat) (op : MicroOp) (v : View) :
    Host.Outcome View Fault Refusal :=
  let p := v.port
  let l := p.scratch
  match op with
  | .memRead j =>
    .next { v with port := { p with scratch := { l with inp := l.inp.set j (v.mem.read ps.aw (p.srcAddr j)) } } }
  | .memWrite j => .next { v with mem := v.mem.write ps.aw (p.dstAddr j) l.out[j] }
  | .reg r => .next { v with port := r.apply p }
  | .take => .next { v with eng := { v.eng with lock := .held c } }
  | .install d =>
    match p.record d with
    | .set k => .next { v with eng := { v.eng with active := some (d, k) } }
    | .unset => .fault .keyAbsent
  | .transform d =>
    match v.eng.active with
    | some (d', k) =>
      if d' = d then
        .next { v with port := { p with scratch := { l with blk := prim.transform d k l.blk } } }
      else .fault .notInstalled
    | none => .fault .notInstalled
  | .give => .next { v with eng := { v.eng with lock := .free } }
  | .acquire => .next (acquireStep ps v)
  | .release => .next (releaseStep ps v)
  | .setLive b => .next { v with port := p.setLive b }
  | .conclude => .next { v with port := p.conclude }
  | .complete => .next { v with port := p.setResult .ok }

/-! ### The pieces of a unit -/

/-- The 16 indices of a block, in order. -/
def blockIndices : List (Fin 16) := [0, 1, 2, 3, 4, 5, 6, 7, 8, 9, 10, 11, 12, 13, 14, 15]

/-- `MemRead(SRC + POS, 16)` (R66). -/
def readBlockOps : List MicroOp := blockIndices.map .memRead

/-- `MemWrite(DST + POS, 16, out)` (R66). -/
def writeBlockOps : List MicroOp := blockIndices.map .memWrite

/-- `BlockUnit(c, dir, blk)` (R130): take, install, transform, give; the result replaces the operand. -/
def blockUnitOps (d : Dir) : List MicroOp := [.take, .install d, .transform d, .give]

/-- The program of a command that processes `LEN` bytes unit by unit, read at the loop head: while
`POS < LEN` one more unit, and then `complete Ok` (R38, R162). -/
def loopProgram (unit : Port → List MicroOp) (p : Port) : List MicroOp :=
  if p.pos < p.len then unit p else [.complete]

/-! ### Running a command on a port -/

/-- The steps of a unit of command `i`, one after another with no other agent between them. A step that
cannot be taken holds the sequencer there (R72). -/
def runOps (prim : BlockPrimitive) (ps : Params) (c : Nat) (i : Instr) :
    List MicroOp → View → Host.Outcome View Fault Refusal
  | [], v => .next v
  | op :: rest, v =>
    if op.enabled c v.eng then
      match perform prim ps c op v with
      | .next v' => runOps prim ps c i rest v'
      | .fault r => .fault r
      | .refused r => .refused r
    else .next { v with port := v.port.withSeq (.run i (op :: rest)) }

/-- Units of command `i` until it completes or is held, at most `n` loop heads. -/
def runUnits (prim : BlockPrimitive) (ps : Params) (c : Nat) (i : Instr)
    (program : Port → List MicroOp) : Nat → View → Host.Outcome View Fault Refusal
  | 0, v => .next v
  | n + 1, v =>
    if v.port.seq = .run i [] then
      match runOps prim ps c i (program v.port) v with
      | .next v' => runUnits prim ps c i program n v'
      | .fault r => .fault r
      | .refused r => .refused r
    else .next v

/-- A command after its `CMD` write: validation, then its units, and the end if it has its result. `LEN + 2` loop heads are enough, since
every unit advances `POS` by at least 1 (R38). -/
def runCommand (prim : BlockPrimitive) (ps : Params) (c : Nat) (i : Instr)
    (check : Port → Option Result) (program : Port → List MicroOp) (v : View) :
    Host.Outcome View Fault Refusal :=
  match check v.port with
  | some k => .next { v with port := v.port.finish k }
  | none =>
    mapNext (fun w => { w with port := w.port.settle })
      (runUnits prim ps c i program (v.port.len + 2)
        { v with port := v.port.withSeq (.run i []) })

/-- A host's blocking call of command `i` on port `cur` (R91, R99): the byte is written to `CMD`, and the
port's sequencer runs until it completes or is held on the lock. On a busy port the write is ignored
(R36). -/
def issue (prim : BlockPrimitive) (i : Instr) (check : Port → Option Result)
    (program : Port → List MicroOp) (s : State) : Host.Outcome State Fault Refusal :=
  match s.view s.cur with
  | none => .fault .noSuchPort
  | some v =>
    if v.port.busy then .next s
    else
      mapNext (s.putView s.cur)
        (runCommand prim s.params s.cur i check program { v with port := v.port.start (encode i) })

/-- A host's call with a reserved byte (R98, R248): the command starts and at once completes with
`IllegalCommand`. -/
def issueReserved (w : Byte) (s : State) : Host.Outcome State Fault Refusal :=
  match s.view s.cur with
  | none => .fault .noSuchPort
  | some v =>
    if v.port.busy then .next s
    else .next (s.putView s.cur { v with port := (v.port.start w).finish .illegalCommand })

end Sys2Proof.Machine
end

