-- ==== Sys2Proof/Machine/Cbc.lean ====
section
/-! DEFINITION. The CBC chainer (spec/42_cbc.md): `CBC.ENC`, `CBC.DEC`. -/

namespace Sys2Proof.Machine

/-- The checks of `CBC.ENC` (R161, R162, R246). -/
def cbcEncCheck (p : Port) : Option Result :=
  firstFailure [checkLive p, checkLength p, checkKey p .enc]

/-- One block of `CBC.ENC` (R162). -/
def cbcEncUnit (_ : Port) : List MicroOp :=
  readBlockOps ++ [.reg .blkFromInXorIv] ++ blockUnitOps .enc ++ [.reg .outFromBlk]
    ++ writeBlockOps ++ [.reg .ivFromBlk, .reg (.advance 16)]

/-- The program of `CBC.ENC` (R162). -/
def cbcEncProgram (p : Port) : List MicroOp := loopProgram cbcEncUnit p

/-- `CBC.ENC` (R162). -/
def execCbcEnc (s : State) : Host.Outcome State Fault Refusal :=
  issue Config.primitive .cbcEnc cbcEncCheck cbcEncProgram s

/-- The checks of `CBC.DEC` (R161, R163, R246): the decrypt record. -/
def cbcDecCheck (p : Port) : Option Result :=
  firstFailure [checkLive p, checkLength p, checkKey p .dec]

/-- One block of `CBC.DEC` (R163). -/
def cbcDecUnit (_ : Port) : List MicroOp :=
  readBlockOps ++ [.reg .tempFromIn, .reg .blkFromTemp] ++ blockUnitOps .dec
    ++ [.reg .outFromBlkXorIv] ++ writeBlockOps ++ [.reg .ivFromTemp, .reg (.advance 16)]

/-- The program of `CBC.DEC` (R163). -/
def cbcDecProgram (p : Port) : List MicroOp := loopProgram cbcDecUnit p

/-- `CBC.DEC` (R163). -/
def execCbcDec (s : State) : Host.Outcome State Fault Refusal :=
  issue Config.primitive .cbcDec cbcDecCheck cbcDecProgram s

end Sys2Proof.Machine
end

