-- ==== Sys2Proof/Machine/Cfb128.lean ====
section
/-! DEFINITION. The CFB-128 shift register (spec/43_cfb128.md): `CFB128.ENC`, `CFB128.DEC`. Both
directions issue encrypt block units only (R180). -/

namespace Sys2Proof.Machine

/-- The checks of `CFB128.ENC` (R181). -/
def cfb128EncCheck (p : Port) : Option Result := firstFailure [checkLive p, checkKey p .enc]

/-- `if OFFSET = 0 then IV <- BlockUnit(c, ENC, IV)` (R182). -/
def cfb128Refresh (p : Port) : List MicroOp :=
  if p.offset = 0 then [.reg .blkFromIv] ++ blockUnitOps .enc ++ [.reg .ivFromBlk] else []

/-- One byte of `CFB128.ENC` (R183): the output byte is fed back. -/
def cfb128EncUnit (p : Port) : List MicroOp :=
  cfb128Refresh p ++ [.memRead 0, .reg .outFromIvAtOffset, .reg .ivAtOffsetFromOut, .memWrite 0,
    .reg .incOffset, .reg (.advance 1)]

/-- The program of `CFB128.ENC` (R183). -/
def cfb128EncProgram (p : Port) : List MicroOp := loopProgram cfb128EncUnit p

/-- `CFB128.ENC` (R183). -/
def execCfb128Enc (s : State) : Host.Outcome State Fault Refusal :=
  issue Config.primitive .cfb128Enc cfb128EncCheck cfb128EncProgram s

/-- The checks of `CFB128.DEC` (R181): the encrypt record. -/
def cfb128DecCheck (p : Port) : Option Result := firstFailure [checkLive p, checkKey p .enc]

/-- One byte of `CFB128.DEC` (R184): the input byte is fed back. -/
def cfb128DecUnit (p : Port) : List MicroOp :=
  cfb128Refresh p ++ [.memRead 0, .reg .outFromIvAtOffset, .reg .ivAtOffsetFromIn, .memWrite 0,
    .reg .incOffset, .reg (.advance 1)]

/-- The program of `CFB128.DEC` (R184). -/
def cfb128DecProgram (p : Port) : List MicroOp := loopProgram cfb128DecUnit p

/-- `CFB128.DEC` (R184). -/
def execCfb128Dec (s : State) : Host.Outcome State Fault Refusal :=
  issue Config.primitive .cfb128Dec cfb128DecCheck cfb128DecProgram s

end Sys2Proof.Machine
end

