-- ==== Sys2Proof/Machine/Cfb8.lean ====
section
/-! DEFINITION. The CFB-8 byte shifter (spec/44_cfb8.md): `CFB8.ENC`, `CFB8.DEC`. Both directions issue
encrypt block units only, one for every byte, and `OFFSET` takes no part (R200). The steps are those of
the scratch construction (R203): while a unit runs, `IV` holds the keystream block. -/

namespace Sys2Proof.Machine

/-- The checks of `CFB8.ENC` (R201). -/
def cfb8EncCheck (p : Port) : Option Result := firstFailure [checkLive p, checkKey p .enc]

/-- `OV[0..15] <- IV; IV <- BlockUnit(c, ENC, IV)` (R203). -/
def cfb8Keystream : List MicroOp :=
  [.reg .ovFromIv, .reg .blkFromIv] ++ blockUnitOps .enc ++ [.reg .ivFromBlk]

/-- One byte of `CFB8.ENC` (R203, R204): the output byte is appended. -/
def cfb8EncUnit (_ : Port) : List MicroOp :=
  cfb8Keystream ++ [.memRead 0, .reg .outFromIvFirst, .reg .ovLastFromOut, .memWrite 0,
    .reg .ivFromOv, .reg (.advance 1)]

/-- The program of `CFB8.ENC` (R204). -/
def cfb8EncProgram (p : Port) : List MicroOp := loopProgram cfb8EncUnit p

/-- `CFB8.ENC` (R204). -/
def execCfb8Enc (s : State) : Host.Outcome State Fault Refusal :=
  issue Config.primitive .cfb8Enc cfb8EncCheck cfb8EncProgram s

/-- The checks of `CFB8.DEC` (R201): the encrypt record. -/
def cfb8DecCheck (p : Port) : Option Result := firstFailure [checkLive p, checkKey p .enc]

/-- One byte of `CFB8.DEC` (R203, R205): the input byte is appended. -/
def cfb8DecUnit (_ : Port) : List MicroOp :=
  cfb8Keystream ++ [.memRead 0, .reg .outFromIvFirst, .reg .ovLastFromIn, .memWrite 0,
    .reg .ivFromOv, .reg (.advance 1)]

/-- The program of `CFB8.DEC` (R205). -/
def cfb8DecProgram (p : Port) : List MicroOp := loopProgram cfb8DecUnit p

/-- `CFB8.DEC` (R205). -/
def execCfb8Dec (s : State) : Host.Outcome State Fault Refusal :=
  issue Config.primitive .cfb8Dec cfb8DecCheck cfb8DecProgram s

end Sys2Proof.Machine
end

