-- ==== Sys2Proof/Machine/Ctr.lean ====
section
/-! DEFINITION. The CTR increment-and-XOR engine (spec/45_ctr.md): `CTR`. -/

namespace Sys2Proof.Machine

/-- The checks of `CTR` (R221). -/
def ctrCheck (p : Port) : Option Result := firstFailure [checkLive p, checkKey p .enc]

/-- `if OFFSET = 0 then SB <- BlockUnit(c, ENC, NC); NC <- inc128(NC)` (R222). -/
def ctrRefresh (p : Port) : List MicroOp :=
  if p.offset = 0 then
    [.reg .blkFromNc] ++ blockUnitOps .enc ++ [.reg .sbFromBlk, .reg .incNc]
  else []

/-- One byte of `CTR` (R224). -/
def ctrUnit (p : Port) : List MicroOp :=
  ctrRefresh p ++ [.memRead 0, .reg .outFromSbAtOffset, .memWrite 0, .reg .incOffset,
    .reg (.advance 1)]

/-- The program of `CTR` (R224). -/
def ctrProgram (p : Port) : List MicroOp := loopProgram ctrUnit p

/-- `CTR` (R224). -/
def execCtr (s : State) : Host.Outcome State Fault Refusal :=
  issue Config.primitive .ctr ctrCheck ctrProgram s

end Sys2Proof.Machine
end

