-- ==== Sys2Proof/Machine/Ecb.lean ====
section
/-! DEFINITION. The ECB single-block passthrough (spec/41_ecb.md): `ECB.ENC`, `ECB.DEC`. `LEN` is
ignored (R150). -/

namespace Sys2Proof.Machine

/-- The checks of `ECB.ENC` (R151, R246). -/
def ecbEncCheck (p : Port) : Option Result := firstFailure [checkLive p, checkKey p .enc]

/-- The steps of `ECB.ENC` (R151). -/
def ecbEncProgram (_ : Port) : List MicroOp :=
  readBlockOps ++ [.reg .blkFromIn] ++ blockUnitOps .enc ++ [.reg .outFromBlk] ++ writeBlockOps
    ++ [.reg (.advance 16), .complete]

/-- `ECB.ENC` (R151). -/
def execEcbEnc (s : State) : Host.Outcome State Fault Refusal :=
  issue Config.primitive .ecbEnc ecbEncCheck ecbEncProgram s

/-- The checks of `ECB.DEC` (R152, R246). -/
def ecbDecCheck (p : Port) : Option Result := firstFailure [checkLive p, checkKey p .dec]

/-- The steps of `ECB.DEC` (R152). -/
def ecbDecProgram (_ : Port) : List MicroOp :=
  readBlockOps ++ [.reg .blkFromIn] ++ blockUnitOps .dec ++ [.reg .outFromBlk] ++ writeBlockOps
    ++ [.reg (.advance 16), .complete]

/-- `ECB.DEC` (R152). -/
def execEcbDec (s : State) : Host.Outcome State Fault Refusal :=
  issue Config.primitive .ecbDec ecbDecCheck ecbDecProgram s

end Sys2Proof.Machine
end

