-- ==== Sys2Proof/Machine/Lifecycle.lean ====
section
/-! DEFINITION. The system commands (spec/40_lifecycle_and_keys.md): `INIT`, `FREE`, `SETKEY.ENC`,
`SETKEY.DEC`. Each has its checks in the order of R246, its program of atomic steps, and its meaning. -/

namespace Sys2Proof.Machine

/-- The checks of `INIT` (R123, R247). -/
def initCheck (p : Port) : Option Result := firstFailure [checkNotLive p]

/-- The steps of `INIT` (R123). -/
def initProgram (_ : Port) : List MicroOp :=
  [.reg .clearEk, .reg .clearDk, .take, .acquire, .give, .setLive true,
    .conclude]

/-- `INIT` (R123). -/
def execInit (s : State) : Host.Outcome State Fault Refusal :=
  issue Config.primitive .init initCheck initProgram s

/-- The checks of `FREE` (R124, R247). -/
def freeCheck (p : Port) : Option Result := firstFailure [checkLive p]

/-- The steps of `FREE` (R124): the key material is zeroed before the release. -/
def freeProgram (_ : Port) : List MicroOp :=
  [.reg .clearEk, .reg .clearDk, .reg .clearKeyin, .take, .release, .give,
    .setLive false, .conclude]

/-- `FREE` (R124). -/
def execFree (s : State) : Host.Outcome State Fault Refusal :=
  issue Config.primitive .free freeCheck freeProgram s

/-- The checks of `SETKEY.ENC` (R126, R128). -/
def setkeyEncCheck (p : Port) : Option Result := firstFailure [checkLive p, checkKeyBits p]

/-- The steps of `SETKEY.ENC` (R126). -/
def setkeyEncProgram (_ : Port) : List MicroOp := [.reg .recordEk, .complete]

/-- `SETKEY.ENC` (R126). -/
def execSetkeyEnc (s : State) : Host.Outcome State Fault Refusal :=
  issue Config.primitive .setkeyEnc setkeyEncCheck setkeyEncProgram s

/-- The checks of `SETKEY.DEC` (R127, R128). -/
def setkeyDecCheck (p : Port) : Option Result := firstFailure [checkLive p, checkKeyBits p]

/-- The steps of `SETKEY.DEC` (R127). -/
def setkeyDecProgram (_ : Port) : List MicroOp := [.reg .recordDk, .complete]

/-- `SETKEY.DEC` (R127). -/
def execSetkeyDec (s : State) : Host.Outcome State Fault Refusal :=
  issue Config.primitive .setkeyDec setkeyDecCheck setkeyDecProgram s

end Sys2Proof.Machine
end

