-- ==== Sys2Proof/Machine/Sequencer.lean ====
section
/-! DEFINITION. A port's sequencer one atomic step at a time (spec/20_memory.md rule R74), for commands
started by a plain host write of `CMD` and run as the schedule grants steps. It runs the same checks and
programs as the meanings of the commands. -/

namespace Sys2Proof.Machine

/-- The checks of each command (R246). -/
def Instr.check (i : Instr) : Port → Option Result :=
  match i with
  | .init => initCheck
  | .free => freeCheck
  | .setkeyDec => setkeyDecCheck
  | .setkeyEnc => setkeyEncCheck
  | .ecbDec => ecbDecCheck
  | .ecbEnc => ecbEncCheck
  | .cbcDec => cbcDecCheck
  | .cbcEnc => cbcEncCheck
  | .cfb128Dec => cfb128DecCheck
  | .cfb128Enc => cfb128EncCheck
  | .cfb8Dec => cfb8DecCheck
  | .cfb8Enc => cfb8EncCheck
  | .ctr => ctrCheck

/-- The program of each command, read at the loop head. -/
def Instr.program (i : Instr) : Port → List MicroOp :=
  match i with
  | .init => initProgram
  | .free => freeProgram
  | .setkeyDec => setkeyDecProgram
  | .setkeyEnc => setkeyEncProgram
  | .ecbDec => ecbDecProgram
  | .ecbEnc => ecbEncProgram
  | .cbcDec => cbcDecProgram
  | .cbcEnc => cbcEncProgram
  | .cfb128Dec => cfb128DecProgram
  | .cfb128Enc => cfb128EncProgram
  | .cfb8Dec => cfb8DecProgram
  | .cfb8Enc => cfb8EncProgram
  | .ctr => ctrProgram

/-- One atomic step of port `c`'s sequencer. Validation, decoding included, is one step (R246); a failed one
writes `RESULT`, and clearing `BUSY` is the next step, as at the end of every command (R245). A
sequencer that is idle, or whose next step cannot be taken, has no step: nothing changes (R72). -/
def microStep (prim : BlockPrimitive) (ps : Params) (c : Nat) (v : View) :
    Host.Outcome View Fault Refusal :=
  match v.port.seq with
  | .idle => .next v
  | .decoded none => .next { v with port := v.port.setResult .illegalCommand }
  | .decoded (some i) =>
    match Instr.check i v.port with
    | some k => .next { v with port := v.port.setResult k }
    | none => .next { v with port := v.port.withSeq (.run i []) }
  | .run i [] => .next { v with port := v.port.withSeq (.run i (Instr.program i v.port)) }
  | .run i (op :: rest) =>
    if op.enabled c v.eng then
      perform prim ps c op { v with port := v.port.withSeq (.run i rest) }
    else .next v
  | .ending _ => .next { v with port := v.port.clearBusy }

/-- A step granted to port `c`. -/
def grantStep (prim : BlockPrimitive) (c : Nat) (s : State) : Host.Outcome State Fault Refusal :=
  match s.view c with
  | none => .fault .noSuchPort
  | some v => mapNext (s.putView c) (microStep prim s.params c v)

end Sys2Proof.Machine
end

