-- ==== Sys2Proof/Machine/Dispatch.lean ====
section
/-! DEFINITION. The meaning of every command: one arm per constructor. -/

namespace Sys2Proof.Machine

def exec (i : Instr) (s : State) : Host.Outcome State Fault Refusal :=
  match i with
  | .init => Sys2Proof.Machine.execInit s
  | .free => Sys2Proof.Machine.execFree s
  | .setkeyDec => Sys2Proof.Machine.execSetkeyDec s
  | .setkeyEnc => Sys2Proof.Machine.execSetkeyEnc s
  | .ecbDec => Sys2Proof.Machine.execEcbDec s
  | .ecbEnc => Sys2Proof.Machine.execEcbEnc s
  | .cbcDec => Sys2Proof.Machine.execCbcDec s
  | .cbcEnc => Sys2Proof.Machine.execCbcEnc s
  | .cfb128Dec => Sys2Proof.Machine.execCfb128Dec s
  | .cfb128Enc => Sys2Proof.Machine.execCfb128Enc s
  | .cfb8Dec => Sys2Proof.Machine.execCfb8Dec s
  | .cfb8Enc => Sys2Proof.Machine.execCfb8Enc s
  | .ctr => Sys2Proof.Machine.execCtr s

end Sys2Proof.Machine
end

