-- ==== Sys2Proof/Machine/HostBus.lean ====
section
/-! DEFINITION. What the host does to the machine besides calling commands: register-space accesses
(spec/10_state.md rules R35, R36), data-memory accesses (spec/20_memory.md rule R60) and reset
(spec/70_reset_and_hazards.md rule R280). -/

namespace Sys2Proof.Machine

/-- A host's byte write in register space (R35, R36). -/
def busWrite (a : Nat) (b : Byte) (s : State) : Host.Outcome State Fault Refusal :=
  match decodeRegAddr s.params s.ports.length a with
  | none => .fault .noSuchRegister
  | some (c, off) =>
    match s.ports[c]? with
    | none => .fault .noSuchPort
    | some p => .next { s with ports := s.ports.set c (p.writeReg s.params off b) }

/-- A host's byte read in register space (R35, R36). -/
def busRead (a : Nat) (s : State) : Host.Outcome State Fault Refusal :=
  match decodeRegAddr s.params s.ports.length a with
  | none => .fault .noSuchRegister
  | some (c, off) =>
    match s.ports[c]? with
    | none => .fault .noSuchPort
    | some p => .next { s with rdata := p.readReg off }

/-- A host's byte write in data memory (R60, R63). -/
def hostMemWrite (a : Nat) (b : Byte) (s : State) : Host.Outcome State Fault Refusal :=
  .next { s with mem := s.mem.write s.params.aw a b }

/-- A host's byte read in data memory (R60, R63). -/
def hostMemRead (a : Nat) (s : State) : Host.Outcome State Fault Refusal :=
  .next { s with rdata := s.mem.read s.params.aw a }

/-- Hardware reset (R280): every port and the shared state at their values after reset, a running command
abandoned; data memory, the parameters and what happens next are not CME's to change. -/
def hardReset (s : State) : State :=
  { s with ports := List.replicate s.ports.length Port.reset, engine := Engine.reset }

end Sys2Proof.Machine
end

