-- ==== Sys2Proof/Machine/Happen.lean ====
section
/-! DEFINITION. What each event of the agenda does: a host's call of a command byte (spec/30_encoding.md
rules R91, R98, R99), a host's access, a step granted to a sequencer, reset. -/

namespace Sys2Proof.Machine

/-- A host's call of the byte `w` on port `s.cur` (R91, R98, R99): the byte is decoded once, at the write. -/
def callByte (w : Byte) (s : State) : Host.Outcome State Fault Refusal :=
  match decodeCommand w with
  | some i => exec i s
  | none => issueReserved w s

/-- What an event does to the machine, the event itself taken off the agenda. -/
def happen (e : Event) (s : State) : Host.Outcome State Fault Refusal :=
  match e with
  | .call c w => callByte w { s with cur := c }
  | .write a b => busWrite a b s
  | .read a => busRead a s
  | .memWrite a b => hostMemWrite a b s
  | .memRead a => hostMemRead a s
  | .grant c => grantStep Config.primitive c s
  | .reset => .next (hardReset s)

end Sys2Proof.Machine
end

