-- ==== Sys2Proof/Machine/Step.lean ====
section
/-! DEFINITION. One step of the machine: the next event of the agenda happens. With none, CME does
nothing (spec/70_reset_and_hazards.md rule R281). -/

namespace Sys2Proof.Machine

/-- One step. -/
def step (s : State) : Host.Outcome State Fault Refusal :=
  match s.agenda with
  | [] => .next s
  | e :: rest => happen e { s with agenda := rest }

/-- The machine with a call of the command byte `w` on port `cur` placed first: CME fetches nothing
(R77), and the command a step runs is the one the host calls (notes/assumptions/6.md). -/
def State.withFetchWord (s : State) (nbits w : Nat) : State :=
  { s with agenda := .call s.cur (BitVec.ofNat 8 (w % 2 ^ nbits)) :: s.agenda }

end Sys2Proof.Machine
end

