-- ==== Sys2Proof/Machine/BigStep.lean ====
section
/-! DEFINITION. The pure big-step form of each mode, as the mode files state it (spec/41_ecb.md R151,
spec/42_cbc.md R162 and R163, spec/43_cfb128.md R185, spec/44_cfb8.md R206, spec/45_ctr.md R225): what a
command computes from the key's block function, its starting chaining state and its input. No step uses
these functions: claims compare the machine with them. `E` is `encryptBlock(K, ·)` and `D` is
`decryptBlock(K, ·)`. -/

namespace Sys2Proof.Machine.BigStep

/-- CBC encryption (R162): `C[k] = E(P[k] xor C[k-1])`; the output blocks and the final `IV`. -/
def cbcEnc (E : Block → Block) : Block → List Block → List Block × Block
  | v, [] => ([], v)
  | v, p :: ps =>
    let o := E (xor16 p v)
    let r := cbcEnc E o ps
    (o :: r.1, r.2)

/-- CBC decryption (R163): `P[k] = D(C[k]) xor C[k-1]`; the output blocks and the final `IV`. -/
def cbcDec (D : Block → Block) : Block → List Block → List Block × Block
  | v, [] => ([], v)
  | v, c :: cs =>
    let r := cbcDec D c cs
    (xor16 (D c) v :: r.1, r.2)

/-- The ciphertext byte of a step: the output byte when encrypting, the input byte when decrypting
(R185, R206). -/
def cipherByte (dir : Dir) (x y : Byte) : Byte :=
  match dir with
  | .enc => y
  | .dec => x

/-- CFB-128 (R185): from `(V, s)`, byte by byte; the output bytes and the final `(V, s)`. -/
def cfb128 (E : Block → Block) (dir : Dir) :
    Block → BitVec 4 → List Byte → List Byte × Block × BitVec 4
  | v, o, [] => ([], v, o)
  | v, o, x :: xs =>
    let w := if o = 0 then E v else v
    let y := x ^^^ byteAt w o
    let r := cfb128 E dir (setByteAt w o (cipherByte dir x y)) (o + 1) xs
    (y :: r.1, r.2)

/-- CFB-8 (R202, R206): the output bytes and the final register. -/
def cfb8 (E : Block → Block) (dir : Dir) : Block → List Byte → List Byte × Block
  | v, [] => ([], v)
  | v, x :: xs =>
    let y := x ^^^ (E v)[0]
    let r := cfb8 E dir (shiftIn v (cipherByte dir x y)) xs
    (y :: r.1, r.2)

/-- The chaining state of CTR (R220): `NC`, `SB`, `OFFSET`. -/
structure CtrState where
  nc : Block
  sb : Block
  offset : BitVec 4
  deriving DecidableEq, Repr

/-- The refresh of CTR (R222). -/
def ctrRefresh (E : Block → Block) (t : CtrState) : CtrState :=
  if t.offset = 0 then { t with sb := E t.nc, nc := inc128 t.nc } else t

/-- CTR (R225): the output bytes and the final chaining state. -/
def ctr (E : Block → Block) : CtrState → List Byte → List Byte × CtrState
  | t, [] => ([], t)
  | t, x :: xs =>
    let u := ctrRefresh E t
    let r := ctr E { u with offset := u.offset + 1 } xs
    ((x ^^^ byteAt u.sb u.offset) :: r.1, r.2)

/-- The number of refreshes of CFB-128 and CTR: the `i` in `0..n-1` with `(s + i) mod 16 = 0`
(R183, R224, R291). -/
def refreshes (s : BitVec 4) (n : Nat) : Nat :=
  ((List.range n).filter fun i => (s.toNat + i) % 16 = 0).length

end Sys2Proof.Machine.BigStep

namespace Sys2Proof.Machine

/-- `n` input blocks from address `a`, block `k` at `a + 16k` (R64, R66). -/
def Memory.readBlocks (m : Memory) (aw a n : Nat) : List Block :=
  (List.range n).map fun k => m.readBlock aw (a + 16 * k)

/-- The bytes of a list of blocks, in order (R64). -/
def blockBytes (bs : List Block) : List Byte := bs.flatMap fun b => b.toList

/-- `input` and `output` are the same buffer or disjoint, modulo `2^AW`, and no longer than the data memory, so
that no buffer overlaps itself (R70, R288, U5). -/
def BuffersOk (aw src dst n : Nat) : Prop :=
  n ≤ 2 ^ aw ∧ (src % 2 ^ aw = dst % 2 ^ aw
    ∨ ∀ i j, i < n → j < n → (src + i) % 2 ^ aw ≠ (dst + j) % 2 ^ aw)

end Sys2Proof.Machine
end

