-- ==== Sys2Proof/Safety.lean ====
section
/-! DEFINITION. What counts as a safe run: the invariant of the machine (spec/10_state.md rules R22, R40
to R43; spec/20_memory.md rules R71, R72; spec/40_lifecycle_and_keys.md rules R129 to R132), the events
that exist, when a run is over (spec/70_reset_and_hazards.md rule R293), and fairness of a schedule
(spec/00_scope.md rule R7). -/

namespace Sys2Proof.Machine

/-! ### The lock span of one port -/

/-- Where a port stands with the lock: outside every span, inside one, inside one with its key of a
direction installed. -/
inductive Span where
  | out
  | held
  | ready (d : Dir)
  deriving DecidableEq, Repr

/-- The remaining steps of a unit, from a place in a lock span, take the lock before any use of the engine,
install before transforming in the same direction, and give the lock back (R71, R129, R130). -/
def spanOk : Span → List MicroOp → Bool
  | .out, [] => true
  | .held, [] => false
  | .ready _, [] => false
  | .out, op :: r =>
    match op with
    | .take => spanOk .held r
    | .memRead _ => spanOk .out r
    | .memWrite _ => spanOk .out r
    | .reg _ => spanOk .out r
    | .setLive _ => spanOk .out r
    | .conclude => spanOk .out r
    | .complete => spanOk .out r
    | .install _ => false
    | .transform _ => false
    | .give => false
    | .acquire => false
    | .release => false
  | .held, op :: r =>
    match op with
    | .install d => spanOk (.ready d) r
    | .acquire => spanOk .held r
    | .release => spanOk .held r
    | .give => spanOk .out r
    | .take => false
    | .memRead _ => false
    | .memWrite _ => false
    | .reg _ => false
    | .setLive _ => false
    | .conclude => false
    | .complete => false
    | .transform _ => false
  | .ready d, op :: r =>
    match op with
    | .transform d' => d' = d && spanOk (.ready d) r
    | .give => spanOk .out r
    | .take => false
    | .install _ => false
    | .memRead _ => false
    | .memWrite _ => false
    | .reg _ => false
    | .acquire => false
    | .release => false
    | .setLive _ => false
    | .conclude => false
    | .complete => false

/-- The place of port `c` in a lock span fits the shared state: inside a span `c` holds the lock, and once
the key is installed `ACTIVE` is the key of `c`'s own record (R41, R43, R129). -/
def Span.fits (c : Nat) (p : Port) (e : Engine) : Span → Prop
  | .out => e.lock ≠ .held c
  | .held => e.lock = .held c
  | .ready d => e.lock = .held c ∧ ∃ k, p.record d = .set k ∧ e.active = some (d, k)

/-! ### The invariant of one port -/

/-- The rest of the current unit's steps. -/
def Port.todo (p : Port) : List MicroOp :=
  match p.seq with
  | .idle => []
  | .decoded _ => []
  | .run _ t => t
  | .ending _ => []

/-- The primitive direction of the block units a command issues, none for the system commands (R132). -/
def Instr.keyDir : Instr → Option Dir
  | .init => none
  | .free => none
  | .setkeyDec => none
  | .setkeyEnc => none
  | .ecbDec => some .dec
  | .ecbEnc => some .enc
  | .cbcDec => some .dec
  | .cbcEnc => some .enc
  | .cfb128Dec => some .enc
  | .cfb128Enc => some .enc
  | .cfb8Dec => some .enc
  | .cfb8Enc => some .enc
  | .ctr => some .enc

/-- The results each command can return, and that a reserved byte (none) returns (R252). -/
def resultsOf : Option Instr → List Result
  | none => [.illegalCommand]
  | some .init => [.ok, .contextState, .engineUnavailable]
  | some .free => [.ok, .contextState, .engineUnavailable]
  | some .setkeyEnc => [.ok, .contextState, .invalidKeyLength]
  | some .setkeyDec => [.ok, .contextState, .invalidKeyLength]
  | some .ecbEnc => [.ok, .contextState, .keyNotSet]
  | some .ecbDec => [.ok, .contextState, .keyNotSet]
  | some .cbcEnc => [.ok, .contextState, .invalidInputLength, .keyNotSet]
  | some .cbcDec => [.ok, .contextState, .invalidInputLength, .keyNotSet]
  | some .cfb128Enc => [.ok, .contextState, .keyNotSet]
  | some .cfb128Dec => [.ok, .contextState, .keyNotSet]
  | some .cfb8Enc => [.ok, .contextState, .keyNotSet]
  | some .cfb8Dec => [.ok, .contextState, .keyNotSet]
  | some .ctr => [.ok, .contextState, .keyNotSet]

/-- Whether a running `INIT` or `FREE` has written `LIVE`: only its result is left, and it did not fail (R123,
R124). -/
def Port.liveWritten (p : Port) (todo : List MicroOp) : Bool :=
  todo = [.conclude] && !p.scratch.failed

/-- What a running command's port satisfies: the steps left are a tail of the command's program, the key
record it needs is set (R130, R246), the port is live unless it runs `INIT` (R247) or has run `FREE` up to its
write of `LIVE`, and `failed` is set only after the reference-count change (R123, R124). -/
def Port.runOk (p : Port) (i : Instr) (todo : List MicroOp) : Prop :=
  (∃ q, todo <:+ Instr.program i q)
    ∧ (∀ d, Instr.keyDir i = some d → (p.record d).present = true)
    ∧ (p.live = match i with
        | .init => p.liveWritten todo
        | .free => !p.liveWritten todo
        | _ => true)
    ∧ (p.scratch.failed = true →
        (i = .init ∨ i = .free) ∧ todo ≠ [] ∧ .acquire ∉ todo ∧ .release ∉ todo)

/-- What the sequencer of a port satisfies. A command that is ending has one of the results listed for it
(R252). -/
def Port.seqOk (p : Port) : Prop :=
  match p.seq with
  | .idle => p.scratch.failed = false
  | .decoded _ => p.scratch.failed = false
  | .run i todo => p.runOk i todo
  | .ending i => p.result ∈ resultsOf i

/-- Whether a port holds a reference on the engine (R21, R40): a live port does, from the reference-count
change of its `INIT` to that of its `FREE`. -/
def Port.holdsRef (p : Port) : Bool :=
  match p.seq with
  | .run .init todo => todo ≠ [] ∧ .acquire ∉ todo ∧ p.scratch.failed = false
  | .run .free todo => todo = [] ∨ .release ∈ todo ∨ p.scratch.failed = true
  | _ => p.live

/-! ### The invariant of the machine -/

/-- The number of references the ports hold (R40). -/
def State.refs (s : State) : Nat := s.ports.countP Port.holdsRef

/-- Every sequencer is at a place of its command's program, and its place in a lock span fits the shared
state. -/
def State.seqInv (s : State) : Prop :=
  ∀ c p, s.ports[c]? = some p →
    p.seqOk ∧ ∃ st : Span, spanOk st p.todo = true ∧ st.fits c p s.engine

/-- `LEN` is a number of `LENW` bits, `SRC` and `DST` are numbers of `AW` bits (R30, R31). -/
def State.widthInv (s : State) : Prop :=
  ∀ p ∈ s.ports, p.len < 2 ^ s.params.lenw ∧ p.src < 2 ^ s.params.aw ∧ p.dst < 2 ^ s.params.aw

/-- Only a port that exists holds the lock (R41). -/
def State.lockInv (s : State) : Prop :=
  ∀ c, s.engine.lock = .held c → c < s.ports.length

/-- `REFCOUNT` is the number of references the ports hold (R40), and the engine is enabled iff it is not
zero (R42, R258). -/
def State.refInv (s : State) : Prop :=
  s.engine.refcount = s.refs ∧ (s.engine.enabled = true ↔ 0 < s.engine.refcount)

/-- The invariant of the machine: it holds at reset and every step keeps it. -/
structure State.Inv (s : State) : Prop where
  seq : s.seqInv
  lock : s.lockInv
  ref : s.refInv
  mem : s.mem.wf s.params.aw = true
  widths : s.widthInv
  ports : 1 ≤ s.ports.length
  params : s.params.wf = true

/-- The run is over (R293): every port has `BUSY = 0` and the lock is free. -/
def State.quiescent (s : State) : Prop :=
  (∀ p ∈ s.ports, p.busy = false) ∧ s.engine.lock = .free

/-! ### What claims say of the port a command is called on -/

/-- The called port exists and is not busy, so that its `CMD` takes a command (R91). -/
def State.idlePort (s : State) (p : Port) : Prop :=
  s.ports[s.cur]? = some p ∧ p.busy = false

/-- The called port exists, is not busy and is live, and the lock is free. -/
def State.readyPort (s : State) (p : Port) : Prop :=
  s.idlePort p ∧ p.live = true ∧ s.engine.lock = .free

/-- The machine with the called port changed, as a host that writes its registers leaves it. -/
def State.mapPort (s : State) (f : Port → Port) : State :=
  { s with ports := s.ports.modify s.cur f }

/-- The machine after a command that failed validation with result `k`: `CMD` and `RESULT` are written, `BUSY`
is 0 again, the hidden `POS` is 0, the latches are empty, and nothing else is changed (R245, R249). -/
def State.failed (s : State) (p : Port) (w : Byte) (k : Result) : State :=
  { s with
    ports := s.ports.set s.cur
      { p with cmd := w, result := k, pos := 0, seq := .idle, scratch := Scratch.empty } }

/-- The number of bytes a data command reads and writes: 16 for ECB, `LEN` for every other (R66, R150). -/
def Instr.dataLen (i : Instr) (p : Port) : Nat :=
  match i with
  | .init => 0
  | .free => 0
  | .setkeyDec => 0
  | .setkeyEnc => 0
  | .ecbDec => 16
  | .ecbEnc => 16
  | .cbcDec => p.len
  | .cbcEnc => p.len
  | .cfb128Dec => p.len
  | .cfb128Enc => p.len
  | .cfb8Dec => p.len
  | .cfb8Enc => p.len
  | .ctr => p.len

/-! ### Events and schedules -/

/-- An event that exists on this machine: its port is below `NCTX`, its register-space address lies in a
window (R35, R256). -/
def State.eventOk (s : State) : Event → Prop
  | .call c _ => c < s.ports.length
  | .write a _ => (decodeRegAddr s.params s.ports.length a).isSome = true
  | .read a => (decodeRegAddr s.params s.ports.length a).isSome = true
  | .memWrite _ _ => True
  | .memRead _ => True
  | .grant c => c < s.ports.length
  | .reset => True

/-- `FAIR` (R7, R73): weak fairness of a schedule, an infinite sequence of granted ports. The model assumes
it nowhere; a claim that needs it takes it as a premise. -/
def Fair (nctx : Nat) (sched : Nat → Nat) : Prop :=
  ∀ c < nctx, ∀ n, ∃ m, n ≤ m ∧ sched m = c

/-- `n` steps granted to port `c` alone, one after another. -/
def grantAlone (prim : BlockPrimitive) (c : Nat) : Nat → State → Host.Outcome State Fault Refusal
  | 0, s => .next s
  | n + 1, s =>
    match grantStep prim c s with
    | .next t => grantAlone prim c n t
    | .fault r => .fault r
    | .refused r => .refused r

end Sys2Proof.Machine
end

