-- ==== Sys2Proof/Certificates/Slice0/Obligations.lean ====
section
/-! DEFINITION. The statements for the provers. `Sys2Proof.Machine` is open: `exec`, `step`, `grantStep` and the
state are the model's. A statement about a call is about the port `s.cur`; `s.idlePort p` says that it exists and
is not busy, `s.readyPort p` that it is live too and the lock is free. -/

open Sys2Proof Sys2Proof.Machine

/-! ### Encoding -/

/-- R93: the 13 command bytes, each with its command, and no other byte is a command. -/
def Obligations.OpcodeTableIsExact : Prop :=
  decodeByte 0x01 = .ok .init ∧ decodeByte 0x02 = .ok .free
    ∧ decodeByte 0x03 = .ok .setkeyDec ∧ decodeByte 0x13 = .ok .setkeyEnc
    ∧ decodeByte 0x04 = .ok .ecbDec ∧ decodeByte 0x14 = .ok .ecbEnc
    ∧ decodeByte 0x05 = .ok .cbcDec ∧ decodeByte 0x15 = .ok .cbcEnc
    ∧ decodeByte 0x06 = .ok .cfb128Dec ∧ decodeByte 0x16 = .ok .cfb128Enc
    ∧ decodeByte 0x07 = .ok .cfb8Dec ∧ decodeByte 0x17 = .ok .cfb8Enc
    ∧ decodeByte 0x08 = .ok .ctr
    ∧ ∀ w i, decodeByte w = .ok i →
        w ∈ [0x01#8, 0x02, 0x03, 0x13, 0x04, 0x14, 0x05, 0x15, 0x06, 0x16, 0x07, 0x17, 0x08]
          ∧ opField w = Instr.op i ∧ dirField w = Instr.dirBit i ∧ zeroField w = 0

/-- Decoding and encoding agree, in both directions. -/
def Obligations.DecodeEncodeAgree : Prop :=
  (∀ i, decodeByte (encode i) = .ok i) ∧ ∀ w i, decodeByte w = .ok i → encode i = w

/-- A byte decodes exactly where its fields, read as numbers, pass the checks of WellFormed.lean (R92, R93,
R94), and each reserved byte is rejected by the field that makes it one (R98). -/
def Obligations.ReservedBytesRejectedByField : Prop :=
  ∀ w : Byte,
    ((∃ i, decodeByte w = .ok i) ↔ CommandByte.wf w = true)
      ∧ (0x20 ≤ w.toNat → decodeByte w = .error .zeroField)
      ∧ (w.toNat < 0x20 → w.toNat % 16 = 0 ∨ 9 ≤ w.toNat % 16 → decodeByte w = .error .opField)
      ∧ (w = 0x11 ∨ w = 0x12 ∨ w = 0x18 → decodeByte w = .error .dirField)

/-- R98, R248: a call with a reserved byte on a port that is not busy ends with `IllegalCommand` and changes nothing
else, and so does a plain write of it followed by two steps of the sequencer: the write of `RESULT`, then the clearing
of `BUSY`. (That these are two steps is notes/assumptions/16.md; the empty latches are notes/assumptions/8.md.) -/
def Obligations.ReservedByteIsIllegalCommand : Prop :=
  ∀ s p w, s.idlePort p → decodeCommand w = none →
    callByte w s = .next (s.failed p w .illegalCommand)
      ∧ grantStep Config.primitive s.cur (s.mapPort fun q => q.writeReg s.params 0 w)
          = .next { s with
              ports := s.ports.set s.cur
                { p with cmd := w, result := .illegalCommand, pos := 0, seq := .ending none } }
      ∧ grantAlone Config.primitive s.cur 2 (s.mapPort fun q => q.writeReg s.params 0 w)
          = .next (s.failed p w .illegalCommand)

/-! ### A step -/

/-- A step whose next event is a call of a command byte runs the command it decodes to on that port. -/
def Obligations.StepRunsTheCalledCommand : Prop :=
  ∀ s c w rest i, s.agenda = .call c w :: rest → decodeByte w = .ok i →
    step s = exec i { s with agenda := rest, cur := c }

/-- A word placed by `withFetchWord` is the next command to run. -/
def Obligations.PlacedWordRunsNext : Prop :=
  ∀ s i, decodeTableWord 8 (encode i).toNat = some i
    ∧ step (s.withFetchWord 8 (encode i).toNat) = exec i s

/-- R281: CME does nothing by itself. With no event the machine stays as it is, and where every port is idle a step
granted to any port that exists leaves the machine as it is. -/
def Obligations.NothingHappensWithoutTheHost : Prop :=
  ∀ s : State, (s.agenda = [] → step s = .next s)
    ∧ ((∀ p ∈ s.ports, p.busy = false) → ∀ c, c < s.ports.length →
        grantStep Config.primitive c s = .next s)

/-- R91: a host's write of a byte to `CMD` of a port that is not busy stores it, sets `BUSY`, zeroes `POS` and
decodes it, and changes nothing else. -/
def Obligations.CommandWriteStartsTheCommand : Prop :=
  ∀ s c p w rest, s.params.wf = true → s.ports[c]? = some p → p.busy = false →
    s.agenda = .write (s.params.portBase + c * s.params.portStride) w :: rest →
    step s = .next
      { s with
        agenda := rest
        ports := s.ports.set c { p with cmd := w, pos := 0, seq := .decoded (decodeCommand w) } }

/-! ### The life-cycle commands -/

/-- `INIT` (R123) on a port that is not live, where no `enable()` fails: the key records are unset, the port is
live and holds one more reference, and the engine is enabled on the 0 to 1 transition. -/
def Obligations.InitTakesAReference : Prop :=
  ∀ s p, s.idlePort p → p.live = false → s.engine.lock = .free →
    s.engine.refcount ≠ 0 ∨ s.params.enableOk = true →
    exec .init s = .next
      { s with
        ports := s.ports.set s.cur
          { p with
            cmd := 0x01, result := .ok, live := true, ek := .unset, dk := .unset
            pos := 0, seq := .idle, scratch := Scratch.empty }
        engine := { s.engine with
          refcount := s.engine.refcount + 1
          enabled := if s.engine.refcount = 0 then true else s.engine.enabled } }

/-- `INIT` (R123, R244) whose `enable()` fails: the count is rolled back, the port is not live, and the result is
`EngineUnavailable`; the key records are unset. -/
def Obligations.InitRollsBackAFailedEnable : Prop :=
  ∀ s p, s.idlePort p → p.live = false → s.engine.lock = .free → s.engine.refcount = 0 →
    s.params.enableOk = false →
    exec .init s = .next
      { s with
        ports := s.ports.set s.cur
          { p with
            cmd := 0x01, result := .engineUnavailable, ek := .unset, dk := .unset
            pos := 0, seq := .idle, scratch := Scratch.empty } }

/-- `FREE` (R124) on a live port, where no `disable()` fails: key records and `KEYIN` are zeroed, the port is not
live and holds no reference, and the engine is disabled on the 1 to 0 transition. -/
def Obligations.FreeReleasesTheReference : Prop :=
  ∀ s p, s.readyPort p → 1 ≤ s.engine.refcount →
    s.engine.refcount ≠ 1 ∨ s.params.disableOk = true →
    exec .free s = .next
      { s with
        ports := s.ports.set s.cur
          { p with
            cmd := 0x02, result := .ok, live := false, ek := .unset, dk := .unset
            keyin := Vector.replicate 32 0
            pos := 0, seq := .idle, scratch := Scratch.empty }
        engine := { s.engine with
          refcount := s.engine.refcount - 1
          enabled := if s.engine.refcount = 1 then false else s.engine.enabled } }

/-- `FREE` (R124, R244) whose `disable()` fails: the key material is zeroed all the same, the reference is kept
and the port stays live. -/
def Obligations.FreeRollsBackAFailedDisable : Prop :=
  ∀ s p, s.readyPort p → s.engine.refcount = 1 → s.params.disableOk = false →
    exec .free s = .next
      { s with
        ports := s.ports.set s.cur
          { p with
            cmd := 0x02, result := .engineUnavailable, ek := .unset, dk := .unset
            keyin := Vector.replicate 32 0
            pos := 0, seq := .idle, scratch := Scratch.empty } }

/-- `SETKEY.ENC` and `SETKEY.DEC` (R126, R127, R128) on a live port with `KEYBITS` one of 128, 192, 256: the
record of that direction becomes the first `KEYBITS/8` bytes of `KEYIN`, the other record and everything else
keep their values, and the lock is not needed. -/
def Obligations.SetkeyRecordsTheStagedKey : Prop :=
  ∀ s p, s.idlePort p → p.live = true →
    p.keybits = 128 ∨ p.keybits = 192 ∨ p.keybits = 256 →
    ∃ k : Key, k.bits = p.keybits.toNat ∧ k.bytes = p.keyin.toList.take (p.keybits.toNat / 8)
      ∧ exec .setkeyEnc s = .next
          { s with
            ports := s.ports.set s.cur
              { p with
                cmd := 0x13, result := .ok, ek := .set k
                pos := 0, seq := .idle, scratch := Scratch.empty } }
      ∧ exec .setkeyDec s = .next
          { s with
            ports := s.ports.set s.cur
              { p with
                cmd := 0x03, result := .ok, dk := .set k
                pos := 0, seq := .idle, scratch := Scratch.empty } }

/-- R133: setting a key is idempotent per direction: a second identical `SETKEY` leaves the machine the first
one left. -/
def Obligations.SetkeyIsIdempotent : Prop :=
  ∀ s p t, s.idlePort p → p.live = true →
    (exec .setkeyEnc s = .next t → exec .setkeyEnc t = .next t)
      ∧ (exec .setkeyDec s = .next t → exec .setkeyDec t = .next t)

/-! ### The checks -/

/-- R241: `SETKEY` with any other `KEYBITS` fails with `InvalidKeyLength`, and the records keep their content. -/
def Obligations.BadKeyLengthIsRefused : Prop :=
  ∀ s p, s.idlePort p → p.live = true →
    p.keybits ≠ 128 ∧ p.keybits ≠ 192 ∧ p.keybits ≠ 256 →
    exec .setkeyEnc s = .next (s.failed p 0x13 .invalidKeyLength)
      ∧ exec .setkeyDec s = .next (s.failed p 0x03 .invalidKeyLength)

/-- R247: `INIT` on a live port and every other command on a port that is not live end with `ContextState`, and
nothing else changes. -/
def Obligations.WrongLifecycleStateIsRefused : Prop :=
  ∀ s p i, s.idlePort p → (p.live = true ↔ i = .init) →
    exec i s = .next (s.failed p (encode i) .contextState)

/-- R161, R242: a CBC command whose `LEN` is no multiple of 16 ends with `InvalidInputLength`, whatever the key
records are, and nothing else changes. -/
def Obligations.RaggedCbcLengthIsRefused : Prop :=
  ∀ s p, s.idlePort p → p.live = true → p.len % 16 ≠ 0 →
    exec .cbcEnc s = .next (s.failed p 0x15 .invalidInputLength)
      ∧ exec .cbcDec s = .next (s.failed p 0x05 .invalidInputLength)

/-- R243: a data command whose key record has never been set ends with `KeyNotSet`, also for `LEN = 0`, and
nothing else changes: no memory access, no use of the engine. -/
def Obligations.MissingKeyIsRefused : Prop :=
  ∀ s p i d, s.idlePort p → p.live = true → Instr.keyDir i = some d → p.record d = .unset →
    (i = .cbcEnc ∨ i = .cbcDec → p.len % 16 = 0) →
    exec i s = .next (s.failed p (encode i) .keyNotSet)

/-- R36: a command called on a busy port is ignored. -/
def Obligations.BusyPortIgnoresACall : Prop :=
  ∀ s p i, s.ports[s.cur]? = some p → p.busy = true → exec i s = .next s

/-- R252: the results each command can return, and that a reserved byte returns. A call on a port that is not busy:
whenever it has completed, `RESULT` is one of those listed. A command that runs by granted steps, with whatever other
ports do between: from a state of the invariant a step of its port keeps the command while the port is busy, and the
step that clears `BUSY` leaves a listed `RESULT`. -/
def Obligations.EachCommandReturnsOnlyItsResults : Prop :=
  (∀ s p w t q, s.idlePort p → decodeCommand w = none → callByte w s = .next t →
    t.ports[s.cur]? = some q → q.result = .illegalCommand)
  ∧ (∀ s p i t q, s.idlePort p → exec i s = .next t →
    t.ports[s.cur]? = some q → q.busy = false →
    match i with
    | .init => q.result = .ok ∨ q.result = .contextState ∨ q.result = .engineUnavailable
    | .free => q.result = .ok ∨ q.result = .contextState ∨ q.result = .engineUnavailable
    | .setkeyEnc => q.result = .ok ∨ q.result = .contextState ∨ q.result = .invalidKeyLength
    | .setkeyDec => q.result = .ok ∨ q.result = .contextState ∨ q.result = .invalidKeyLength
    | .cbcEnc =>
      q.result = .ok ∨ q.result = .contextState ∨ q.result = .invalidInputLength
        ∨ q.result = .keyNotSet
    | .cbcDec =>
      q.result = .ok ∨ q.result = .contextState ∨ q.result = .invalidInputLength
        ∨ q.result = .keyNotSet
    | .ecbEnc => q.result = .ok ∨ q.result = .contextState ∨ q.result = .keyNotSet
    | .ecbDec => q.result = .ok ∨ q.result = .contextState ∨ q.result = .keyNotSet
    | .cfb128Enc => q.result = .ok ∨ q.result = .contextState ∨ q.result = .keyNotSet
    | .cfb128Dec => q.result = .ok ∨ q.result = .contextState ∨ q.result = .keyNotSet
    | .cfb8Enc => q.result = .ok ∨ q.result = .contextState ∨ q.result = .keyNotSet
    | .cfb8Dec => q.result = .ok ∨ q.result = .contextState ∨ q.result = .keyNotSet
    | .ctr => q.result = .ok ∨ q.result = .contextState ∨ q.result = .keyNotSet)
  ∧ ∀ s c p t q, s.Inv → s.ports[c]? = some p → p.busy = true →
    grantStep Config.primitive c s = .next t → t.ports[c]? = some q →
    (q.busy = true → q.command = p.command) ∧ (q.busy = false → q.result ∈ resultsOf p.command)

/-! ### The data commands against their big-step forms -/

/-- `ECB.ENC` (R151): 16 bytes from `SRC`, encrypted under `EK`, at `DST`, whatever `LEN` is. -/
def Obligations.EcbEncryptsOneBlock : Prop :=
  ∀ s p k, s.readyPort p → p.ek = .set k →
    exec .ecbEnc s = .next
      { s with
        ports := s.ports.set s.cur
          { p with cmd := 0x14, result := .ok, pos := 16, seq := .idle, scratch := Scratch.empty }
        engine := { s.engine with active := some (.enc, k) }
        mem := s.mem.writeBlock s.params.aw p.dst
          (Config.primitive.encryptBlock k (s.mem.readBlock s.params.aw p.src)) }

/-- `ECB.DEC` (R152): 16 bytes from `SRC`, decrypted under `DK`, at `DST`, whatever `LEN` is. -/
def Obligations.EcbDecryptsOneBlock : Prop :=
  ∀ s p k, s.readyPort p → p.dk = .set k →
    exec .ecbDec s = .next
      { s with
        ports := s.ports.set s.cur
          { p with cmd := 0x04, result := .ok, pos := 16, seq := .idle, scratch := Scratch.empty }
        engine := { s.engine with active := some (.dec, k) }
        mem := s.mem.writeBlock s.params.aw p.dst
          (Config.primitive.decryptBlock k (s.mem.readBlock s.params.aw p.src)) }

/-- `CBC.ENC` (R162) over `n` blocks, in place or into a disjoint buffer: the output blocks and the final `IV`
are those of the big-step form under `EK`. -/
def Obligations.CbcEncryptsTheChain : Prop :=
  ∀ s p k n, s.readyPort p → p.ek = .set k → s.mem.wf s.params.aw = true → p.len = 16 * n →
    BuffersOk s.params.aw p.src p.dst (16 * n) →
    let r := BigStep.cbcEnc (Config.primitive.encryptBlock k) p.iv (s.mem.readBlocks s.params.aw p.src n)
    exec .cbcEnc s = .next
      { s with
        ports := s.ports.set s.cur
          { p with
            cmd := 0x15, result := .ok, iv := r.2, pos := p.len, seq := .idle
            scratch := Scratch.empty }
        engine := { s.engine with active := if n = 0 then s.engine.active else some (.enc, k) }
        mem := s.mem.writeBytes s.params.aw p.dst (blockBytes r.1) }

/-- `CBC.DEC` (R163) over `n` blocks, in place or into a disjoint buffer: the output blocks and the final `IV`
are those of the big-step form under `DK`, and `TEMP` ends as the last input block. -/
def Obligations.CbcDecryptsTheChain : Prop :=
  ∀ s p k n, s.readyPort p → p.dk = .set k → s.mem.wf s.params.aw = true → p.len = 16 * n →
    BuffersOk s.params.aw p.src p.dst (16 * n) →
    let r := BigStep.cbcDec (Config.primitive.decryptBlock k) p.iv (s.mem.readBlocks s.params.aw p.src n)
    exec .cbcDec s = .next
      { s with
        ports := s.ports.set s.cur
          { p with
            cmd := 0x05, result := .ok, iv := r.2, temp := if n = 0 then p.temp else r.2
            pos := p.len, seq := .idle, scratch := Scratch.empty }
        engine := { s.engine with active := if n = 0 then s.engine.active else some (.dec, k) }
        mem := s.mem.writeBytes s.params.aw p.dst (blockBytes r.1) }

/-- `CFB128.ENC` and `CFB128.DEC` (R183, R184, R185) over `LEN` bytes, in place or into a disjoint buffer, from any
starting `OFFSET`: output, final `IV` and final `OFFSET` are those of the big-step form under `EK`, in both
directions; the engine is used only if the offset passes 0. -/
def Obligations.Cfb128RunsTheShiftRegister : Prop :=
  ∀ s p k, s.readyPort p → p.ek = .set k → s.mem.wf s.params.aw = true →
    BuffersOk s.params.aw p.src p.dst p.len →
    let r := fun dir => BigStep.cfb128 (Config.primitive.encryptBlock k) dir p.iv p.offset
      (s.mem.readBytes s.params.aw p.src p.len)
    exec .cfb128Enc s = .next
      { s with
        ports := s.ports.set s.cur
          { p with
            cmd := 0x16, result := .ok, iv := (r .enc).2.1, offset := (r .enc).2.2, pos := p.len
            seq := .idle, scratch := Scratch.empty }
        engine := { s.engine with
          active :=
            if BigStep.refreshes p.offset p.len = 0 then s.engine.active else some (.enc, k) }
        mem := s.mem.writeBytes s.params.aw p.dst (r .enc).1 }
    ∧ exec .cfb128Dec s = .next
      { s with
        ports := s.ports.set s.cur
          { p with
            cmd := 0x06, result := .ok, iv := (r .dec).2.1, offset := (r .dec).2.2, pos := p.len
            seq := .idle, scratch := Scratch.empty }
        engine := { s.engine with
          active :=
            if BigStep.refreshes p.offset p.len = 0 then s.engine.active else some (.enc, k) }
        mem := s.mem.writeBytes s.params.aw p.dst (r .dec).1 }

/-- `CFB8.ENC` and `CFB8.DEC` (R204, R205) over `LEN` bytes, in place or into a disjoint buffer: output and final
`IV` are those of the big-step form under `EK`, in both directions, and `OFFSET` is untouched. The hidden `OV`
may end as anything. -/
def Obligations.Cfb8ShiftsByteByByte : Prop :=
  ∀ s p k, s.readyPort p → p.ek = .set k → s.mem.wf s.params.aw = true →
    BuffersOk s.params.aw p.src p.dst p.len →
    let r := fun dir => BigStep.cfb8 (Config.primitive.encryptBlock k) dir p.iv
      (s.mem.readBytes s.params.aw p.src p.len)
    (∃ ov, exec .cfb8Enc s = .next
      { s with
        ports := s.ports.set s.cur
          { p with
            cmd := 0x17, result := .ok, iv := (r .enc).2, pos := p.len, ov := ov
            seq := .idle, scratch := Scratch.empty }
        engine := { s.engine with
          active := if p.len = 0 then s.engine.active else some (.enc, k) }
        mem := s.mem.writeBytes s.params.aw p.dst (r .enc).1 })
    ∧ (∃ ov, exec .cfb8Dec s = .next
      { s with
        ports := s.ports.set s.cur
          { p with
            cmd := 0x07, result := .ok, iv := (r .dec).2, pos := p.len, ov := ov
            seq := .idle, scratch := Scratch.empty }
        engine := { s.engine with
          active := if p.len = 0 then s.engine.active else some (.enc, k) }
        mem := s.mem.writeBytes s.params.aw p.dst (r .dec).1 })

/-- `CTR` (R224, R225) over `LEN` bytes, in place or into a disjoint buffer, from any starting `OFFSET`: output,
final `NC`, `SB` and `OFFSET` are those of the big-step form under `EK`; the engine is used only if the offset
passes 0. -/
def Obligations.CtrRunsTheCounter : Prop :=
  ∀ s p k, s.readyPort p → p.ek = .set k → s.mem.wf s.params.aw = true →
    BuffersOk s.params.aw p.src p.dst p.len →
    let r := BigStep.ctr (Config.primitive.encryptBlock k)
      { nc := p.nc, sb := p.sb, offset := p.offset } (s.mem.readBytes s.params.aw p.src p.len)
    exec .ctr s = .next
      { s with
        ports := s.ports.set s.cur
          { p with
            cmd := 0x08, result := .ok, nc := r.2.nc, sb := r.2.sb, offset := r.2.offset
            pos := p.len, seq := .idle, scratch := Scratch.empty }
        engine := { s.engine with
          active :=
            if BigStep.refreshes p.offset p.len = 0 then s.engine.active else some (.enc, k) }
        mem := s.mem.writeBytes s.params.aw p.dst r.1 }

/-- R249: a data command that passes its checks always ends with `Ok`, wherever its buffers lie, after exactly
`LEN` bytes (ECB: 16). -/
def Obligations.ValidatedDataCommandEndsOk : Prop :=
  ∀ s p i d, s.readyPort p → Instr.keyDir i = some d → (p.record d).present = true →
    (i = .cbcEnc ∨ i = .cbcDec → p.len % 16 = 0) →
    ∃ t q, exec i s = .next t ∧ t.ports[s.cur]? = some q ∧ q.busy = false ∧ q.result = .ok
      ∧ q.pos = Instr.dataLen i p ∧ t.engine.lock = .free

/-- The frame of every command, wherever the buffers lie and whether it completes, fails or is held on the lock:
what it leaves unchanged (R25, R95, R123 to R127, R151 to R224). Memory changes only in the bytes `DST` to
`DST + n - 1`, `n` the bytes the command writes (none for the system commands). -/
def Obligations.CommandsKeepTheirFrame : Prop :=
  ∀ s p i t, s.ports[s.cur]? = some p → s.mem.wf s.params.aw = true → exec i s = .next t →
    (∀ a, (∀ j, j < Instr.dataLen i p → a % 2 ^ s.params.aw ≠ (p.dst + j) % 2 ^ s.params.aw) →
        t.mem.read s.params.aw a = s.mem.read s.params.aw a)
      ∧ t.params = s.params ∧ t.cur = s.cur ∧ t.agenda = s.agenda ∧ t.rdata = s.rdata
      ∧ (∀ c, c ≠ s.cur → t.ports[c]? = s.ports[c]?)
      ∧ (i ≠ .init ∧ i ≠ .free →
          t.engine.refcount = s.engine.refcount ∧ t.engine.enabled = s.engine.enabled)
      ∧ (Instr.keyDir i = none → t.engine.active = s.engine.active)
      ∧ ∃ q, t.ports[s.cur]? = some q
        ∧ q.keybits = p.keybits ∧ q.len = p.len ∧ q.src = p.src ∧ q.dst = p.dst
        ∧ (i ≠ .free → q.keyin = p.keyin)
        ∧ (i ≠ .init ∧ i ≠ .free → q.live = p.live)
        ∧ (i ≠ .init ∧ i ≠ .free ∧ i ≠ .setkeyEnc → q.ek = p.ek)
        ∧ (i ≠ .init ∧ i ≠ .free ∧ i ≠ .setkeyDec → q.dk = p.dk)
        ∧ (i ≠ .cbcEnc ∧ i ≠ .cbcDec ∧ i ≠ .cfb128Enc ∧ i ≠ .cfb128Dec ∧ i ≠ .cfb8Enc ∧ i ≠ .cfb8Dec →
            q.iv = p.iv)
        ∧ (i ≠ .cfb128Enc ∧ i ≠ .cfb128Dec ∧ i ≠ .ctr → q.offset = p.offset)
        ∧ (i ≠ .ctr → q.nc = p.nc ∧ q.sb = p.sb)
        ∧ (i ≠ .cfb8Enc ∧ i ≠ .cfb8Dec → q.ov = p.ov)
        ∧ (i ≠ .cbcDec → q.temp = p.temp)

/-! ### The modes -/

/-- R223: the bytewise increment adds 1 to the 128-bit big-endian number, modulo `2^128`. -/
def Obligations.Inc128AddsOne : Prop :=
  ∀ n : Block, be128 (inc128 n) = (be128 n + 1) % 2 ^ 128

/-- R183, R224: `OFFSET` ends as `(OFFSET + LEN) mod 16`, for CFB-128 in both directions and for CTR: of every
command that passes its checks, wherever the buffers lie, and of the big-step forms. -/
def Obligations.OffsetAdvancesByTheLength : Prop :=
  (∀ s p k i, s.readyPort p → p.ek = .set k → i = .cfb128Enc ∨ i = .cfb128Dec ∨ i = .ctr →
    ∃ t q, exec i s = .next t ∧ t.ports[s.cur]? = some q ∧ q.busy = false ∧ q.result = .ok
      ∧ q.offset.toNat = (p.offset.toNat + p.len) % 16)
  ∧ ∀ (E : Block → Block) (dir : Dir) (v : Block) (o : BitVec 4) (t : BigStep.CtrState) (xs : List Byte),
    (BigStep.cfb128 E dir v o xs).2.2.toNat = (o.toNat + xs.length) % 16
      ∧ (BigStep.ctr E t xs).2.offset.toNat = (t.offset.toNat + xs.length) % 16

/-- R162, R163, R183, R204, R224: in the big-step form of each mode, a stream split anywhere (CBC: at any block), its
chaining state carried over, gives the same output and the same final chaining state as the whole. -/
def Obligations.StreamsMaySplitAnywhere : Prop :=
  ∀ (E : Block → Block) (dir : Dir) (v : Block) (o : BitVec 4) (t : BigStep.CtrState)
    (ps qs : List Block) (xs ys : List Byte),
    BigStep.cbcEnc E v (ps ++ qs)
        = ((BigStep.cbcEnc E v ps).1 ++ (BigStep.cbcEnc E (BigStep.cbcEnc E v ps).2 qs).1,
            (BigStep.cbcEnc E (BigStep.cbcEnc E v ps).2 qs).2)
      ∧ BigStep.cbcDec E v (ps ++ qs)
        = ((BigStep.cbcDec E v ps).1 ++ (BigStep.cbcDec E (BigStep.cbcDec E v ps).2 qs).1,
            (BigStep.cbcDec E (BigStep.cbcDec E v ps).2 qs).2)
      ∧ (let a := BigStep.cfb128 E dir v o xs
         let b := BigStep.cfb128 E dir a.2.1 a.2.2 ys
         BigStep.cfb128 E dir v o (xs ++ ys) = (a.1 ++ b.1, b.2))
      ∧ (let a := BigStep.cfb8 E dir v xs
         let b := BigStep.cfb8 E dir a.2 ys
         BigStep.cfb8 E dir v (xs ++ ys) = (a.1 ++ b.1, b.2))
      ∧ (let a := BigStep.ctr E t xs
         let b := BigStep.ctr E a.2 ys
         BigStep.ctr E t (xs ++ ys) = (a.1 ++ b.1, b.2))

/-- R206: with `W` the starting register followed by the ciphertext, output byte `i` is the input byte xor byte 0 of
`E(W[i .. i+15])`, and the final register is the last 16 bytes of `W`. -/
def Obligations.Cfb8SlidesAWindow : Prop :=
  ∀ (E : Block → Block) (dir : Dir) (v : Block) (xs : List Byte),
    let r := BigStep.cfb8 E dir v xs
    let w := v.toList ++ (match dir with | .enc => r.1 | .dec => xs)
    r.1.length = xs.length ∧ r.2.toList = w.drop xs.length
      ∧ ∀ i x, xs[i]? = some x →
          ∃ b : Block, b.toList = (w.drop i).take 16 ∧ r.1[i]? = some (x ^^^ (E b)[0])

/-- R225: from offset 0, byte `i` is xored with byte `i mod 16` of the encryption of the counter incremented
`i / 16` times. -/
def Obligations.CtrKeystreamIsTheCounter : Prop :=
  ∀ (E : Block → Block) (n s : Block) (xs : List Byte) (i : Nat) (x : Byte), xs[i]? = some x →
    (BigStep.ctr E { nc := n, sb := s, offset := 0 } xs).1[i]?
      = some (x ^^^ (E (inc128^[i / 16] n))[i % 16]'(Nat.mod_lt _ (by decide)))

/-- R153: `ECB.ENC` from `SRC` to `X` and then `ECB.DEC` from `X` to `Y`, with one key on both sides, leaves at `Y`
the 16 bytes that were at `SRC`. (A data memory of fewer than 16 bytes cannot hold a block.) -/
def Obligations.EcbRoundTrip : Prop :=
  ∀ s p k y, s.readyPort p → p.ek = .set k → p.dk = .set k → s.mem.wf s.params.aw = true →
    16 ≤ 2 ^ s.params.aw →
    ∃ t u, exec .ecbEnc s = .next t
      ∧ exec .ecbDec (t.mapPort fun q => { q with src := p.dst, dst := y }) = .next u
      ∧ u.mem.readBlock s.params.aw y = s.mem.readBlock s.params.aw p.src

/-- R164: `CBC.ENC` and then `CBC.DEC` of its output, the same `IV` loaded before each and one key on both sides,
give back the input, for every `LEN` that is a multiple of 16. -/
def Obligations.CbcRoundTrip : Prop :=
  ∀ s p k y, s.readyPort p → p.ek = .set k → p.dk = .set k → s.mem.wf s.params.aw = true →
    p.len % 16 = 0 → BuffersOk s.params.aw p.src p.dst p.len → BuffersOk s.params.aw p.dst y p.len →
    ∃ t u, exec .cbcEnc s = .next t
      ∧ exec .cbcDec (t.mapPort fun q => { q with iv := p.iv, src := p.dst, dst := y }) = .next u
      ∧ u.mem.readBytes s.params.aw y p.len = s.mem.readBytes s.params.aw p.src p.len

/-- R186: `CFB128.ENC` and then `CFB128.DEC` of its output, the same `IV` and `OFFSET` loaded before each, give back
the input, for every `LEN` and every starting offset. -/
def Obligations.Cfb128RoundTrip : Prop :=
  ∀ s p k y, s.readyPort p → p.ek = .set k → s.mem.wf s.params.aw = true →
    BuffersOk s.params.aw p.src p.dst p.len → BuffersOk s.params.aw p.dst y p.len →
    ∃ t u, exec .cfb128Enc s = .next t
      ∧ exec .cfb128Dec
          (t.mapPort fun q => { q with iv := p.iv, offset := p.offset, src := p.dst, dst := y }) = .next u
      ∧ u.mem.readBytes s.params.aw y p.len = s.mem.readBytes s.params.aw p.src p.len

/-- R207: `CFB8.ENC` and then `CFB8.DEC` of its output, the same `IV` loaded before each, give back the input, for
every `LEN`. -/
def Obligations.Cfb8RoundTrip : Prop :=
  ∀ s p k y, s.readyPort p → p.ek = .set k → s.mem.wf s.params.aw = true →
    BuffersOk s.params.aw p.src p.dst p.len → BuffersOk s.params.aw p.dst y p.len →
    ∃ t u, exec .cfb8Enc s = .next t
      ∧ exec .cfb8Dec (t.mapPort fun q => { q with iv := p.iv, src := p.dst, dst := y }) = .next u
      ∧ u.mem.readBytes s.params.aw y p.len = s.mem.readBytes s.params.aw p.src p.len

/-- R226: two `CTR` commands, the second on the first one's output, with the same `NC`, `SB` and `OFFSET` loaded before
each, give back the input, for every `LEN`. -/
def Obligations.CtrIsSelfInverse : Prop :=
  ∀ s p k y, s.readyPort p → p.ek = .set k → s.mem.wf s.params.aw = true →
    BuffersOk s.params.aw p.src p.dst p.len → BuffersOk s.params.aw p.dst y p.len →
    ∃ t u, exec .ctr s = .next t
      ∧ exec .ctr
          (t.mapPort fun q =>
            { q with nc := p.nc, sb := p.sb, offset := p.offset, src := p.dst, dst := y }) = .next u
      ∧ u.mem.readBytes s.params.aw y p.len = s.mem.readBytes s.params.aw p.src p.len

/-! ### Sequencers, the lock and the invariant -/

/-- The invariant holds after reset, for every value of the parameters; the machine of Config is one of them. -/
def Obligations.InvariantHoldsAfterReset : Prop :=
  (∀ nctx ps, 1 ≤ nctx → ps.wf = true → (State.resetWith nctx ps).Inv) ∧ State.reset.Inv

/-- Every step keeps the invariant. -/
def Obligations.EveryStepKeepsTheInvariant : Prop :=
  ∀ s t, s.Inv → step s = .next t → t.Inv

/-- From a state of the invariant no event that exists stops the machine: a call always has a next state, no block
unit runs on an unset record, and `transformBlock` never runs without its key installed (R43, U11). -/
def Obligations.NoEventStopsTheMachine : Prop :=
  ∀ s e rest, s.Inv → s.agenda = e :: rest → s.eventOk e → ∃ t, step s = .next t

/-- A call is a run of the port's own sequencer: the machine a call leaves is the one that a plain write of the
command byte to `CMD` and some number of steps granted to that port alone leave. -/
def Obligations.CallIsASequencerRun : Prop :=
  ∀ s p i t, s.idlePort p → exec i s = .next t →
    ∃ n, grantAlone Config.primitive s.cur n (s.mapPort fun q => q.writeReg s.params 0 (encode i)) = .next t

/-- R72: a sequencer whose next step is `take` while the lock is not free has no step. -/
def Obligations.TakeWaitsForTheLock : Prop :=
  ∀ s c p i rest, s.ports[c]? = some p → p.seq = .run i (.take :: rest) → s.engine.lock ≠ .free →
    grantStep Config.primitive c s = .next s

/-- R130: while a port holds the lock, a step of any other port leaves the shared state as it is: no other port's
`installKey`, `transformBlock`, `INIT` or `FREE` step falls inside its lock span. -/
def Obligations.LockSpanExcludesOtherPorts : Prop :=
  ∀ s c d t, s.Inv → s.engine.lock = .held c → d ≠ c →
    grantStep Config.primitive d s = .next t → t.engine = s.engine

/-- R129, R131: when a port's sequencer transforms a block, it is under that port's own recorded key, whatever other
ports have done. -/
def Obligations.BlocksRunUnderTheirOwnKey : Prop :=
  ∀ s c p i d rest, s.Inv → s.ports[c]? = some p → p.seq = .run i (.transform d :: rest) →
    ∃ k, p.record d = .set k
      ∧ grantStep Config.primitive c s = .next
          { s with
            ports := s.ports.set c
              { p with
                seq := .run i rest
                scratch := { p.scratch with
                  blk := Config.primitive.transform d k p.scratch.blk } } }

/-- R20, R256: a step granted to one port leaves every other port as it is, and the parameters and the agenda. -/
def Obligations.PortsArePrivate : Prop :=
  ∀ s c d t, grantStep Config.primitive c s = .next t → d ≠ c →
    t.ports[d]? = s.ports[d]? ∧ t.ports.length = s.ports.length ∧ t.params = s.params
      ∧ t.agenda = s.agenda

/-- R72, R293: no deadlock: while some port is busy, some port has a step that changes the machine. -/
def Obligations.SomePortCanAlwaysMove : Prop :=
  ∀ s p, s.Inv → p ∈ s.ports → p.busy = true →
    ∃ c t, grantStep Config.primitive c s = .next t ∧ t ≠ s

/-- R40, R42: when the run is over, `REFCOUNT` is the number of live ports, and the engine is enabled iff it is not
zero. -/
def Obligations.RefcountCountsTheLivePorts : Prop :=
  ∀ s : State, s.Inv → s.quiescent →
    s.engine.refcount = s.ports.countP Port.live
      ∧ (s.engine.enabled = true ↔ 0 < s.engine.refcount)

/-- No step changes the parameters or the number of ports (R7). -/
def Obligations.ParametersNeverChange : Prop :=
  ∀ s t, step s = .next t → t.params = s.params ∧ t.ports.length = s.ports.length

/-! ### Reset -/

/-- R44: the state after reset, for every number of ports and every value of the parameters. (`OV`, `TEMP` and the
latches are not named: their values are the model's, notes/assumptions/8.md.) -/
def Obligations.ResetValuesAreTheListedOnes : Prop :=
  ∀ (nctx : Nat) (ps : Params),
    (State.resetWith nctx ps).ports.length = nctx
      ∧ (State.resetWith nctx ps).engine
        = { refcount := 0, lock := .free, enabled := false, active := none }
      ∧ ∀ (c : Nat) (p : Port), (State.resetWith nctx ps).ports[c]? = some p →
        p.live = false ∧ p.ek = .unset ∧ p.dk = .unset ∧ p.keyin = Vector.replicate 32 0
          ∧ p.keybits = 0 ∧ p.iv = Vector.replicate 16 0 ∧ p.nc = Vector.replicate 16 0
          ∧ p.sb = Vector.replicate 16 0 ∧ p.offset = 0 ∧ p.len = 0 ∧ p.src = 0 ∧ p.dst = 0
          ∧ p.cmd = 0 ∧ p.status = 0 ∧ p.result.code = 0 ∧ p.pos = 0

/-- R280: a hardware reset, also while commands run, puts every port and the shared state at the reset values and
leaves data memory as it is. -/
def Obligations.ResetAbandonsRunningCommands : Prop :=
  ∀ s rest, s.agenda = .reset :: rest →
    step s = .next
      { s with
        agenda := rest
        ports := List.replicate s.ports.length Port.reset
        engine := { refcount := 0, lock := .free, enabled := false, active := none } }

/-! ### The host's accesses -/

/-- R35: the windows (register-space addresses do not wrap: the model's choice, notes/assumptions/25.md): every offset of every port's window has its own register-space address, and an address that
decodes to a window offset is that window's. -/
def Obligations.WindowsDoNotOverlap : Prop :=
  ∀ ps nctx, ps.wf = true →
    (∀ c off, c < nctx → off < 0x80 →
      decodeRegAddr ps nctx (ps.portBase + c * ps.portStride + off) = some (c, off))
      ∧ ∀ a c off, decodeRegAddr ps nctx a = some (c, off) →
        c < nctx ∧ off < 0x80 ∧ a = ps.portBase + c * ps.portStride + off

/-- R24, R27, R28 to R31, R35, R36: what a host's byte write to a register of a port that is not busy, and then a read
of the same offset, do to the machine, register by register: the field behind each offset takes the byte (little-endian
in a scalar, of which the bits that its width holds are kept), the read returns the new byte, and nothing else changes;
`OFFSET` keeps the low four bits, `KEYIN` takes the byte and reads 0, the reserved offsets keep and read 0, and every
other offset reads as before (where `LEN`, `SRC` and `DST` hold numbers of their width, as the invariant says). (That a write of `STATUS` and `RESULT` changes nothing is the model's,
notes/assumptions/9.md; the map of `LEN`, `SRC` and `DST` at other widths than 32, notes/assumptions/2.md; that an access is
one byte, notes/assumptions/24.md.) -/
def Obligations.RegistersReadBack : Prop :=
  ∀ (s : State) (c : Nat) (p : Port) (b : Byte), s.params.wf = true → s.ports[c]? = some p → p.busy = false →
    let patch := fun w v k : Nat =>
      (v % 256 ^ k + b.toNat * 256 ^ k + v / 256 ^ (k + 1) * 256 ^ (k + 1)) % 2 ^ w
    let bytes := fun v k : Nat => BitVec.ofNat 8 (v / 256 ^ k)
    let gives := fun (off : Nat) (q : Port) (x : Byte) => ∀ rest,
      let a := s.params.portBase + c * s.params.portStride + off
      step { s with agenda := .write a b :: .read a :: rest }
          = .next { s with agenda := .read a :: rest, ports := s.ports.set c q }
        ∧ step { s with agenda := .read a :: rest, ports := s.ports.set c q }
          = .next { s with agenda := rest, ports := s.ports.set c q, rdata := x }
    gives 0x01 p p.status ∧ gives 0x02 p p.result.code
      ∧ gives 0x03 { p with offset := BitVec.ofNat 4 b.toNat } (b &&& 0x0F)
      ∧ (∀ k, k < 4 →
          gives (0x04 + k) { p with len := patch s.params.lenw p.len k }
              (bytes (patch s.params.lenw p.len k) k)
            ∧ gives (0x08 + k) { p with src := patch s.params.aw p.src k }
              (bytes (patch s.params.aw p.src k) k)
            ∧ gives (0x0C + k) { p with dst := patch s.params.aw p.dst k }
              (bytes (patch s.params.aw p.dst k) k)
            ∧ ∀ w v, 8 * (k + 1) ≤ w → bytes (patch w v k) k = b)
      ∧ (∀ k : Fin 16,
          gives (0x10 + k) { p with iv := p.iv.set k b } b
            ∧ gives (0x20 + k) { p with nc := p.nc.set k b } b
            ∧ gives (0x30 + k) { p with sb := p.sb.set k b } b)
      ∧ (∀ k : Fin 32, gives (0x40 + k) { p with keyin := p.keyin.set k b } 0)
      ∧ (∀ k, k < 2 →
          gives (0x60 + k) { p with keybits := BitVec.ofNat 16 (patch 16 p.keybits.toNat k) } b)
      ∧ (∀ off, 0x62 ≤ off → off < 0x80 → gives off p 0)
      ∧ (p.len < 2 ^ s.params.lenw ∧ p.src < 2 ^ s.params.aw ∧ p.dst < 2 ^ s.params.aw →
          ∀ off off', off ≠ 0 → off' ≠ off →
          (p.writeReg s.params off b).readReg off' = p.readReg off')

/-- R24, R96: the key staging registers take a host's bytes where `SETKEY` finds them: a host's write at offset
`0x40 + i` of a port that is not busy replaces `KEYIN[i]` and changes nothing else of the machine. -/
def Obligations.KeyStagingTakesBytes : Prop :=
  ∀ s c p (i : Fin 32) b rest, s.params.wf = true → s.ports[c]? = some p → p.busy = false →
    s.agenda = .write (s.params.portBase + c * s.params.portStride + (0x40 + i.val)) b :: rest →
    step s = .next
      { s with agenda := rest, ports := s.ports.set c { p with keyin := p.keyin.set i.val b } }

/-- R36: a host's write to any register of a busy port changes nothing. -/
def Obligations.BusyPortIgnoresWrites : Prop :=
  ∀ s c off p b rest, s.params.wf = true → s.ports[c]? = some p → p.busy = true → off < 0x80 →
    s.agenda = .write (s.params.portBase + c * s.params.portStride + off) b :: rest →
    step s = .next { s with agenda := rest }

/-- R32 to R36, R24, R240: what a host reads at each offset of the window of any port, busy or not, and that a read
changes nothing but what the host holds: the last byte of `CMD`; `STATUS` with `BUSY`, `LIVE`, `EKP`, `DKP` in bits 0 to
3 and bits 7:4 zero; `RESULT` by its code; `OFFSET`; the bytes of `LEN`, `SRC`, `DST`, lowest first; `IV`, `NC`, `SB` in
index order; `KEYIN` as 0; `KEYBITS`; the reserved offsets as 0. (R35 gives the map for `AW = LENW = 32`; the same offsets
and four bytes each for `LEN`, `SRC` and `DST` at any other width are the model's choice, notes/assumptions/2.md; that an
access is one byte, notes/assumptions/24.md; the field that holds what the host read, notes/assumptions/13.md.) -/
def Obligations.StatusShowsItsBits : Prop :=
  ∀ (s : State) (c : Nat) (p : Port), s.params.wf = true → s.ports[c]? = some p →
    let reads := fun (off : Nat) (x : Byte) => ∀ rest,
      step { s with agenda := .read (s.params.portBase + c * s.params.portStride + off) :: rest }
        = .next { s with agenda := rest, rdata := x }
    let bytes := fun v k : Nat => BitVec.ofNat 8 (v / 256 ^ k)
    reads 0x00 p.cmd
      ∧ reads 0x01 (BitVec.ofNat 8
          (p.busy.toNat + 2 * p.live.toNat + 4 * p.ek.present.toNat + 8 * p.dk.present.toNat))
      ∧ reads 0x02
          (match p.result with
            | .ok => 0
            | .invalidKeyLength => 1
            | .invalidInputLength => 2
            | .keyNotSet => 3
            | .engineUnavailable => 4
            | .illegalCommand => 5
            | .contextState => 6)
      ∧ reads 0x03 (BitVec.ofNat 8 p.offset.toNat)
      ∧ (∀ k, k < 4 →
          reads (0x04 + k) (bytes p.len k) ∧ reads (0x08 + k) (bytes p.src k)
            ∧ reads (0x0C + k) (bytes p.dst k))
      ∧ (∀ k : Fin 16,
          reads (0x10 + k) p.iv[k] ∧ reads (0x20 + k) p.nc[k] ∧ reads (0x30 + k) p.sb[k])
      ∧ (∀ k, k < 32 → reads (0x40 + k) 0)
      ∧ (∀ k, k < 2 → reads (0x60 + k) (bytes p.keybits.toNat k))
      ∧ (∀ off, 0x62 ≤ off → off < 0x80 → reads off 0)
      ∧ p.status.getLsbD 0 = p.busy ∧ p.status.getLsbD 1 = p.live ∧ p.status.getLsbD 2 = p.ek.present
      ∧ p.status.getLsbD 3 = p.dk.present ∧ p.status.extractLsb' 4 4 = 0

/-- R23: a port has no read path to key material: two ports that differ only in the content of `KEYIN` and of
records that are set on both sides read alike at every offset, and a host's read at any register-space address gives
the same byte on two machines that differ only so; the two `PRESENT` bits are bits 2 and 3 of `STATUS`. -/
def Obligations.KeysHaveNoReadPath : Prop :=
  (∀ (p : Port) ek dk keyin off, ek.present = p.ek.present → dk.present = p.dk.present →
    { p with ek := ek, dk := dk, keyin := keyin }.readReg off = p.readReg off)
  ∧ (∀ s c p ek dk keyin a rest t, s.ports[c]? = some p → ek.present = p.ek.present →
    dk.present = p.dk.present → s.agenda = .read a :: rest → step s = .next t →
    ∃ u, step { s with ports := s.ports.set c { p with ek := ek, dk := dk, keyin := keyin } } = .next u
      ∧ u.rdata = t.rdata)
  ∧ ∀ p : Port,
    (p.readReg 0x01).getLsbD 2 = p.ek.present ∧ (p.readReg 0x01).getLsbD 3 = p.dk.present

/-- R61 to R63: a write of several bytes puts byte `j` at `a + j` modulo `2^AW` and leaves every other address as it is. -/
def Obligations.WritesLandWhereTheyShould : Prop :=
  ∀ (m : Memory) aw a (bs : List Byte), m.wf aw = true → bs.length ≤ 2 ^ aw →
    (m.writeBytes aw a bs).wf aw = true
      ∧ (∀ j b, bs[j]? = some b → (m.writeBytes aw a bs).read aw ((a + j) % 2 ^ aw) = b)
      ∧ ∀ x, (∀ j, j < bs.length → x % 2 ^ aw ≠ (a + j) % 2 ^ aw) →
          (m.writeBytes aw a bs).read aw x = m.read aw x

/-- R60: the host's own data-memory accesses: a write and then a read of one address give the byte written, and no
register of any port changes. -/
def Obligations.HostReachesDataMemory : Prop :=
  ∀ s a b rest, s.mem.wf s.params.aw = true → s.agenda = .memWrite a b :: .memRead a :: rest →
    ∃ t, step s = .next t ∧ step t = .next { s with agenda := rest, mem := s.mem.write s.params.aw a b, rdata := b }
end

