-- ==== Sys2Proof/Laws/Memory.lean ====
section
/-! SUPPORT. The laws of data memory: a read after a write, the canonical form, and that equal readings are
equal memories. -/

namespace Sys2Proof.Machine

variable {aw : Nat}

/-! ### Reading after writing -/

theorem Memory.lookup_cons_self (r : Memory) (a : Nat) (b : Byte)
    (h : Memory.lookup r a = Memory.blank) : Memory.lookup (Memory.cons a b r) a = b := by
  unfold Memory.cons
  split
  · simp_all
  · simp [Memory.lookup]

theorem Memory.lookup_cons_other (r : Memory) {a k : Nat} (b : Byte) (h : a ≠ k) :
    Memory.lookup (Memory.cons a b r) k = Memory.lookup r k := by
  unfold Memory.cons
  split
  · rfl
  · simp [Memory.lookup, h]

/-- An address below every entry of a canonical list is unlisted. -/
theorem Memory.lookup_of_lt {lo a : Nat} {m : Memory} (h : Memory.wfFrom aw lo m = true)
    (ha : a < lo) : Memory.lookup m a = Memory.blank := by
  induction m generalizing lo with
  | nil => rfl
  | cons e r ih =>
    obtain ⟨k, x⟩ := e
    simp only [Memory.wfFrom, Bool.and_eq_true, decide_eq_true_eq] at h
    obtain ⟨⟨⟨hlo, -⟩, -⟩, hr⟩ := h
    have hk : k ≠ a := by omega
    simp only [Memory.lookup, hk, if_false]
    exact ih hr (by omega)

theorem Memory.lookup_store {lo : Nat} {m : Memory} (a : Nat) (b : Byte)
    (h : Memory.wfFrom aw lo m = true) (k : Nat) :
    Memory.lookup (Memory.store m a b) k = if k = a then b else Memory.lookup m k := by
  induction m generalizing lo with
  | nil =>
    simp only [Memory.store]
    split
    · next hk => subst hk; exact Memory.lookup_cons_self [] k b rfl
    · next hk => exact Memory.lookup_cons_other [] b (Ne.symm hk)
  | cons e r ih =>
    obtain ⟨k', x⟩ := e
    have h' := h
    simp only [Memory.wfFrom, Bool.and_eq_true, decide_eq_true_eq] at h
    obtain ⟨⟨⟨hlo, hk32⟩, hx⟩, hr⟩ := h
    simp only [Memory.store]
    split
    · next hlt =>
      split
      · next hk =>
        subst hk
        refine Memory.lookup_cons_self _ _ _ ?_
        have h2 : Memory.wfFrom aw k' ((k', x) :: r) = true := by
          simp only [Memory.wfFrom, Bool.and_eq_true, decide_eq_true_eq]
          exact ⟨⟨⟨le_refl _, hk32⟩, hx⟩, hr⟩
        exact Memory.lookup_of_lt h2 hlt
      · next hk => exact Memory.lookup_cons_other _ b (Ne.symm hk)
    · next hge =>
      split
      · next heq =>
        subst heq
        split
        · next hk =>
          subst hk
          exact Memory.lookup_cons_self _ _ _ (Memory.lookup_of_lt hr (Nat.lt_succ_self _))
        · next hk =>
          rw [Memory.lookup_cons_other _ b (Ne.symm hk)]
          simp [Memory.lookup, Ne.symm hk]
      · next hne =>
        simp only [Memory.lookup]
        rw [ih hr]
        split
        · next hk => rw [if_neg (by omega)]
        · rfl

/-! ### The canonical form -/

theorem Memory.wfFrom_mono {lo lo' : Nat} {m : Memory} (h : Memory.wfFrom aw lo m = true)
    (hle : lo' ≤ lo) : Memory.wfFrom aw lo' m = true := by
  cases m with
  | nil => rfl
  | cons e r =>
    obtain ⟨k, x⟩ := e
    simp only [Memory.wfFrom, Bool.and_eq_true, decide_eq_true_eq] at h ⊢
    exact ⟨⟨⟨by omega, h.1.1.2⟩, h.1.2⟩, h.2⟩

theorem Memory.wfFrom_cons {lo a : Nat} {b : Byte} {r : Memory} (h : Memory.wfFrom aw (a + 1) r = true)
    (hlo : lo ≤ a) (ha : a < 2 ^ aw) : Memory.wfFrom aw lo (Memory.cons a b r) = true := by
  unfold Memory.cons
  split
  · exact Memory.wfFrom_mono h (by omega)
  · next hb =>
    simp only [Memory.wfFrom, Bool.and_eq_true, decide_eq_true_eq, bne_iff_ne]
    exact ⟨⟨⟨hlo, ha⟩, hb⟩, h⟩

theorem Memory.wfFrom_store {lo : Nat} {m : Memory} {a : Nat} (b : Byte)
    (h : Memory.wfFrom aw lo m = true) (hlo : lo ≤ a) (ha : a < 2 ^ aw) :
    Memory.wfFrom aw lo (Memory.store m a b) = true := by
  induction m generalizing lo with
  | nil => exact Memory.wfFrom_cons rfl hlo ha
  | cons e r ih =>
    obtain ⟨k, x⟩ := e
    simp only [Memory.wfFrom, Bool.and_eq_true, decide_eq_true_eq] at h
    obtain ⟨⟨⟨hk, hk32⟩, hx⟩, hr⟩ := h
    simp only [Memory.store]
    split
    · next hlt =>
      refine Memory.wfFrom_cons ?_ hlo ha
      simp only [Memory.wfFrom, Bool.and_eq_true, decide_eq_true_eq]
      exact ⟨⟨⟨hlt, hk32⟩, hx⟩, hr⟩
    · next hge =>
      split
      · next heq => subst heq; exact Memory.wfFrom_cons hr hlo ha
      · next hne =>
        simp only [Memory.wfFrom, Bool.and_eq_true, decide_eq_true_eq]
        exact ⟨⟨⟨hk, hk32⟩, hx⟩, ih hr (by omega)⟩

/-- A write keeps the canonical form. -/
theorem Memory.wf_write {m : Memory} (a : Nat) (b : Byte) (h : m.wf aw = true) :
    (m.write aw a b).wf aw = true :=
  Memory.wfFrom_store b h (Nat.zero_le _) (Nat.mod_lt _ (Nat.two_pow_pos aw))

/-- A write of several bytes keeps the canonical form. -/
theorem Memory.wf_writeBytes {m : Memory} (a : Nat) (bs : List Byte) (h : m.wf aw = true) :
    (m.writeBytes aw a bs).wf aw = true := by
  induction bs generalizing m a with
  | nil => exact h
  | cons b bs ih => exact ih (a + 1) (Memory.wf_write a b h)

/-- Reading a byte after writing one (R61, R62): the two addresses name one byte where they agree modulo `2^AW`
(R63). -/
theorem Memory.read_write {m : Memory} (h : m.wf aw = true) (a k : Nat) (b : Byte) :
    (m.write aw a b).read aw k = if k % 2 ^ aw = a % 2 ^ aw then b else m.read aw k :=
  Memory.lookup_store (a % 2 ^ aw) b h (k % 2 ^ aw)

/-! ### Addresses are taken modulo `2^AW` -/

theorem Memory.read_congr (m : Memory) {a b : Nat} (h : a % 2 ^ aw = b % 2 ^ aw) :
    m.read aw a = m.read aw b := by
  simp [Memory.read, h]

theorem Memory.write_congr (m : Memory) {a b : Nat} (x : Byte) (h : a % 2 ^ aw = b % 2 ^ aw) :
    m.write aw a x = m.write aw b x := by
  simp [Memory.write, h]

/-! ### Writes of several bytes -/

/-- A write of two lists of bytes is a write of the first, and of the second behind it. -/
theorem Memory.writeBytes_append (m : Memory) (a : Nat) (xs ys : List Byte) :
    m.writeBytes aw a (xs ++ ys) = (m.writeBytes aw a xs).writeBytes aw (a + xs.length) ys := by
  induction xs generalizing m a with
  | nil => rfl
  | cons x xs ih =>
    simp only [List.cons_append, Memory.writeBytes, ih, List.length_cons]
    congr 1
    omega

/-- A write of several bytes leaves every other address as it is. -/
theorem Memory.read_writeBytes_other {m : Memory} (h : m.wf aw = true) (a : Nat) (xs : List Byte)
    {x : Nat} (hx : ∀ j, j < xs.length → x % 2 ^ aw ≠ (a + j) % 2 ^ aw) :
    (m.writeBytes aw a xs).read aw x = m.read aw x := by
  induction xs generalizing m a with
  | nil => rfl
  | cons b bs ih =>
    have h0 : x % 2 ^ aw ≠ a % 2 ^ aw := by simpa using hx 0 (by simp)
    simp only [Memory.writeBytes]
    rw [ih (Memory.wf_write a b h), Memory.read_write h, if_neg h0]
    intro j hj
    have := hx (j + 1) (by simpa using hj)
    rwa [show a + (j + 1) = a + 1 + j by omega] at this

/-! ### Equal readings are equal memories -/

theorem Memory.ext_from {lo : Nat} {m n : Memory} (hm : Memory.wfFrom aw lo m = true)
    (hn : Memory.wfFrom aw lo n = true) (h : ∀ k, Memory.lookup m k = Memory.lookup n k) : m = n := by
  induction m generalizing lo n with
  | nil =>
    cases n with
    | nil => rfl
    | cons e r =>
      obtain ⟨k, x⟩ := e
      simp only [Memory.wfFrom, Bool.and_eq_true, bne_iff_ne] at hn
      have := h k
      simp only [Memory.lookup, if_true] at this
      exact absurd this.symm hn.1.2
  | cons e r ih =>
    obtain ⟨k, x⟩ := e
    have hm' := hm
    simp only [Memory.wfFrom, Bool.and_eq_true, decide_eq_true_eq, bne_iff_ne] at hm
    cases n with
    | nil =>
      have := h k
      simp only [Memory.lookup, if_true] at this
      exact absurd this hm.1.2
    | cons e' r' =>
      obtain ⟨k', x'⟩ := e'
      have hn' := hn
      simp only [Memory.wfFrom, Bool.and_eq_true, decide_eq_true_eq, bne_iff_ne] at hn
      have hlk : k = k' := by
        rcases Nat.lt_trichotomy k k' with hlt | heq | hgt
        · have := h k
          rw [Memory.lookup, if_pos rfl, Memory.lookup, if_neg (by omega),
            Memory.lookup_of_lt hn.2 (by omega)] at this
          exact absurd this hm.1.2
        · exact heq
        · have := h k'
          rw [Memory.lookup, if_neg (by omega), Memory.lookup_of_lt hm.2 (by omega), Memory.lookup,
            if_pos rfl] at this
          exact absurd this.symm hn.1.2
      subst hlk
      have hx : x = x' := by simpa [Memory.lookup] using h k
      subst hx
      congr 1
      refine ih hm.2 hn.2 fun j => ?_
      by_cases hj : k = j
      · subst hj
        rw [Memory.lookup_of_lt hm.2 (Nat.lt_succ_self _), Memory.lookup_of_lt hn.2 (Nat.lt_succ_self _)]
      · simpa [Memory.lookup, hj] using h j

theorem Memory.lookup_of_ge {lo : Nat} {m : Memory} (h : Memory.wfFrom aw lo m = true) {k : Nat}
    (hk : 2 ^ aw ≤ k) : Memory.lookup m k = Memory.blank := by
  induction m generalizing lo with
  | nil => rfl
  | cons e r ih =>
    obtain ⟨k', x⟩ := e
    simp only [Memory.wfFrom, Bool.and_eq_true, decide_eq_true_eq] at h
    have : k' ≠ k := by omega
    simp only [Memory.lookup, this, if_false]
    exact ih h.2

/-- Two canonical memories that read alike at every address are equal. -/
theorem Memory.ext {m n : Memory} (hm : m.wf aw = true) (hn : n.wf aw = true)
    (h : ∀ a, m.read aw a = n.read aw a) : m = n := by
  refine Memory.ext_from hm hn fun k => ?_
  by_cases hk : k < 2 ^ aw
  · have := h k
    rwa [Memory.read, Memory.read, Nat.mod_eq_of_lt hk] at this
  · rw [Memory.lookup_of_ge hm (by omega), Memory.lookup_of_ge hn (by omega)]

end Sys2Proof.Machine
end

