-- ==== Sys2Proof/Laws/State.lean ====
section
/-! SUPPORT. What each update of the state leaves in each field: one lemma per field per update, so that
no later proof unfolds a record update. -/

namespace Sys2Proof.Machine

/-! ### A view put back -/

section putView
variable (s : State) (c : Nat) (v : View)

@[simp] theorem State.putView_params : (s.putView c v).params = s.params := rfl
@[simp] theorem State.putView_ports : (s.putView c v).ports = s.ports.set c v.port := rfl
@[simp] theorem State.putView_engine : (s.putView c v).engine = v.eng := rfl
@[simp] theorem State.putView_mem : (s.putView c v).mem = v.mem := rfl
@[simp] theorem State.putView_cur : (s.putView c v).cur = s.cur := rfl
@[simp] theorem State.putView_agenda : (s.putView c v).agenda = s.agenda := rfl
@[simp] theorem State.putView_rdata : (s.putView c v).rdata = s.rdata := rfl

/-- The view of a port that exists. -/
theorem State.view_of_port {s : State} {c : Nat} {p : Port} (h : s.ports[c]? = some p) :
    s.view c = some { port := p, eng := s.engine, mem := s.mem } := by
  simp [State.view, h]

/-- Where a view exists, so does its port, and the shared state and memory are the machine's. -/
theorem State.port_of_view {s : State} {c : Nat} {v : View} (h : s.view c = some v) :
    s.ports[c]? = some v.port ∧ v.eng = s.engine ∧ v.mem = s.mem := by
  simp only [State.view, Option.map_eq_some_iff] at h
  obtain ⟨p, hp, rfl⟩ := h
  exact ⟨hp, rfl, rfl⟩

/-- A port's own register file after its view is put back. -/
theorem State.putView_port_self {s : State} {c : Nat} {p : Port} (v : View)
    (h : s.ports[c]? = some p) : (s.putView c v).ports[c]? = some v.port := by
  obtain ⟨hlt, -⟩ := List.getElem?_eq_some_iff.1 h
  simp [hlt]

/-- Every other port is untouched by a view put back. -/
theorem State.putView_port_other {s : State} {c d : Nat} (v : View) (h : c ≠ d) :
    (s.putView c v).ports[d]? = s.ports[d]? := by
  simp [h]

/-- Two views put back at the same port: the last one stays. -/
@[simp] theorem State.putView_putView (w : View) :
    (s.putView c v).putView c w = s.putView c w := by
  simp [State.putView]

end putView

/-! ### A command started, ended, or moved on -/

section start
variable (p : Port) (w : Byte)

@[simp] theorem Port.start_cmd : (p.start w).cmd = w := rfl
@[simp] theorem Port.start_result : (p.start w).result = p.result := rfl
@[simp] theorem Port.start_live : (p.start w).live = p.live := rfl
@[simp] theorem Port.start_ek : (p.start w).ek = p.ek := rfl
@[simp] theorem Port.start_dk : (p.start w).dk = p.dk := rfl
@[simp] theorem Port.start_keyin : (p.start w).keyin = p.keyin := rfl
@[simp] theorem Port.start_keybits : (p.start w).keybits = p.keybits := rfl
@[simp] theorem Port.start_iv : (p.start w).iv = p.iv := rfl
@[simp] theorem Port.start_offset : (p.start w).offset = p.offset := rfl
@[simp] theorem Port.start_nc : (p.start w).nc = p.nc := rfl
@[simp] theorem Port.start_sb : (p.start w).sb = p.sb := rfl
@[simp] theorem Port.start_len : (p.start w).len = p.len := rfl
@[simp] theorem Port.start_src : (p.start w).src = p.src := rfl
@[simp] theorem Port.start_dst : (p.start w).dst = p.dst := rfl
@[simp] theorem Port.start_pos : (p.start w).pos = 0 := rfl
@[simp] theorem Port.start_ov : (p.start w).ov = p.ov := rfl
@[simp] theorem Port.start_temp : (p.start w).temp = p.temp := rfl
@[simp] theorem Port.start_seq : (p.start w).seq = .decoded (decodeCommand w) := rfl
@[simp] theorem Port.start_scratch : (p.start w).scratch = p.scratch := rfl

end start

section setResult
variable (p : Port) (k : Result)

@[simp] theorem Port.setResult_cmd : (p.setResult k).cmd = p.cmd := rfl
@[simp] theorem Port.setResult_result : (p.setResult k).result = k := rfl
@[simp] theorem Port.setResult_live : (p.setResult k).live = p.live := rfl
@[simp] theorem Port.setResult_ek : (p.setResult k).ek = p.ek := rfl
@[simp] theorem Port.setResult_dk : (p.setResult k).dk = p.dk := rfl
@[simp] theorem Port.setResult_keyin : (p.setResult k).keyin = p.keyin := rfl
@[simp] theorem Port.setResult_keybits : (p.setResult k).keybits = p.keybits := rfl
@[simp] theorem Port.setResult_iv : (p.setResult k).iv = p.iv := rfl
@[simp] theorem Port.setResult_offset : (p.setResult k).offset = p.offset := rfl
@[simp] theorem Port.setResult_nc : (p.setResult k).nc = p.nc := rfl
@[simp] theorem Port.setResult_sb : (p.setResult k).sb = p.sb := rfl
@[simp] theorem Port.setResult_len : (p.setResult k).len = p.len := rfl
@[simp] theorem Port.setResult_src : (p.setResult k).src = p.src := rfl
@[simp] theorem Port.setResult_dst : (p.setResult k).dst = p.dst := rfl
@[simp] theorem Port.setResult_pos : (p.setResult k).pos = p.pos := rfl
@[simp] theorem Port.setResult_ov : (p.setResult k).ov = p.ov := rfl
@[simp] theorem Port.setResult_temp : (p.setResult k).temp = p.temp := rfl
@[simp] theorem Port.setResult_seq : (p.setResult k).seq = .ending p.command := rfl
@[simp] theorem Port.setResult_scratch : (p.setResult k).scratch = p.scratch := rfl
@[simp] theorem Port.setResult_busy : (p.setResult k).busy = true := rfl
@[simp] theorem Port.setResult_command : (p.setResult k).command = p.command := rfl
@[simp] theorem Port.setResult_record (d : Dir) : (p.setResult k).record d = p.record d := by
  cases d <;> rfl

end setResult

section clearBusy
variable (p : Port)

@[simp] theorem Port.clearBusy_cmd : (p.clearBusy).cmd = p.cmd := rfl
@[simp] theorem Port.clearBusy_result : (p.clearBusy).result = p.result := rfl
@[simp] theorem Port.clearBusy_live : (p.clearBusy).live = p.live := rfl
@[simp] theorem Port.clearBusy_ek : (p.clearBusy).ek = p.ek := rfl
@[simp] theorem Port.clearBusy_dk : (p.clearBusy).dk = p.dk := rfl
@[simp] theorem Port.clearBusy_keyin : (p.clearBusy).keyin = p.keyin := rfl
@[simp] theorem Port.clearBusy_keybits : (p.clearBusy).keybits = p.keybits := rfl
@[simp] theorem Port.clearBusy_iv : (p.clearBusy).iv = p.iv := rfl
@[simp] theorem Port.clearBusy_offset : (p.clearBusy).offset = p.offset := rfl
@[simp] theorem Port.clearBusy_nc : (p.clearBusy).nc = p.nc := rfl
@[simp] theorem Port.clearBusy_sb : (p.clearBusy).sb = p.sb := rfl
@[simp] theorem Port.clearBusy_len : (p.clearBusy).len = p.len := rfl
@[simp] theorem Port.clearBusy_src : (p.clearBusy).src = p.src := rfl
@[simp] theorem Port.clearBusy_dst : (p.clearBusy).dst = p.dst := rfl
@[simp] theorem Port.clearBusy_pos : (p.clearBusy).pos = p.pos := rfl
@[simp] theorem Port.clearBusy_ov : (p.clearBusy).ov = p.ov := rfl
@[simp] theorem Port.clearBusy_temp : (p.clearBusy).temp = p.temp := rfl
@[simp] theorem Port.clearBusy_seq : (p.clearBusy).seq = .idle := rfl
@[simp] theorem Port.clearBusy_scratch : (p.clearBusy).scratch = Scratch.empty := rfl
@[simp] theorem Port.clearBusy_busy : p.clearBusy.busy = false := rfl
@[simp] theorem Port.clearBusy_record (d : Dir) : p.clearBusy.record d = p.record d := by cases d <;> rfl

end clearBusy

section finish
variable (p : Port) (k : Result)

@[simp] theorem Port.finish_cmd : (p.finish k).cmd = p.cmd := rfl
@[simp] theorem Port.finish_result : (p.finish k).result = k := rfl
@[simp] theorem Port.finish_live : (p.finish k).live = p.live := rfl
@[simp] theorem Port.finish_ek : (p.finish k).ek = p.ek := rfl
@[simp] theorem Port.finish_dk : (p.finish k).dk = p.dk := rfl
@[simp] theorem Port.finish_keyin : (p.finish k).keyin = p.keyin := rfl
@[simp] theorem Port.finish_keybits : (p.finish k).keybits = p.keybits := rfl
@[simp] theorem Port.finish_iv : (p.finish k).iv = p.iv := rfl
@[simp] theorem Port.finish_offset : (p.finish k).offset = p.offset := rfl
@[simp] theorem Port.finish_nc : (p.finish k).nc = p.nc := rfl
@[simp] theorem Port.finish_sb : (p.finish k).sb = p.sb := rfl
@[simp] theorem Port.finish_len : (p.finish k).len = p.len := rfl
@[simp] theorem Port.finish_src : (p.finish k).src = p.src := rfl
@[simp] theorem Port.finish_dst : (p.finish k).dst = p.dst := rfl
@[simp] theorem Port.finish_pos : (p.finish k).pos = p.pos := rfl
@[simp] theorem Port.finish_ov : (p.finish k).ov = p.ov := rfl
@[simp] theorem Port.finish_temp : (p.finish k).temp = p.temp := rfl
@[simp] theorem Port.finish_seq : (p.finish k).seq = .idle := rfl
@[simp] theorem Port.finish_scratch : (p.finish k).scratch = Scratch.empty := rfl
@[simp] theorem Port.finish_busy : (p.finish k).busy = false := rfl

/-- A command that has its result is ended by clearing `BUSY` (R245). -/
@[simp] theorem Port.setResult_settle : (p.setResult k).settle = p.finish k := rfl
@[simp] theorem Port.setResult_clearBusy : (p.setResult k).clearBusy = p.finish k := rfl
@[simp] theorem Port.finish_settle : (p.finish k).settle = p.finish k := rfl

end finish

section withSeq
variable (p : Port) (q r : Seq)

@[simp] theorem Port.withSeq_seq : (p.withSeq q).seq = q := rfl
@[simp] theorem Port.withSeq_live : (p.withSeq q).live = p.live := rfl
@[simp] theorem Port.withSeq_ek : (p.withSeq q).ek = p.ek := rfl
@[simp] theorem Port.withSeq_dk : (p.withSeq q).dk = p.dk := rfl
@[simp] theorem Port.withSeq_iv : (p.withSeq q).iv = p.iv := rfl
@[simp] theorem Port.withSeq_offset : (p.withSeq q).offset = p.offset := rfl
@[simp] theorem Port.withSeq_len : (p.withSeq q).len = p.len := rfl
@[simp] theorem Port.withSeq_src : (p.withSeq q).src = p.src := rfl
@[simp] theorem Port.withSeq_dst : (p.withSeq q).dst = p.dst := rfl
@[simp] theorem Port.withSeq_pos : (p.withSeq q).pos = p.pos := rfl
@[simp] theorem Port.withSeq_scratch : (p.withSeq q).scratch = p.scratch := rfl
@[simp] theorem Port.withSeq_record (d : Dir) : (p.withSeq q).record d = p.record d := by
  cases d <;> rfl
@[simp] theorem Port.withSeq_withSeq : (p.withSeq q).withSeq r = p.withSeq r := rfl
@[simp] theorem Port.withSeq_settle_run (i : Instr) (t : List MicroOp) :
    (p.withSeq (.run i t)).settle = p.withSeq (.run i t) := rfl
@[simp] theorem Port.withSeq_command_run (i : Instr) (t : List MicroOp) :
    (p.withSeq (.run i t)).command = some i := rfl
@[simp] theorem Port.withSeq_finish (k : Result) : (p.withSeq q).finish k = p.finish k := rfl

end withSeq

/-! ### The end of `INIT` and `FREE` (R123, R124) -/

section live
variable {p : Port} (b : Bool)

theorem Port.setLive_of_failed (h : p.scratch.failed = true) : p.setLive b = p := by
  simp [Port.setLive, h]

theorem Port.setLive_of_ok (h : p.scratch.failed = false) : p.setLive b = { p with live := b } := by
  simp [Port.setLive, h]

theorem Port.conclude_of_failed (h : p.scratch.failed = true) :
    p.conclude = p.setResult .engineUnavailable := by
  simp [Port.conclude, h]

theorem Port.conclude_of_ok (h : p.scratch.failed = false) : p.conclude = p.setResult .ok := by
  simp [Port.conclude, h]

end live

/-! ### Outcomes -/

@[simp] theorem mapNext_next {α β : Type} (f : α → β) (a : α) :
    mapNext f (.next a) = .next (f a) := rfl
@[simp] theorem mapNext_fault {α β : Type} (f : α → β) (r : Fault) :
    mapNext f (.fault r) = .fault r := rfl
@[simp] theorem mapNext_refused {α β : Type} (f : α → β) (r : Refusal) :
    mapNext f (.refused r) = .refused r := rfl

@[simp] theorem mapNext_mapNext {α β γ : Type} (f : α → β) (g : β → γ)
    (o : Host.Outcome α Fault Refusal) : mapNext g (mapNext f o) = mapNext (fun a => g (f a)) o := by
  cases o <;> rfl

/-- A changed outcome is a next state exactly where the outcome is one. -/
theorem mapNext_eq_next {α β : Type} {f : α → β} {o : Host.Outcome α Fault Refusal} {b : β}
    (h : mapNext f o = .next b) : ∃ a, o = .next a ∧ f a = b := by
  cases o with
  | next a => exact ⟨a, rfl, by simpa using h⟩
  | fault r => simp at h
  | refused r => simp at h

/-- Settling touches only a command that has its result: a port that is idle, validating or running is left as it
is. -/
theorem Port.settle_of_not_ending {p : Port} (h : ∀ i, p.seq ≠ .ending i) : p.settle = p := by
  unfold Port.settle; split <;> simp_all

/-- A port is busy unless its sequencer is idle (R33). -/
theorem Port.busy_eq_false_iff (p : Port) : p.busy = false ↔ p.seq = .idle := by
  unfold Port.busy; split <;> simp_all

end Sys2Proof.Machine
end

