-- ==== Sys2Proof/Laws/Ops.lean ====
section
/-! SUPPORT. What each shared operation does, said once: the atomic steps, the 16-byte reads and writes, the
block unit, the checks, and a call. Later proofs cite these lemmas and do not unfold the operations. -/

namespace Sys2Proof.Machine

section steps
variable (prim : BlockPrimitive) (ps : Params) (c : Nat) (i : Instr)

@[simp] theorem runOps_nil (v : View) : runOps prim ps c i [] v = .next v := rfl

/-- A step that can be taken is taken, and the rest runs from there. -/
theorem runOps_cons {op : MicroOp} {v w : View} (rest : List MicroOp)
    (he : op.enabled c v.eng = true) (hp : perform prim ps c op v = .next w) :
    runOps prim ps c i (op :: rest) v = runOps prim ps c i rest w := by
  simp [runOps, he, hp]

/-- A step that cannot be taken holds the sequencer where it is (R72). -/
theorem runOps_held {op : MicroOp} {v : View} (rest : List MicroOp)
    (he : op.enabled c v.eng = false) :
    runOps prim ps c i (op :: rest) v = .next { v with port := v.port.withSeq (.run i (op :: rest)) } := by
  simp [runOps, he]

/-- A register update always can be taken. -/
@[simp] theorem runOps_reg (r : RegOp) (rest : List MicroOp) (v : View) :
    runOps prim ps c i (.reg r :: rest) v
      = runOps prim ps c i rest { v with port := r.apply v.port } := rfl

@[simp] theorem runOps_memRead (j : Fin 16) (rest : List MicroOp) (v : View) :
    runOps prim ps c i (.memRead j :: rest) v
      = runOps prim ps c i rest { v with
          port := { v.port with
            scratch := { v.port.scratch with
              inp := v.port.scratch.inp.set j (v.mem.read ps.aw (v.port.srcAddr j)) } } } := rfl

@[simp] theorem runOps_memWrite (j : Fin 16) (rest : List MicroOp) (v : View) :
    runOps prim ps c i (.memWrite j :: rest) v
      = runOps prim ps c i rest { v with
          mem := v.mem.write ps.aw (v.port.dstAddr j) v.port.scratch.out[j] } := rfl

@[simp] theorem runOps_complete (rest : List MicroOp) (v : View) :
    runOps prim ps c i (.complete :: rest) v
      = runOps prim ps c i rest { v with port := v.port.setResult .ok } := rfl

/-- The 16 reads of a block unit of memory (R61, R64, R66): `in` holds the block at `SRC + POS`. -/
theorem runOps_readBlock (rest : List MicroOp) (v : View) :
    runOps prim ps c i (readBlockOps ++ rest) v
      = runOps prim ps c i rest { v with
          port := { v.port with
            scratch := { v.port.scratch with
              inp := v.mem.readBlock ps.aw (v.port.src + v.port.pos) } } } := by
  have h : ∀ b : Block, ((((((((((((((((b.set 0 (v.mem.read ps.aw (v.port.srcAddr 0))).set 1
      (v.mem.read ps.aw (v.port.srcAddr 1))).set 2 (v.mem.read ps.aw (v.port.srcAddr 2))).set 3
      (v.mem.read ps.aw (v.port.srcAddr 3))).set 4 (v.mem.read ps.aw (v.port.srcAddr 4))).set 5
      (v.mem.read ps.aw (v.port.srcAddr 5))).set 6 (v.mem.read ps.aw (v.port.srcAddr 6))).set 7
      (v.mem.read ps.aw (v.port.srcAddr 7))).set 8 (v.mem.read ps.aw (v.port.srcAddr 8))).set 9
      (v.mem.read ps.aw (v.port.srcAddr 9))).set 10 (v.mem.read ps.aw (v.port.srcAddr 10))).set 11
      (v.mem.read ps.aw (v.port.srcAddr 11))).set 12 (v.mem.read ps.aw (v.port.srcAddr 12))).set 13
      (v.mem.read ps.aw (v.port.srcAddr 13))).set 14 (v.mem.read ps.aw (v.port.srcAddr 14))).set 15
      (v.mem.read ps.aw (v.port.srcAddr 15))) = v.mem.readBlock ps.aw (v.port.src + v.port.pos) := by
    intro b
    apply Vector.ext
    intro j hj
    simp only [Memory.readBlock, Vector.getElem_ofFn, Port.srcAddr]
    interval_cases j <;> simp
  simp only [readBlockOps, blockIndices, List.map_cons, List.map_nil, List.cons_append,
    List.nil_append, runOps_memRead]
  have := h v.port.scratch.inp
  simp only [← this]
  rfl

/-- The 16 writes of a block (R62, R64, R66): the block `out` lies at `DST + POS`. -/
theorem runOps_writeBlock (rest : List MicroOp) (v : View) :
    runOps prim ps c i (writeBlockOps ++ rest) v
      = runOps prim ps c i rest { v with
          mem := v.mem.writeBlock ps.aw (v.port.dst + v.port.pos) v.port.scratch.out } := by
  have hl : v.port.scratch.out.toList = (List.finRange 16).map fun j => v.port.scratch.out[j] := by
    apply List.ext_getElem
    · simp
    · intro j h1 h2
      simp
  have hw : v.mem.writeBlock ps.aw (v.port.dst + v.port.pos) v.port.scratch.out
      = blockIndices.foldl (fun m j => m.write ps.aw (v.port.dstAddr j) v.port.scratch.out[j]) v.mem := by
    rw [Memory.writeBlock, hl, show List.finRange 16 = blockIndices by decide]
    simp [Memory.writeBytes, blockIndices, Port.dstAddr]
  rw [hw]
  simp only [writeBlockOps, blockIndices, List.map_cons, List.map_nil, List.cons_append,
    List.nil_append, runOps_memWrite, List.foldl_cons, List.foldl_nil]

/-- A block unit (R130): with the lock free and the record set, the block becomes its transform under the
port's own key, `ACTIVE` holds that key, and the lock is free again. -/
theorem runOps_blockUnit (d : Dir) {k : Key} (rest : List MicroOp) (v : View)
    (hl : v.eng.lock = .free) (hk : v.port.record d = .set k) :
    runOps prim ps c i (blockUnitOps d ++ rest) v
      = runOps prim ps c i rest { v with
          port := { v.port with
            scratch := { v.port.scratch with blk := prim.transform d k v.port.scratch.blk } }
          eng := { v.eng with lock := .free, active := some (d, k) } } := by
  simp [blockUnitOps, runOps, MicroOp.enabled, perform, hl, hk]

/-- A block unit while another port holds the lock: the sequencer is held on `take` (R72). -/
theorem runOps_blockUnit_held (d : Dir) (rest : List MicroOp) (v : View)
    (hl : v.eng.lock ≠ .free) :
    runOps prim ps c i (blockUnitOps d ++ rest) v
      = .next { v with port := v.port.withSeq (.run i (blockUnitOps d ++ rest)) } := by
  simp [blockUnitOps, runOps, MicroOp.enabled, hl]

end steps

end Sys2Proof.Machine
end

