-- ==== Sys2Proof/Laws/Units.lean ====
section
/-! SUPPORT. What one unit of each data command does, in one equation: from a view in which the lock is free
and the key record is set, the unit runs to the next loop head (spec/41_ecb.md R151, R152; spec/42_cbc.md
R162, R163; spec/43_cfb128.md R183, R184; spec/44_cfb8.md R204, R205; spec/45_ctr.md R224). -/

namespace Sys2Proof.Machine

section
variable (prim : BlockPrimitive) (ps : Params) (c : Nat) (i : Instr)

/-! ### The blocks of ECB and CBC -/

/-- `ECB.ENC` (R151). -/
theorem runOps_ecbEncProgram (q : Port) (k : Key) (v : View) (hl : v.eng.lock = .free)
    (hk : v.port.ek = .set k) :
    runOps prim ps c i (ecbEncProgram q) v =
      let p := v.port
      let x := v.mem.readBlock ps.aw (p.src + p.pos)
      let o := prim.encryptBlock k x
      .next
        { port := { p with
            pos := p.pos + 16
            scratch := { p.scratch with inp := x, blk := o, out := o } }.setResult .ok
          eng := { v.eng with lock := .free, active := some (.enc, k) }
          mem := v.mem.writeBlock ps.aw (p.dst + p.pos) o } := by
  obtain ⟨⟨cmd, result, live, ek, dk, keyin, keybits, iv, offset, nc, sb, len, src, dst, pos, ov, temp,
    seq, inp, blk, out, failed⟩, ⟨rc, lk, en, ac⟩, m⟩ := v
  dsimp only at hl hk
  subst hl hk
  simp only [ecbEncProgram, List.append_assoc]
  rw [runOps_readBlock]
  simp only [List.cons_append, List.nil_append, runOps_reg, RegOp.apply]
  rw [runOps_blockUnit prim ps c i .enc (k := k) _ _ rfl rfl]
  simp only [runOps_reg, RegOp.apply]
  rw [runOps_writeBlock]
  simp only [runOps_reg, runOps_complete, runOps_nil, RegOp.apply,
    BlockPrimitive.transform]

/-- `ECB.DEC` (R152). -/
theorem runOps_ecbDecProgram (q : Port) (k : Key) (v : View) (hl : v.eng.lock = .free)
    (hk : v.port.dk = .set k) :
    runOps prim ps c i (ecbDecProgram q) v =
      let p := v.port
      let x := v.mem.readBlock ps.aw (p.src + p.pos)
      let o := prim.decryptBlock k x
      .next
        { port := { p with
            pos := p.pos + 16
            scratch := { p.scratch with inp := x, blk := o, out := o } }.setResult .ok
          eng := { v.eng with lock := .free, active := some (.dec, k) }
          mem := v.mem.writeBlock ps.aw (p.dst + p.pos) o } := by
  obtain ⟨⟨cmd, result, live, ek, dk, keyin, keybits, iv, offset, nc, sb, len, src, dst, pos, ov, temp,
    seq, inp, blk, out, failed⟩, ⟨rc, lk, en, ac⟩, m⟩ := v
  dsimp only at hl hk
  subst hl hk
  simp only [ecbDecProgram, List.append_assoc]
  rw [runOps_readBlock]
  simp only [List.cons_append, List.nil_append, runOps_reg, RegOp.apply]
  rw [runOps_blockUnit prim ps c i .dec (k := k) _ _ rfl rfl]
  simp only [runOps_reg, RegOp.apply]
  rw [runOps_writeBlock]
  simp only [runOps_reg, runOps_complete, runOps_nil, RegOp.apply,
    BlockPrimitive.transform]

/-- One block of `CBC.ENC` (R162). -/
theorem runOps_cbcEncUnit (q : Port) (k : Key) (v : View) (hl : v.eng.lock = .free)
    (hk : v.port.ek = .set k) :
    runOps prim ps c i (cbcEncUnit q) v =
      let p := v.port
      let x := v.mem.readBlock ps.aw (p.src + p.pos)
      let o := prim.encryptBlock k (xor16 x p.iv)
      .next
        { port := { p with
            iv := o, pos := p.pos + 16
            scratch := { p.scratch with inp := x, blk := o, out := o } }
          eng := { v.eng with lock := .free, active := some (.enc, k) }
          mem := v.mem.writeBlock ps.aw (p.dst + p.pos) o } := by
  obtain ⟨⟨cmd, result, live, ek, dk, keyin, keybits, iv, offset, nc, sb, len, src, dst, pos, ov, temp,
    seq, inp, blk, out, failed⟩, ⟨rc, lk, en, ac⟩, m⟩ := v
  dsimp only at hl hk
  subst hl hk
  simp only [cbcEncUnit, List.append_assoc]
  rw [runOps_readBlock]
  simp only [List.cons_append, List.nil_append, runOps_reg, RegOp.apply]
  rw [runOps_blockUnit prim ps c i .enc (k := k) _ _ rfl rfl]
  simp only [runOps_reg, RegOp.apply]
  rw [runOps_writeBlock]
  simp only [runOps_reg, runOps_nil, RegOp.apply,
    BlockPrimitive.transform]

/-- One block of `CBC.DEC` (R163). -/
theorem runOps_cbcDecUnit (q : Port) (k : Key) (v : View) (hl : v.eng.lock = .free)
    (hk : v.port.dk = .set k) :
    runOps prim ps c i (cbcDecUnit q) v =
      let p := v.port
      let x := v.mem.readBlock ps.aw (p.src + p.pos)
      let y := prim.decryptBlock k x
      let o := xor16 y p.iv
      .next
        { port := { p with
            iv := x, temp := x, pos := p.pos + 16
            scratch := { p.scratch with inp := x, blk := y, out := o } }
          eng := { v.eng with lock := .free, active := some (.dec, k) }
          mem := v.mem.writeBlock ps.aw (p.dst + p.pos) o } := by
  obtain ⟨⟨cmd, result, live, ek, dk, keyin, keybits, iv, offset, nc, sb, len, src, dst, pos, ov, temp,
    seq, inp, blk, out, failed⟩, ⟨rc, lk, en, ac⟩, m⟩ := v
  dsimp only at hl hk
  subst hl hk
  simp only [cbcDecUnit, List.append_assoc]
  rw [runOps_readBlock]
  simp only [List.cons_append, List.nil_append, runOps_reg, RegOp.apply]
  rw [runOps_blockUnit prim ps c i .dec (k := k) _ _ rfl rfl]
  simp only [runOps_reg, RegOp.apply]
  rw [runOps_writeBlock]
  simp only [runOps_reg, runOps_nil, RegOp.apply,
    BlockPrimitive.transform]

/-! ### The bytes of CFB-128 -/

/-- The view after the refresh of CFB-128 (R182). -/
def afterCfb128Refresh (k : Key) (v : View) : View :=
  if v.port.offset = 0 then
    { port := { v.port with
        iv := prim.encryptBlock k v.port.iv
        scratch := { v.port.scratch with blk := prim.encryptBlock k v.port.iv } }
      eng := { v.eng with lock := .free, active := some (.enc, k) }
      mem := v.mem }
  else v

theorem runOps_cfb128Refresh (k : Key) (rest : List MicroOp) (v : View) (hl : v.eng.lock = .free)
    (hk : v.port.ek = .set k) :
    runOps prim ps c i (cfb128Refresh v.port ++ rest) v
      = runOps prim ps c i rest (afterCfb128Refresh prim k v) := by
  unfold cfb128Refresh afterCfb128Refresh
  split
  · simp only [List.append_assoc, List.cons_append, List.nil_append, runOps_reg]
    rw [runOps_blockUnit prim ps c i .enc (k := k)]
    · rfl
    · exact hl
    · exact hk
  · rfl

/-- One byte of `CFB128.ENC` (R183). -/
theorem runOps_cfb128EncUnit (k : Key) (v : View) (hl : v.eng.lock = .free)
    (hk : v.port.ek = .set k) :
    runOps prim ps c i (cfb128EncUnit v.port) v =
      let p := v.port
      let u := afterCfb128Refresh prim k v
      let x := v.mem.read ps.aw (p.src + p.pos)
      let y := byteAt u.port.iv p.offset ^^^ x
      .next
        { port := { p with
            iv := setByteAt u.port.iv p.offset y, offset := p.offset + 1, pos := p.pos + 1
            scratch := { u.port.scratch with
              inp := p.scratch.inp.set 0 x, out := p.scratch.out.set 0 y } }
          eng := u.eng
          mem := v.mem.write ps.aw (p.dst + p.pos) y } := by
  unfold cfb128EncUnit
  rw [runOps_cfb128Refresh prim ps c i k _ v hl hk]
  simp only [runOps_memRead, runOps_reg, runOps_memWrite, runOps_nil, RegOp.apply, Port.srcAddr,
    Port.dstAddr, afterCfb128Refresh]
  split <;> simp

/-- One byte of `CFB128.DEC` (R184). -/
theorem runOps_cfb128DecUnit (k : Key) (v : View) (hl : v.eng.lock = .free)
    (hk : v.port.ek = .set k) :
    runOps prim ps c i (cfb128DecUnit v.port) v =
      let p := v.port
      let u := afterCfb128Refresh prim k v
      let x := v.mem.read ps.aw (p.src + p.pos)
      let y := byteAt u.port.iv p.offset ^^^ x
      .next
        { port := { p with
            iv := setByteAt u.port.iv p.offset x, offset := p.offset + 1, pos := p.pos + 1
            scratch := { u.port.scratch with
              inp := p.scratch.inp.set 0 x, out := p.scratch.out.set 0 y } }
          eng := u.eng
          mem := v.mem.write ps.aw (p.dst + p.pos) y } := by
  unfold cfb128DecUnit
  rw [runOps_cfb128Refresh prim ps c i k _ v hl hk]
  simp only [runOps_memRead, runOps_reg, runOps_memWrite, runOps_nil, RegOp.apply, Port.srcAddr,
    Port.dstAddr, afterCfb128Refresh]
  split <;> simp

/-! ### The bytes of CFB-8 -/

/-- `OV` after its two updates (R203). -/
theorem ovSet (v : Block) (w : Vector Byte 17) (z : Byte) :
    (Vector.ofFn fun j : Fin 17 => if h : j.val < 16 then v[j.val] else w[16]).set 16 z
      = Vector.ofFn fun j : Fin 17 => if h : j.val < 16 then v[j.val] else z := by
  apply Vector.ext
  intro j hj
  rw [Vector.getElem_set]
  simp only [Vector.getElem_ofFn]
  split <;> split <;> first | rfl | omega

/-- `OV[1..16]` is the shifted register (R202, R203). -/
theorem ovShift (v : Block) (z : Byte) :
    (Vector.ofFn fun i : Fin 16 =>
      if h : i.val + 1 < 16 then v[i.val + 1] else z) = shiftIn v z := by
  apply Vector.ext
  intro j hj
  simp only [shiftIn, Vector.getElem_ofFn]
  split <;> split <;> first | rfl | omega

/-- One byte of `CFB8.ENC` (R204): the register is shifted by a byte, as R202 says. -/
theorem runOps_cfb8EncUnit (q : Port) (k : Key) (v : View) (hl : v.eng.lock = .free)
    (hk : v.port.ek = .set k) :
    runOps prim ps c i (cfb8EncUnit q) v =
      let p := v.port
      let s := prim.encryptBlock k p.iv
      let x := v.mem.read ps.aw (p.src + p.pos)
      let y := s[0] ^^^ x
      .next
        { port := { p with
            iv := shiftIn p.iv y, pos := p.pos + 1
            ov := Vector.ofFn fun j => if h : j.val < 16 then p.iv[j.val] else y
            scratch := { p.scratch with
              inp := p.scratch.inp.set 0 x, blk := s, out := p.scratch.out.set 0 y } }
          eng := { v.eng with lock := .free, active := some (.enc, k) }
          mem := v.mem.write ps.aw (p.dst + p.pos) y } := by
  obtain ⟨⟨cmd, result, live, ek, dk, keyin, keybits, iv, offset, nc, sb, len, src, dst, pos, ov, temp,
    seq, inp, blk, out, failed⟩, ⟨rc, lk, en, ac⟩, m⟩ := v
  dsimp only at hl hk
  subst hl hk
  unfold cfb8EncUnit cfb8Keystream
  simp only [List.append_assoc, List.cons_append, List.nil_append, runOps_reg, RegOp.apply]
  rw [runOps_blockUnit prim ps c i .enc (k := k) _ _ rfl rfl]
  simp only [runOps_memRead, runOps_reg, runOps_memWrite, runOps_nil, RegOp.apply, Port.srcAddr,
    Port.dstAddr, BlockPrimitive.transform]
  simp [ovShift, ovSet]

/-- One byte of `CFB8.DEC` (R205): the register is shifted by a byte, as R202 says. -/
theorem runOps_cfb8DecUnit (q : Port) (k : Key) (v : View) (hl : v.eng.lock = .free)
    (hk : v.port.ek = .set k) :
    runOps prim ps c i (cfb8DecUnit q) v =
      let p := v.port
      let s := prim.encryptBlock k p.iv
      let x := v.mem.read ps.aw (p.src + p.pos)
      let y := s[0] ^^^ x
      .next
        { port := { p with
            iv := shiftIn p.iv x, pos := p.pos + 1
            ov := Vector.ofFn fun j => if h : j.val < 16 then p.iv[j.val] else x
            scratch := { p.scratch with
              inp := p.scratch.inp.set 0 x, blk := s, out := p.scratch.out.set 0 y } }
          eng := { v.eng with lock := .free, active := some (.enc, k) }
          mem := v.mem.write ps.aw (p.dst + p.pos) y } := by
  obtain ⟨⟨cmd, result, live, ek, dk, keyin, keybits, iv, offset, nc, sb, len, src, dst, pos, ov, temp,
    seq, inp, blk, out, failed⟩, ⟨rc, lk, en, ac⟩, m⟩ := v
  dsimp only at hl hk
  subst hl hk
  unfold cfb8DecUnit cfb8Keystream
  simp only [List.append_assoc, List.cons_append, List.nil_append, runOps_reg, RegOp.apply]
  rw [runOps_blockUnit prim ps c i .enc (k := k) _ _ rfl rfl]
  simp only [runOps_memRead, runOps_reg, runOps_memWrite, runOps_nil, RegOp.apply, Port.srcAddr,
    Port.dstAddr, BlockPrimitive.transform]
  simp [ovShift, ovSet]

/-! ### The bytes of CTR -/

/-- The view after the refresh of CTR (R222). -/
def afterCtrRefresh (k : Key) (v : View) : View :=
  if v.port.offset = 0 then
    { port := { v.port with
        sb := prim.encryptBlock k v.port.nc
        nc := inc128 v.port.nc
        scratch := { v.port.scratch with blk := prim.encryptBlock k v.port.nc } }
      eng := { v.eng with lock := .free, active := some (.enc, k) }
      mem := v.mem }
  else v

theorem runOps_ctrRefresh (k : Key) (rest : List MicroOp) (v : View) (hl : v.eng.lock = .free)
    (hk : v.port.ek = .set k) :
    runOps prim ps c i (ctrRefresh v.port ++ rest) v
      = runOps prim ps c i rest (afterCtrRefresh prim k v) := by
  unfold ctrRefresh afterCtrRefresh
  split
  · simp only [List.append_assoc, List.cons_append, List.nil_append, runOps_reg]
    rw [runOps_blockUnit prim ps c i .enc (k := k)]
    · rfl
    · exact hl
    · exact hk
  · rfl

/-- One byte of `CTR` (R224). -/
theorem runOps_ctrUnit (k : Key) (v : View) (hl : v.eng.lock = .free)
    (hk : v.port.ek = .set k) :
    runOps prim ps c i (ctrUnit v.port) v =
      let p := v.port
      let u := afterCtrRefresh prim k v
      let x := v.mem.read ps.aw (p.src + p.pos)
      let y := x ^^^ byteAt u.port.sb p.offset
      .next
        { port := { p with
            nc := u.port.nc, sb := u.port.sb, offset := p.offset + 1, pos := p.pos + 1
            scratch := { u.port.scratch with
              inp := p.scratch.inp.set 0 x, out := p.scratch.out.set 0 y } }
          eng := u.eng
          mem := v.mem.write ps.aw (p.dst + p.pos) y } := by
  unfold ctrUnit
  rw [runOps_ctrRefresh prim ps c i k _ v hl hk]
  simp only [runOps_memRead, runOps_reg, runOps_memWrite, runOps_nil, RegOp.apply, Port.srcAddr,
    Port.dstAddr, afterCtrRefresh]
  split <;> simp

end

end Sys2Proof.Machine
end

