-- ==== Sys2Proof/Laws/Call.lean ====
section
/-! SUPPORT. What a call does, said once: on a busy port nothing, where a check fails the result, and otherwise the
command's units from the loop head. -/

namespace Sys2Proof.Machine

/-- Every arm of `exec` is a call with the command's own checks and program, which the sequencer uses too. -/
theorem exec_eq_issue (i : Instr) (s : State) :
    exec i s = issue Config.primitive i (Instr.check i) (Instr.program i) s := by
  cases i <;> rfl

section
variable (prim : BlockPrimitive) (i : Instr) (check : Port → Option Result)
  (program : Port → List MicroOp) {s : State} {p : Port}

/-- A call on a busy port is ignored (R36). -/
theorem issue_busy (hp : s.ports[s.cur]? = some p) (hb : p.busy = true) :
    issue prim i check program s = .next s := by
  simp [issue, State.view_of_port hp, hb]

/-- A call on a port that is not busy runs the command from its `CMD` write (R91). -/
theorem issue_idle (hp : s.ports[s.cur]? = some p) (hb : p.busy = false) :
    issue prim i check program s
      = mapNext (s.putView s.cur)
          (runCommand prim s.params s.cur i check program
            { port := p.start (encode i), eng := s.engine, mem := s.mem }) := by
  simp [issue, State.view_of_port hp, hb]

/-- A call whose validation fails ends with the result of the first check that fails, and nothing else is changed
(R245, R246, R249). -/
theorem issue_refused (hp : s.ports[s.cur]? = some p) (hb : p.busy = false) {k : Result}
    (hk : check (p.start (encode i)) = some k) :
    issue prim i check program s
      = .next (s.putView s.cur
          { port := (p.start (encode i)).finish k, eng := s.engine, mem := s.mem }) := by
  simp only [issue_idle prim i check program hp hb, runCommand, hk, mapNext_next]

/-- A validated call runs the command's units from the loop head, and ends it if it has its result. -/
theorem issue_validated (hp : s.ports[s.cur]? = some p) (hb : p.busy = false)
    (hk : check (p.start (encode i)) = none) :
    issue prim i check program s
      = mapNext (fun w => s.putView s.cur { w with port := w.port.settle })
          (runUnits prim s.params s.cur i program (p.len + 2)
            { port := (p.start (encode i)).withSeq (.run i []), eng := s.engine, mem := s.mem }) := by
  simp only [issue_idle prim i check program hp hb, runCommand, hk, Port.start_len, mapNext_mapNext]

end

section
variable (prim : BlockPrimitive) (ps : Params) (c : Nat) (i : Instr)
  (program : Port → List MicroOp)

/-- At a loop head the program is read and its steps run. -/
theorem runUnits_head (n : Nat) {v w : View} (hs : v.port.seq = .run i [])
    (hr : runOps prim ps c i (program v.port) v = .next w) :
    runUnits prim ps c i program (n + 1) v = runUnits prim ps c i program n w := by
  simp [runUnits, hs, hr]

/-- A command that has its result, or is held inside a unit, runs no further. -/
theorem runUnits_stop (n : Nat) {v : View} (hs : v.port.seq ≠ .run i []) :
    runUnits prim ps c i program n v = .next v := by
  cases n with
  | zero => rfl
  | succ n => simp [runUnits, hs]

/-- The loop of a command that processes `LEN` bytes in units of `n` (R38). `P j` says what holds at the loop head
after `j` units: `POS` is `n * j`, and where `POS < LEN` one more unit leads to `P (j + 1)`. From `P j`, with `m`
units left, the command gets its result `Ok` from a view that satisfies `P (j + m)`. -/
theorem runUnits_loop (unit : Port → List MicroOp) {n : Nat} (hn : 0 < n) {len : Nat}
    {P : Nat → View → Prop}
    (hP : ∀ j v, P j v →
      v.port.seq = .run i [] ∧ v.port.len = len ∧ v.port.pos = n * j)
    (hs : ∀ j v, P j v → n * j < len →
      ∃ w, runOps prim ps c i (unit v.port) v = .next w ∧ P (j + 1) w) :
    ∀ m j v f, P j v → n * (j + m) = len → m < f →
      ∃ w, P (j + m) w
        ∧ runUnits prim ps c i (loopProgram unit) f v
          = .next { w with port := w.port.setResult .ok } := by
  intro m
  induction m with
  | zero =>
    intro j v f hv he hf
    obtain ⟨h1, h2, h3⟩ := hP j v hv
    obtain ⟨f, rfl⟩ : ∃ g, f = g + 1 := ⟨f - 1, by omega⟩
    refine ⟨v, hv, ?_⟩
    have hlt : ¬ v.port.pos < v.port.len := by
      rw [h2, h3]
      simp only [Nat.add_zero] at he
      omega
    rw [runUnits_head (hs := h1) (w := { v with port := v.port.setResult .ok }), runUnits_stop]
    · simp
    · simp [loopProgram, hlt]
  | succ m ih =>
    intro j v f hv he hf
    obtain ⟨h1, h2, h3⟩ := hP j v hv
    obtain ⟨f, rfl⟩ : ∃ g, f = g + 1 := ⟨f - 1, by omega⟩
    have hj : n * j < len := by
      rw [← he]
      exact Nat.mul_lt_mul_of_pos_left (by omega) hn
    have hlt : v.port.pos < v.port.len := by rw [h2, h3]; exact hj
    obtain ⟨w, hw, hPw⟩ := hs j v hv hj
    rw [runUnits_head (hs := h1) (w := w) (hr := by simpa [loopProgram, hlt] using hw)]
    have := ih (j + 1) w f hPw (by rw [← he]; congr 1; omega) (by omega)
    rwa [show j + 1 + m = j + (m + 1) by omega] at this

end

/-! ### The checks, by what they say of the port -/

theorem firstFailure_cons_none {k : Option Result} (h : k = none) (r : List (Option Result)) :
    firstFailure (k :: r) = firstFailure r := by
  subst h; rfl

theorem firstFailure_cons_some {k : Option Result} {a : Result} (h : k = some a)
    (r : List (Option Result)) : firstFailure (k :: r) = some a := by
  subst h; rfl

@[simp] theorem firstFailure_nil : firstFailure [] = none := rfl

/-- A key record that is set passes the key check (R243). -/
theorem checkKey_of_set {p : Port} {d : Dir} {k : Key} (h : p.record d = .set k) :
    checkKey p d = none := by
  simp [checkKey, h, KeyRecord.present]

end Sys2Proof.Machine
end

