-- ==== Sys2Proof/Laws/HostBus.lean ====
section
/-! SUPPORT. What a step does whose event is a host's access in register space, said once: where the address lies in a
window (spec/10_state.md rules R35, R36). -/

namespace Sys2Proof.Machine

variable {s : State} {a c off : Nat} {p : Port} {rest : List Event}

/-- A host's byte write changes the window's port and nothing else. -/
theorem step_write {b : Byte} (hd : decodeRegAddr s.params s.ports.length a = some (c, off))
    (hp : s.ports[c]? = some p) :
    step { s with agenda := .write a b :: rest }
      = .next { s with agenda := rest, ports := s.ports.set c (p.writeReg s.params off b) } := by
  simp [step, happen, busWrite, hd, hp]

/-- A host's byte read changes nothing but the byte the host holds. -/
theorem step_read (hd : decodeRegAddr s.params s.ports.length a = some (c, off))
    (hp : s.ports[c]? = some p) :
    step { s with agenda := .read a :: rest } = .next { s with agenda := rest, rdata := p.readReg off } := by
  simp [step, happen, busRead, hd, hp]

/-- A patched scalar is a number of its width (R30, R31). -/
theorem setByteLE_lt (w v k : Nat) (b : Byte) : setByteLE w v k b < 2 ^ w :=
  Nat.mod_lt _ (Nat.two_pow_pos w)

/-- A write to a busy port is ignored (R36). -/
theorem Port.writeReg_busy (ps : Params) (b : Byte) (h : p.busy = true) : p.writeReg ps off b = p := by
  simp [Port.writeReg, h]

/-- A write to a port that is not busy reaches its register. -/
theorem Port.writeReg_idle (ps : Params) (b : Byte) (h : p.busy = false) :
    p.writeReg ps off b = p.writeRegIdle ps off b := by
  simp [Port.writeReg, h]

end Sys2Proof.Machine
end

