-- ==== Sys2Proof/Laws/PerInstr.lean ====
section
/-! SUPPORT. Facts about every command as syntax, one lemma per constructor. -/

namespace Sys2Proof.Laws

/-- The byte of a command: its fields are the command's (spec/30_encoding.md rules R92, R93, R94), it passes the
checks of WellFormed.lean, it decodes to the command, and the host numbers it as the decoder reads it. -/
def Encoding.Statement (i : Instr) : Prop :=
  zeroField (encode i) = 0 ∧ opField (encode i) = i.op ∧ dirField (encode i) = i.dirBit
    ∧ CommandByte.wf (encode i) = true ∧ decodeByte (encode i) = .ok i
    ∧ decodeTableWord 8 (encode i).toNat = some i

/-- `INIT`, byte 0x01. -/
theorem Encoding.init : Encoding.Statement .init := by unfold Encoding.Statement; decide

/-- `FREE`, byte 0x02. -/
theorem Encoding.free : Encoding.Statement .free := by unfold Encoding.Statement; decide

/-- `SETKEY.DEC`, byte 0x03. -/
theorem Encoding.setkeyDec : Encoding.Statement .setkeyDec := by unfold Encoding.Statement; decide

/-- `SETKEY.ENC`, byte 0x13. -/
theorem Encoding.setkeyEnc : Encoding.Statement .setkeyEnc := by unfold Encoding.Statement; decide

/-- `ECB.DEC`, byte 0x04. -/
theorem Encoding.ecbDec : Encoding.Statement .ecbDec := by unfold Encoding.Statement; decide

/-- `ECB.ENC`, byte 0x14. -/
theorem Encoding.ecbEnc : Encoding.Statement .ecbEnc := by unfold Encoding.Statement; decide

/-- `CBC.DEC`, byte 0x05. -/
theorem Encoding.cbcDec : Encoding.Statement .cbcDec := by unfold Encoding.Statement; decide

/-- `CBC.ENC`, byte 0x15. -/
theorem Encoding.cbcEnc : Encoding.Statement .cbcEnc := by unfold Encoding.Statement; decide

/-- `CFB128.DEC`, byte 0x06. -/
theorem Encoding.cfb128Dec : Encoding.Statement .cfb128Dec := by unfold Encoding.Statement; decide

/-- `CFB128.ENC`, byte 0x16. -/
theorem Encoding.cfb128Enc : Encoding.Statement .cfb128Enc := by unfold Encoding.Statement; decide

/-- `CFB8.DEC`, byte 0x07. -/
theorem Encoding.cfb8Dec : Encoding.Statement .cfb8Dec := by unfold Encoding.Statement; decide

/-- `CFB8.ENC`, byte 0x17. -/
theorem Encoding.cfb8Enc : Encoding.Statement .cfb8Enc := by unfold Encoding.Statement; decide

/-- `CTR`, byte 0x08. -/
theorem Encoding.ctr : Encoding.Statement .ctr := by unfold Encoding.Statement; decide

end Sys2Proof.Laws
end

