-- ==== Sys2Proof/Laws/Programs.lean ====
section
/-! SUPPORT. What every step of every command's program satisfies, said once: which command a step belongs to and
what follows it (spec/40_lifecycle_and_keys.md rules R123, R124, R129, R130). A proof about any step of a running
command takes its facts from here and does not go through the 13 programs again. -/

namespace Sys2Proof.Machine

/-- What a step of command `i`, with `rest` after it, satisfies. -/
def headOk (i : Instr) (op : MicroOp) (rest : List MicroOp) : Bool :=
  match op with
  | .install d => decide (Instr.keyDir i = some d) && decide (i ≠ .init ∧ i ≠ .free)
  | .transform d => decide (Instr.keyDir i = some d) && decide (i ≠ .init ∧ i ≠ .free)
  | .acquire => decide (i = .init) && decide (rest = [.give, .setLive true, .conclude])
  | .release => decide (i = .free) && decide (rest = [.give, .setLive false, .conclude])
  | .setLive b =>
    (decide (i = .init ∧ b = true) || decide (i = .free ∧ b = false)) && decide (rest = [.conclude])
  | .conclude => decide (i = .init ∨ i = .free) && decide (rest = [])
  | .complete => decide (i ≠ .init ∧ i ≠ .free) && decide (rest = [])
  | .take =>
    decide (i ≠ .init ∧ i ≠ .free)
      || decide (rest = [.acquire, .give, .setLive true, .conclude] ∧ i = .init)
      || decide (rest = [.release, .give, .setLive false, .conclude] ∧ i = .free)
  | .give =>
    decide (i ≠ .init ∧ i ≠ .free)
      || decide (rest = [.setLive true, .conclude] ∧ i = .init)
      || decide (rest = [.setLive false, .conclude] ∧ i = .free)
  | .reg .clearEk =>
    decide (i = .init ∧ .acquire ∈ rest) || decide (i = .free ∧ .release ∈ rest)
  | .reg .clearDk =>
    decide (i = .init ∧ .acquire ∈ rest) || decide (i = .free ∧ .release ∈ rest)
  | .reg .clearKeyin => decide (i = .free ∧ .release ∈ rest)
  | .reg .recordEk => decide (i = .setkeyEnc)
  | .reg .recordDk => decide (i = .setkeyDec)
  | .reg _ => (Instr.keyDir i).isSome
  | .memRead _ => (Instr.keyDir i).isSome
  | .memWrite _ => (Instr.keyDir i).isSome

/-- Every step of a list of steps satisfies `headOk`. -/
def listOk (i : Instr) : List MicroOp → Bool
  | [] => true
  | op :: r => headOk i op r && listOk i r

theorem headOk_of_suffix {i : Instr} {l r : List MicroOp} {op : MicroOp} (h : listOk i l = true)
    (hs : op :: r <:+ l) : headOk i op r = true := by
  induction l with
  | nil => simp at hs
  | cons a l ih =>
    simp only [listOk, Bool.and_eq_true] at h
    rcases List.suffix_cons_iff.1 hs with h1 | h1
    · cases h1; exact h.1
    · exact ih h.2 h1

/-- The program of every command, read at any loop head: its steps satisfy `headOk`, it takes the lock before it
uses the engine and gives it back, and it is not empty. -/
theorem Instr.program_ok (i : Instr) (q : Port) :
    listOk i (Instr.program i q) = true ∧ spanOk .out (Instr.program i q) = true
      ∧ (Instr.program i q).isEmpty = false := by
  cases i <;> simp only [Instr.program]
  · exact ⟨rfl, rfl, rfl⟩
  · exact ⟨rfl, rfl, rfl⟩
  · exact ⟨rfl, rfl, rfl⟩
  · exact ⟨rfl, rfl, rfl⟩
  · exact ⟨rfl, rfl, rfl⟩
  · exact ⟨rfl, rfl, rfl⟩
  · unfold cbcDecProgram loopProgram; split <;> exact ⟨rfl, rfl, rfl⟩
  · unfold cbcEncProgram loopProgram; split <;> exact ⟨rfl, rfl, rfl⟩
  · unfold cfb128DecProgram loopProgram cfb128DecUnit cfb128Refresh
    split <;> [split; skip] <;> exact ⟨rfl, rfl, rfl⟩
  · unfold cfb128EncProgram loopProgram cfb128EncUnit cfb128Refresh
    split <;> [split; skip] <;> exact ⟨rfl, rfl, rfl⟩
  · unfold cfb8DecProgram loopProgram; split <;> exact ⟨rfl, rfl, rfl⟩
  · unfold cfb8EncProgram loopProgram; split <;> exact ⟨rfl, rfl, rfl⟩
  · unfold ctrProgram loopProgram ctrUnit ctrRefresh
    split <;> [split; skip] <;> exact ⟨rfl, rfl, rfl⟩

/-- The next step of a running command satisfies `headOk`. -/
theorem headOk_of_runOk {p : Port} {i : Instr} {op : MicroOp} {rest : List MicroOp}
    (h : p.runOk i (op :: rest)) : headOk i op rest = true := by
  obtain ⟨⟨q, hq⟩, -⟩ := h
  exact headOk_of_suffix (Instr.program_ok i q).1 hq

end Sys2Proof.Machine
end

