-- ==== Sys2Proof/Tests/Slice0.lean ====
section
/-! SUPPORT. Tests: the checks of WellFormed.lean on ill-formed terms, the decoding of bytes written out bit by bit
from spec/30_encoding.md rule R93, vectors of spec/95_test_vectors.md run with the spec's toy primitive, and for
every obligation that has hypotheses a concrete case that meets them. -/

namespace Sys2Proof.Tests

open Sys2Proof Sys2Proof.Machine

/-! ### WellFormed -/

/-- Bits 7:5 are not 000. -/
theorem test_wf_zero_field : CommandByte.zeroOk 0x21 = false ∧ CommandByte.wf 0x21 = false := by decide

/-- `OP` 0 and `OP` 9. -/
theorem test_wf_op_field :
    CommandByte.opOk 0x00 = false ∧ CommandByte.opOk 0x09 = false ∧ CommandByte.wf 0x00 = false
      ∧ CommandByte.wf 0x09 = false := by decide

/-- `INIT`, `FREE` and `CTR` with `DIR` 1. -/
theorem test_wf_dir_field :
    CommandByte.dirOk 0x11 = false ∧ CommandByte.dirOk 0x12 = false ∧ CommandByte.dirOk 0x18 = false
      ∧ CommandByte.wf 0x18 = false := by decide

/-- The 13 bytes of the table and no other. -/
theorem test_wf_table :
    (List.range 256).filter (fun n => CommandByte.wf (BitVec.ofNat 8 n))
      = [0x01, 0x02, 0x03, 0x04, 0x05, 0x06, 0x07, 0x08, 0x13, 0x14, 0x15, 0x16, 0x17] := by decide

/-- `PORT_STRIDE` 0x7f is too small, 0x80 is not (R7). -/
theorem test_wf_params :
    ({ Params.default with portStride := 0x7f } : Params).wf = false ∧ Params.default.wf = true := by
  decide

/-! ### Decoding: `ZERO`, `DIR`, `OP` written out from R92 and R93 -/

theorem test_decode_init : decodeByte (BitVec.ofNat 8 0b000_0_0001) = .ok .init := by decide
theorem test_decode_free : decodeByte (BitVec.ofNat 8 0b000_0_0010) = .ok .free := by decide
theorem test_decode_setkeyDec : decodeByte (BitVec.ofNat 8 0b000_0_0011) = .ok .setkeyDec := by decide
theorem test_decode_setkeyEnc : decodeByte (BitVec.ofNat 8 0b000_1_0011) = .ok .setkeyEnc := by decide
theorem test_decode_ecbDec : decodeByte (BitVec.ofNat 8 0b000_0_0100) = .ok .ecbDec := by decide
theorem test_decode_ecbEnc : decodeByte (BitVec.ofNat 8 0b000_1_0100) = .ok .ecbEnc := by decide
theorem test_decode_cbcDec : decodeByte (BitVec.ofNat 8 0b000_0_0101) = .ok .cbcDec := by decide
theorem test_decode_cbcEnc : decodeByte (BitVec.ofNat 8 0b000_1_0101) = .ok .cbcEnc := by decide
theorem test_decode_cfb128Dec : decodeByte (BitVec.ofNat 8 0b000_0_0110) = .ok .cfb128Dec := by decide
theorem test_decode_cfb128Enc : decodeByte (BitVec.ofNat 8 0b000_1_0110) = .ok .cfb128Enc := by decide
theorem test_decode_cfb8Dec : decodeByte (BitVec.ofNat 8 0b000_0_0111) = .ok .cfb8Dec := by decide
theorem test_decode_cfb8Enc : decodeByte (BitVec.ofNat 8 0b000_1_0111) = .ok .cfb8Enc := by decide
theorem test_decode_ctr : decodeByte (BitVec.ofNat 8 0b000_0_1000) = .ok .ctr := by decide

/-- Reserved bytes of V-ERR-2, each rejected by its field. -/
theorem test_decode_reserved :
    decodeByte 0x00 = .error .opField ∧ decodeByte 0x09 = .error .opField
      ∧ decodeByte 0x10 = .error .opField ∧ decodeByte 0x11 = .error .dirField
      ∧ decodeByte 0x12 = .error .dirField ∧ decodeByte 0x18 = .error .dirField
      ∧ decodeByte 0x21 = .error .zeroField ∧ decodeByte 0x35 = .error .zeroField
      ∧ decodeByte 0xff = .error .zeroField := by decide

/-- A word wider than a byte is no command. -/
theorem test_decode_wide : decodeTableWord 16 0x0101 = none ∧ decodeTableWord 8 0x01 = some .init := by
  decide

/-- The byte placed by `withFetchWord` runs first after reset, for every command. -/
theorem test_placed_word_runs :
    ∀ i : Instr,
      (match step (State.reset.withFetchWord 8 (encode i).toNat) with
        | .next _ => true
        | .fault _ => false
        | .refused _ => false) = true := by
  intro i; cases i <;> decide

/-! ### The toy primitive of spec/95_test_vectors.md section 1 -/

/-- The addend `a[i]` of a key. -/
def toyAdd (k : Key) (i : Nat) : Byte :=
  let bs := k.bytes
  bs.getD i 0 + bs.getD (bs.length - 1 - i) 0 + BitVec.ofNat 8 i

/-- `toyE` -/
def toyE (k : Key) (b : Block) : Block :=
  Vector.ofFn fun i => b.getD ((i.val + 15) % 16) 0 + toyAdd k i

/-- `toyD` -/
def toyD (k : Key) (b : Block) : Block :=
  Vector.ofFn fun j => b.getD ((j.val + 1) % 16) 0 - toyAdd k ((j.val + 1) % 16)

theorem toy_law : ∀ k b, toyD k (toyE k b) = b := by
  intro k b
  apply Vector.ext
  intro j hj
  simp only [toyD, toyE, Vector.getElem_ofFn]
  have h : (j + 1) % 16 < 16 := Nat.mod_lt _ (by decide)
  have h2 : ((j + 1) % 16 + 15) % 16 = j := by omega
  simp [Vector.getD, h, h2, hj]

/-- The toy primitive. -/
def toy : BlockPrimitive := ⟨toyE, toyD, toy_law⟩

/-- The key `K`. -/
def key : Key := .k128 #v[0x00, 0x01, 0x02, 0x03, 0x04, 0x05, 0x06, 0x07, 0x08, 0x09, 0x0a, 0x0b, 0x0c, 0x0d, 0x0e, 0x0f]

/-- The block `B`. -/
def blockB : Block := #v[0x00, 0x11, 0x22, 0x33, 0x44, 0x55, 0x66, 0x77, 0x88, 0x99, 0xaa, 0xbb, 0xcc, 0xdd, 0xee, 0xff]

/-- The `IV` of sections 4 to 6. -/
def ivF : Block := #v[0xf0, 0xe0, 0xd0, 0xc0, 0xb0, 0xa0, 0x90, 0x80, 0x70, 0x60, 0x50, 0x40, 0x30, 0x20, 0x10, 0x00]

/-- A live port with both records set to `K`, `SRC = 0x1000`, `DST = 0x2000`. -/
def livePort : Port :=
  { Port.reset with live := true, ek := .set key, dk := .set key, iv := ivF, src := 0x1000, dst := 0x2000 }

/-- Two ports, the first as given, with bytes at 0x1000. -/
def machine (p : Port) (xs : List Byte) : State :=
  { State.reset with
    ports := [p, Port.reset]
    engine := { Engine.reset with refcount := 1, enabled := true }
    mem := Memory.writeBytes [] 32 0x1000 xs }

/-- Whether an outcome is a next state with a property. -/
def nextHas (f : State → Bool) : Host.Outcome State Fault Refusal → Bool
  | .next s => f s
  | .fault _ => false
  | .refused _ => false

theorem nextHas_exists {f : State → Bool} {o : Host.Outcome State Fault Refusal} (h : nextHas f o = true) :
    ∃ t, o = .next t := by
  cases o with
  | next t => exact ⟨t, rfl⟩
  | fault r => cases h
  | refused r => cases h

/-- A property of port 0. -/
def onPort (f : Port → Bool) (s : State) : Bool :=
  match s.ports with
  | [] => false
  | p :: _ => f p

/-- A call with the toy primitive, with the command's own checks and program. -/
def toyCall (i : Instr) (s : State) : Host.Outcome State Fault Refusal :=
  issue toy i (Instr.check i) (Instr.program i) s

/-- The 32 bytes `P` of section 5. -/
def bytesP : List Byte :=
  [0x00, 0x11, 0x22, 0x33, 0x44, 0x55, 0x66, 0x77, 0x88, 0x99, 0xaa, 0xbb, 0xcc, 0xdd, 0xee, 0xff]
    ++ [0x01, 0x02, 0x03, 0x04, 0x05, 0x06, 0x07, 0x08, 0x09, 0x0a, 0x0b, 0x0c, 0x0d, 0x0e, 0x0f, 0x10]

/-- The output of V-CBC-1. -/
def bytesC : List Byte :=
  [0x0e, 0x00, 0x02, 0x04, 0x06, 0x08, 0x0a, 0x0c, 0x0e, 0x10, 0x12, 0x14, 0x16, 0x18, 0x1a, 0x1c]
    ++ [0x1b, 0x1f, 0x13, 0x13, 0x13, 0x17, 0x23, 0x23, 0x1b, 0x1f, 0x33, 0x33, 0x33, 0x37, 0x33, 0x33]

/-- The 20 bytes `D20` of section 6. -/
def bytesD : List Byte :=
  [0x00, 0x01, 0x02, 0x03, 0x04, 0x05, 0x06, 0x07, 0x08, 0x09, 0x0a, 0x0b, 0x0c, 0x0d, 0x0e, 0x0f, 0x10, 0x11, 0x12, 0x13]

/-! ### Vectors of spec/95_test_vectors.md -/

/-- The reference values of section 1. -/
theorem test_toy :
    toyE key blockB = #v[0x0e, 0x10, 0x22, 0x34, 0x46, 0x58, 0x6a, 0x7c, 0x8e, 0xa0, 0xb2, 0xc4, 0xd6, 0xe8, 0xfa, 0x0c]
      ∧ toyD key blockB = #v[0x01, 0x11, 0x21, 0x31, 0x41, 0x51, 0x61, 0x71, 0x81, 0x91, 0xa1, 0xb1, 0xc1, 0xd1, 0xe1, 0xf1] := by decide

/-- V-ECB-1, V-ECB-6: `LEN` is ignored. -/
theorem test_ecbEnc :
    nextHas
      (fun t => t.mem.readBytes 32 0x2000 16 = [0x0e, 0x10, 0x22, 0x34, 0x46, 0x58, 0x6a, 0x7c, 0x8e, 0xa0, 0xb2, 0xc4, 0xd6, 0xe8, 0xfa, 0x0c]
        && t.engine.active = some (.enc, key) && t.engine.lock = .free
        && onPort (fun p => p.result = .ok && !p.busy && p.iv = ivF && p.len = 7) t)
      (toyCall .ecbEnc (machine { livePort with len := 7 } blockB.toList)) = true := by decide

/-- V-ECB-2 -/
theorem test_ecbDec :
    nextHas
      (fun t => t.mem.readBytes 32 0x2000 16 = [0x01, 0x11, 0x21, 0x31, 0x41, 0x51, 0x61, 0x71, 0x81, 0x91, 0xa1, 0xb1, 0xc1, 0xd1, 0xe1, 0xf1]
        && t.engine.active = some (.dec, key)
        && onPort (fun p => p.result = .ok && !p.busy) t)
      (toyCall .ecbDec (machine livePort blockB.toList)) = true := by decide

/-- V-ECB-8: the reads wrap at the top of the address space (R63). -/
theorem test_ecbEnc_wrap :
    nextHas (fun t => t.mem.readBytes 32 0x2000 16 = [0x0e, 0x10, 0x22, 0x34, 0x46, 0x58, 0x6a, 0x7c, 0x8e, 0xa0, 0xb2, 0xc4, 0xd6, 0xe8, 0xfa, 0x0c])
      (toyCall .ecbEnc
        { machine { livePort with src := 0xfffffff8 } [] with
          mem := Memory.writeBytes [] 32 0xfffffff8 blockB.toList }) = true := by decide

/-- V-CBC-1 -/
theorem test_cbcEnc :
    nextHas
      (fun t => t.mem.readBytes 32 0x2000 32 = bytesC
        && onPort (fun p => p.result = .ok && !p.busy
            && p.iv = #v[0x1b, 0x1f, 0x13, 0x13, 0x13, 0x17, 0x23, 0x23, 0x1b, 0x1f, 0x33, 0x33, 0x33, 0x37, 0x33, 0x33]) t)
      (toyCall .cbcEnc (machine { livePort with len := 32 } bytesP)) = true := by decide

/-- V-CBC-2, in place (V-CBC-11): `TEMP` and `IV` end as the last input block. -/
theorem test_cbcDec :
    nextHas
      (fun t => t.mem.readBytes 32 0x1000 32 = bytesP
        && onPort (fun p => p.result = .ok && !p.busy
            && p.iv = #v[0x1b, 0x1f, 0x13, 0x13, 0x13, 0x17, 0x23, 0x23, 0x1b, 0x1f, 0x33, 0x33, 0x33, 0x37, 0x33, 0x33] && p.temp = p.iv) t)
      (toyCall .cbcDec (machine { livePort with len := 32, dst := 0x1000 } bytesC)) = true := by decide

/-- V-CFB128-4: a start inside a block. -/
theorem test_cfb128Enc :
    nextHas
      (fun t => t.mem.readBytes 32 0x2000 5 = [0x20, 0x11, 0x02, 0x12, 0x04]
        && onPort (fun p => p.result = .ok && !p.busy && p.offset = 2
            && p.iv = #v[0x12, 0x04, 0xf1, 0xe2, 0xd3, 0xc4, 0xb5, 0xa6, 0x97, 0x88, 0x79, 0x6a, 0x5b, 0x4c, 0x3d, 0x2f]) t)
      (toyCall .cfb128Enc (machine { livePort with len := 5, offset := 13 } [0x00, 0x01, 0x02, 0x03, 0x04])) = true := by decide

/-- V-CFB128-2: only the encrypt record is needed, and `IV` ends as after the encryption. -/
theorem test_cfb128Dec :
    nextHas
      (fun t => t.mem.readBytes 32 0x2000 20 = bytesD
        && onPort (fun p => p.result = .ok && !p.busy && p.offset = 4
            && p.iv = #v[0x20, 0x0e, 0x00, 0x16, 0xf4, 0xeb, 0xd6, 0xc9, 0xb8, 0xb7, 0x9a, 0x8d, 0x7c, 0x73, 0x5e, 0x51]) t)
      (toyCall .cfb128Dec (machine { livePort with len := 20, dk := .unset } 
        [0x0f, 0x01, 0xf3, 0xe1, 0xd7, 0xc1, 0xb3, 0xa1, 0x9f, 0x81, 0x73, 0x61, 0x57, 0x41, 0x33, 0x21, 0x20, 0x0e, 0x00, 0x16])) = true := by decide

/-- V-CFB8-1, V-CFB8-8: `OFFSET` takes no part. -/
theorem test_cfb8Enc :
    nextHas
      (fun t => t.mem.readBytes 32 0x2000 5 = [0xae, 0x0f, 0xdd, 0x38, 0xa2]
        && onPort (fun p => p.result = .ok && !p.busy && p.offset = 9
            && p.iv = #v[0xa0, 0x90, 0x80, 0x70, 0x60, 0x50, 0x40, 0x30, 0x20, 0x10, 0x00, 0xae, 0x0f, 0xdd, 0x38, 0xa2]) t)
      (toyCall .cfb8Enc (machine { livePort with len := 5, offset := 9 } [0xa1, 0xb2, 0xc3, 0xd4, 0xe5])) = true := by decide

/-- V-CFB8-2: the input byte is appended. -/
theorem test_cfb8Dec :
    nextHas
      (fun t => t.mem.readBytes 32 0x2000 5 = [0xa1, 0xb2, 0xc3, 0xd4, 0xe5]
        && onPort (fun p => p.result = .ok && !p.busy
            && p.iv = #v[0xa0, 0x90, 0x80, 0x70, 0x60, 0x50, 0x40, 0x30, 0x20, 0x10, 0x00, 0xae, 0x0f, 0xdd, 0x38, 0xa2]) t)
      (toyCall .cfb8Dec (machine { livePort with len := 5 } [0xae, 0x0f, 0xdd, 0x38, 0xa2])) = true := by decide

/-- V-CTR-1 -/
theorem test_ctr :
    nextHas
      (fun t => t.mem.readBytes 32 0x2000 20
            = [0x0e, 0x11, 0x13, 0x11, 0x17, 0x11, 0x13, 0x11, 0x1f, 0x11, 0x13, 0x11, 0x17, 0x11, 0x13, 0x11, 0x1f, 0x01, 0x03, 0x01]
        && onPort (fun p => p.result = .ok && !p.busy && p.offset = 4
            && p.nc = #v[0x00, 0x00, 0x00, 0x00, 0x00, 0x00, 0x00, 0x00, 0x00, 0x00, 0x00, 0x00, 0x00, 0x00, 0x01, 0x01]
            && p.sb = #v[0x0f, 0x10, 0x11, 0x12, 0x13, 0x14, 0x15, 0x16, 0x17, 0x18, 0x19, 0x1a, 0x1b, 0x1c, 0x1d, 0x1f]) t)
      (toyCall .ctr (machine 
        { livePort with len := 20, nc := #v[0x00, 0x00, 0x00, 0x00, 0x00, 0x00, 0x00, 0x00, 0x00, 0x00, 0x00, 0x00, 0x00, 0x00, 0x00, 0xff]
                        sb := Vector.replicate 16 0xee } bytesD)) = true := by decide

/-- V-CTR-5: no trailing refresh. -/
theorem test_ctr_start_inside :
    nextHas
      (fun t => t.mem.readBytes 32 0x2000 2 = [0x1e, 0x1e] && t.engine.active = none
        && onPort (fun p => p.result = .ok && !p.busy && p.offset = 0 && p.nc = livePort.nc) t)
      (toyCall .ctr (machine 
        { livePort with len := 2, offset := 14, sb := #v[0x10, 0x11, 0x12, 0x13, 0x14, 0x15, 0x16, 0x17, 0x18, 0x19, 0x1a, 0x1b, 0x1c, 0x1d, 0x1e, 0x1f] } [0x00, 0x01])) = true := by decide

/-- V-CTR-6 -/
theorem test_inc128 :
    inc128 #v[0x00, 0x00, 0x00, 0x00, 0x00, 0x00, 0x00, 0x00, 0x00, 0x00, 0x00, 0x00, 0x00, 0x00, 0x00, 0x00]
      = #v[0x00, 0x00, 0x00, 0x00, 0x00, 0x00, 0x00, 0x00, 0x00, 0x00, 0x00, 0x00, 0x00, 0x00, 0x00, 0x01]
    ∧ inc128 #v[0x00, 0xff, 0xff, 0xff, 0xff, 0xff, 0xff, 0xff, 0xff, 0xff, 0xff, 0xff, 0xff, 0xff, 0xff, 0xff]
      = #v[0x01, 0x00, 0x00, 0x00, 0x00, 0x00, 0x00, 0x00, 0x00, 0x00, 0x00, 0x00, 0x00, 0x00, 0x00, 0x00]
    ∧ inc128 #v[0xff, 0xff, 0xff, 0xff, 0xff, 0xff, 0xff, 0xff, 0xff, 0xff, 0xff, 0xff, 0xff, 0xff, 0xff, 0xff]
      = #v[0x00, 0x00, 0x00, 0x00, 0x00, 0x00, 0x00, 0x00, 0x00, 0x00, 0x00, 0x00, 0x00, 0x00, 0x00, 0x00]
    ∧ inc128 #v[0xa5, 0xff, 0xff, 0xff, 0xff, 0x00, 0xff, 0xff, 0xff, 0xff, 0xff, 0xff, 0xff, 0xff, 0xff, 0xff]
      = #v[0xa5, 0xff, 0xff, 0xff, 0xff, 0x01, 0x00, 0x00, 0x00, 0x00, 0x00, 0x00, 0x00, 0x00, 0x00, 0x00] := by decide

/-- V-LC-1 -/
theorem test_init :
    nextHas
      (fun t => t.engine = { refcount := 1, lock := .free, enabled := true, active := none }
        && onPort (fun p => p.result = .ok && p.status = 0x02) t)
      (exec .init State.reset) = true := by decide

/-- V-LC-5 -/
theorem test_init_fails :
    nextHas
      (fun t => t.engine = Engine.reset && onPort (fun p => p.result = .engineUnavailable && p.status = 0) t)
      (exec .init { State.reset with params := { Params.default with enableOk := false } }) = true := by
  decide

/-- V-LC-4: the last reference. -/
theorem test_free :
    nextHas
      (fun t => t.engine = { refcount := 0, lock := .free, enabled := false, active := none }
        && onPort (fun p => p.result = .ok && p.status = 0x00) t)
      (exec .free (machine livePort [])) = true := by decide

/-- V-LC-6 -/
theorem test_free_fails :
    nextHas
      (fun t => t.engine = { refcount := 1, lock := .free, enabled := true, active := none }
        && onPort
            (fun p => p.result = .engineUnavailable && p.status = 0x02 && p.keyin = Vector.replicate 32 0) t)
      (exec .free
        { machine { livePort with keyin := Vector.replicate 32 0xaa } [] with
          params := { Params.default with disableOk := false } }) = true := by decide

/-- `KEYIN` = 00..1f, as in V-LC-9. -/
def keyin32 : Vector Byte 32 :=
  #v[0x00, 0x01, 0x02, 0x03, 0x04, 0x05, 0x06, 0x07, 0x08, 0x09, 0x0a, 0x0b, 0x0c, 0x0d, 0x0e, 0x0f, 0x10, 0x11, 0x12, 0x13, 0x14, 0x15, 0x16, 0x17, 0x18, 0x19, 0x1a, 0x1b, 0x1c, 0x1d, 0x1e, 0x1f]

/-- V-LC-7 -/
theorem test_setkeyEnc :
    nextHas (onPort fun p => p.result = .ok && p.status = 0x06 && p.ek = .set key)
      (exec .setkeyEnc
        (machine { Port.reset with live := true, keybits := 128, keyin := keyin32 } [])) = true := by decide

/-- V-LC-9: bytes 24 to 31 of `KEYIN` are ignored. -/
theorem test_setkeyEnc_192 :
    nextHas (onPort fun p => p.ek = .set (.k192 #v[0x00, 0x01, 0x02, 0x03, 0x04, 0x05, 0x06, 0x07, 0x08, 0x09, 0x0a, 0x0b, 0x0c, 0x0d, 0x0e, 0x0f, 0x10, 0x11, 0x12, 0x13, 0x14, 0x15, 0x16, 0x17]))
      (exec .setkeyEnc (machine { livePort with keybits := 192, keyin := keyin32 } [])) = true := by decide

/-- V-LC-8 -/
theorem test_setkeyDec :
    nextHas (onPort fun p => p.result = .ok && p.status = 0x0e && p.dk = .set key)
      (exec .setkeyDec
        (machine { livePort with dk := .unset, keybits := 128, keyin := keyin32 } [])) = true := by decide

/-- V-LC-11, V-ERR-5: the record keeps its content. -/
theorem test_setkeyDec_bad_length :
    ([0, 100, 127, 129, 255, 512, 65535].all fun b =>
      nextHas (onPort fun p => p.result = .invalidKeyLength && p.dk = .set key)
        (exec .setkeyDec (machine { livePort with keybits := b } []))) = true := by decide

/-- V-ERR-1 to V-ERR-9: the results of failed validation. -/
theorem test_failures :
    nextHas (onPort fun p => p.result = .contextState) (exec .cbcEnc State.reset) = true
      ∧ nextHas (onPort fun p => p.result = .illegalCommand && p.cmd = 0x18) (callByte 0x18 State.reset) = true
      ∧ nextHas (onPort fun p => p.result = .contextState && p.ek = .set key)
          (exec .init (machine livePort [])) = true
      ∧ nextHas (onPort fun p => p.result = .keyNotSet)
          (exec .ctr (machine { livePort with ek := .unset } [])) = true
      ∧ nextHas (onPort fun p => p.result = .invalidInputLength && p.iv = ivF)
          (exec .cbcDec (machine { livePort with len := 20, dk := .unset } [])) = true := by decide

/-- V-REG-1, V-REG-2, V-REG-3 -/
theorem test_registers :
    (livePort.writeReg Params.default 0x03 0x1f).readReg 0x03 = 0x0f
      ∧ (livePort.writeReg Params.default 0x40 0x55).readReg 0x40 = 0
      ∧ ({ livePort with len := 0x00000120 } : Port).readReg 0x04 = 0x20
      ∧ ({ livePort with len := 0x00000120 } : Port).readReg 0x05 = 0x01
      ∧ ({ livePort with len := 0x00000120 } : Port).readReg 0x07 = 0x00 := by decide

/-- A called command whose block unit finds the lock held is held there, busy (R72). -/
theorem test_held_on_take :
    nextHas (fun t => onPort (fun p => p.busy) t && t.engine.lock = .held 1)
      (toyCall .ecbEnc
        { machine livePort blockB.toList with
          engine := { refcount := 1, lock := .held 1, enabled := true, active := none } }) = true := by
  decide

/-- P5 in small: a plain `CMD` write, and then granted steps, run the command. -/
theorem test_granted_step :
    nextHas (onPort fun p => p.busy && p.cmd = 0x14 && p.seq = .decoded (some .ecbEnc))
      (step { machine livePort [] with agenda := [.write 0x00 0x14, .grant 0] }) = true := by decide

/-- R123, R245 one register update at a time: `LIVE` is written while `BUSY` is 1, then `RESULT` is, and only then
does `BUSY` fall. -/
theorem test_init_ends_in_three_steps :
    let s := fun q => machine { Port.reset with result := .keyNotSet, seq := q } []
    nextHas (onPort fun p => p.status = 0x03 && p.result = .keyNotSet)
        (grantStep toy 0 (s (.run .init [.setLive true, .conclude]))) = true
      ∧ nextHas (onPort fun p => p.status = 0x01 && p.result = .ok)
          (grantStep toy 0 (s (.run .init [.conclude]))) = true
      ∧ nextHas (onPort fun p => p.status = 0x00 && p.result = .keyNotSet)
          (grantStep toy 0 (s (.ending (some .init)))) = true := by decide

/-- Other widths (R7): with `AW` 8 address 0x1ff is 0xff; with `LENW` 12 a write of byte 1 of `LEN` keeps four bits. -/
theorem test_narrow_widths :
    Memory.write [] 8 0x1ff 0xaa = [(0xff, 0xaa)] ∧ (Memory.write [] 8 0x1ff 0xaa).read 8 0x2ff = 0xaa
      ∧ ({ Port.reset with len := 0x034 } : Port).writeReg { Params.default with lenw := 12 } 0x05 0xf5
        = { Port.reset with len := 0x534 } := by decide

/-- A register-space address in no window, and a call of a port that is not there, stop the machine. -/
theorem test_no_such_place :
    step { State.reset with agenda := [.read 0x100] } = .fault .noSuchRegister
      ∧ step { State.reset with agenda := [.call 2 0x01] } = .fault .noSuchPort := ⟨rfl, rfl⟩

/-! ### Witnesses: for every obligation with hypotheses, a case that meets them -/

/-- A machine with a live port 0, whose first event is `e`. -/
def eventMachine (p : Port) (e : Event) : State := { machine p bytesP with agenda := [e, .grant 0] }

theorem idle_machine (p : Port) (xs : List Byte) (h : p.busy = false) : (machine p xs).idlePort p := ⟨rfl, h⟩

theorem ready_machine (p : Port) (xs : List Byte) (h : p.busy = false) (hl : p.live = true) :
    (machine p xs).readyPort p := ⟨⟨rfl, h⟩, hl, rfl⟩

theorem machine_wf (p : Port) : (machine p bytesP).mem.wf 32 = true := by
  show (Memory.writeBytes [] 32 0x1000 bytesP).wf 32 = true
  exact Memory.wf_writeBytes (aw := 32) (m := []) 0x1000 bytesP rfl

/-- The buffers of `livePort` for at most 4096 bytes. -/
theorem buffers_disjoint {n : Nat} (h : n ≤ 4096) : BuffersOk 32 0x1000 0x2000 n :=
  ⟨by omega, .inr fun i j hi hj => by omega⟩

/-- Input and output are the same buffer. -/
theorem buffers_same {a n : Nat} (h : n ≤ 4096) : BuffersOk 32 a a n := ⟨by omega, .inl rfl⟩

theorem witness_ReservedBytesRejectedByField :
    (0x20 ≤ (0x20 : Byte).toNat) ∧ ((0x1f : Byte).toNat < 0x20 ∧ 9 ≤ (0x1f : Byte).toNat % 16)
      ∧ ((0x10 : Byte).toNat < 0x20 ∧ (0x10 : Byte).toNat % 16 = 0)
      ∧ ((0x09 : Byte).toNat < 0x20 ∧ 9 ≤ (0x09 : Byte).toNat % 16) := by decide

theorem witness_ReservedByteIsIllegalCommand :
    (machine livePort []).idlePort livePort ∧ decodeCommand 0x18 = none ∧ decodeCommand 0x20 = none :=
  ⟨idle_machine _ _ rfl, by decide, by decide⟩

theorem witness_StepRunsTheCalledCommand :
    (eventMachine livePort (.call 0 0x15)).agenda = .call 0 0x15 :: [.grant 0]
      ∧ decodeByte 0x15 = .ok .cbcEnc := ⟨rfl, by decide⟩

theorem witness_NothingHappensWithoutTheHost :
    State.reset.agenda = [] ∧ (∀ p ∈ (machine livePort bytesP).ports, p.busy = false)
      ∧ 1 < (machine livePort bytesP).ports.length := by
  refine ⟨rfl, fun p hp => ?_, by decide⟩
  have h : p = livePort ∨ p = Port.reset := by simpa [machine] using hp
  rcases h with rfl | rfl <;> rfl

theorem witness_CommandWriteStartsTheCommand :
    let s := eventMachine livePort (.write 0x00 0x15)
    s.params.wf = true ∧ s.ports[0]? = some livePort ∧ livePort.busy = false
      ∧ s.agenda = .write (s.params.portBase + 0 * s.params.portStride) 0x15 :: [.grant 0] :=
  ⟨by decide, rfl, rfl, rfl⟩

/-- The parameters of a machine whose `enable()` and `disable()` fail. -/
def refusing : Params := { Params.default with enableOk := false, disableOk := false }

theorem witness_InitTakesAReference :
    State.reset.idlePort Port.reset ∧ Port.reset.live = false ∧ State.reset.engine.lock = .free
      ∧ (State.reset.engine.refcount ≠ 0 ∨ State.reset.params.enableOk = true) :=
  ⟨⟨rfl, rfl⟩, rfl, rfl, .inr rfl⟩

theorem witness_InitRollsBackAFailedEnable :
    let s := { State.reset with params := refusing }
    s.idlePort Port.reset ∧ Port.reset.live = false ∧ s.engine.lock = .free ∧ s.engine.refcount = 0
      ∧ s.params.enableOk = false := ⟨⟨rfl, rfl⟩, rfl, rfl, rfl, rfl⟩

theorem witness_FreeReleasesTheReference :
    (machine livePort []).readyPort livePort ∧ 1 ≤ (machine livePort []).engine.refcount
      ∧ ((machine livePort []).engine.refcount ≠ 1 ∨ (machine livePort []).params.disableOk = true) :=
  ⟨ready_machine _ _ rfl rfl, le_refl _, .inr rfl⟩

theorem witness_FreeRollsBackAFailedDisable :
    let s := { machine livePort [] with params := refusing }
    s.readyPort livePort ∧ s.engine.refcount = 1 ∧ s.params.disableOk = false :=
  ⟨⟨⟨rfl, rfl⟩, rfl, rfl⟩, rfl, rfl⟩

/-- A live port with `KEYBITS` = `b` and a staged key. -/
def staged (b : BitVec 16) : Port := { livePort with keybits := b, keyin := keyin32 }

theorem witness_SetkeyRecordsTheStagedKey :
    (machine (staged 128) []).idlePort (staged 128) ∧ (machine (staged 192) []).idlePort (staged 192)
      ∧ (machine (staged 256) []).idlePort (staged 256)
      ∧ ((staged 128).live = true ∧ (staged 128).keybits = 128) ∧ (staged 192).keybits = 192
      ∧ (staged 256).keybits = 256 :=
  ⟨idle_machine _ _ rfl, idle_machine _ _ rfl, idle_machine _ _ rfl, ⟨rfl, rfl⟩, rfl, rfl⟩

theorem witness_SetkeyIsIdempotent :
    (machine (staged 128) []).idlePort (staged 128) ∧ (staged 128).live = true
      ∧ (∃ t, exec .setkeyEnc (machine (staged 128) []) = .next t)
      ∧ ∃ t, exec .setkeyDec (machine (staged 128) []) = .next t :=
  ⟨idle_machine _ _ rfl, rfl, nextHas_exists (f := fun _ => true) (by decide),
    nextHas_exists (f := fun _ => true) (by decide)⟩

theorem witness_BadKeyLengthIsRefused :
    (machine (staged 129) []).idlePort (staged 129) ∧ (staged 129).live = true
      ∧ ((staged 129).keybits ≠ 128 ∧ (staged 129).keybits ≠ 192 ∧ (staged 129).keybits ≠ 256) :=
  ⟨idle_machine _ _ rfl, rfl, by decide, by decide, by decide⟩

theorem witness_WrongLifecycleStateIsRefused :
    ((machine livePort []).idlePort livePort ∧ (livePort.live = true ↔ Instr.init = .init))
      ∧ (State.reset.idlePort Port.reset ∧ (Port.reset.live = true ↔ Instr.ctr = .init)) :=
  ⟨⟨idle_machine _ _ rfl, by decide⟩, ⟨rfl, rfl⟩, by decide⟩

theorem witness_RaggedCbcLengthIsRefused :
    (machine { livePort with len := 15 } []).idlePort { livePort with len := 15 }
      ∧ livePort.live = true ∧ 15 % 16 ≠ 0 :=
  ⟨idle_machine _ _ rfl, rfl, by decide⟩

theorem witness_MissingKeyIsRefused :
    let p := { livePort with ek := .unset, dk := .unset, len := 7 }
    let q := { livePort with dk := .unset, len := 16 }
    ((machine p []).idlePort p ∧ p.live = true ∧ Instr.keyDir .cfb8Dec = some .enc
        ∧ p.record .enc = .unset)
      ∧ ((machine q []).idlePort q ∧ q.live = true ∧ Instr.keyDir .cbcDec = some .dec
        ∧ q.record .dec = .unset ∧ q.len % 16 = 0) :=
  ⟨⟨idle_machine _ _ rfl, rfl, rfl, rfl⟩, idle_machine _ _ rfl, rfl, rfl, rfl, by decide⟩

/-- A live port whose command was written and is not yet validated. -/
def busyPort : Port := { livePort with seq := .decoded (some .ctr) }

/-- `SB` = 10..1f, as in V-CTR-5. -/
def bytesSb : Block := #v[0x10, 0x11, 0x12, 0x13, 0x14, 0x15, 0x16, 0x17, 0x18, 0x19, 0x1a, 0x1b, 0x1c, 0x1d, 0x1e, 0x1f]

theorem witness_BusyPortIgnoresACall :
    (machine busyPort []).ports[(machine busyPort []).cur]? = some busyPort ∧ busyPort.busy = true :=
  ⟨rfl, rfl⟩

/-- A command that fails ends with its result: `ECB.ENC` after reset. -/
theorem witness_EachCommandReturnsOnlyItsResults :
    State.reset.idlePort Port.reset ∧ ∃ t q, exec .ecbEnc State.reset = .next t
      ∧ t.ports[State.reset.cur]? = some q ∧ q.busy = false
      ∧ decodeCommand 0x00 = none ∧ ∃ u r, callByte 0x00 State.reset = .next u
        ∧ u.ports[State.reset.cur]? = some r :=
  ⟨⟨rfl, rfl⟩, _, _, rfl, rfl, rfl, by decide, _, _, rfl, rfl⟩

theorem witness_EcbEncryptsOneBlock :
    (machine livePort bytesP).readyPort livePort ∧ livePort.ek = .set key :=
  ⟨ready_machine _ _ rfl rfl, rfl⟩

theorem witness_EcbDecryptsOneBlock :
    (machine livePort bytesP).readyPort livePort ∧ livePort.dk = .set key :=
  ⟨ready_machine _ _ rfl rfl, rfl⟩

/-- A live port with `LEN` = `n`. -/
def lenPort (n : Nat) : Port := { livePort with len := n }

theorem witness_CbcEncryptsTheChain :
    (machine (lenPort 32) bytesP).readyPort (lenPort 32) ∧ (lenPort 32).ek = .set key
      ∧ (machine (lenPort 32) bytesP).mem.wf 32 = true ∧ (lenPort 32).len = 16 * 2
      ∧ BuffersOk 32 (lenPort 32).src (lenPort 32).dst (16 * 2)
      ∧ ((lenPort 0).len = 16 * 0 ∧ BuffersOk 32 (lenPort 0).src (lenPort 0).dst (16 * 0)) :=
  ⟨ready_machine _ _ rfl rfl, rfl, machine_wf _, rfl, buffers_disjoint (by decide), rfl,
    buffers_disjoint (by decide)⟩

theorem witness_CbcDecryptsTheChain :
    (machine (lenPort 32) bytesP).readyPort (lenPort 32) ∧ (lenPort 32).dk = .set key
      ∧ (machine (lenPort 32) bytesP).mem.wf 32 = true ∧ (lenPort 32).len = 16 * 2
      ∧ BuffersOk 32 (lenPort 32).src (lenPort 32).dst (16 * 2) :=
  ⟨ready_machine _ _ rfl rfl, rfl, machine_wf _, rfl, buffers_disjoint (by decide)⟩

/-- The hypotheses of the byte-granular modes, for `LEN` 20 and an offset inside a block. -/
theorem stream_hypotheses (o : BitVec 4) :
    let p := { lenPort 20 with offset := o }
    (machine p bytesP).readyPort p ∧ p.ek = .set key ∧ (machine p bytesP).mem.wf 32 = true
      ∧ BuffersOk 32 p.src p.dst p.len :=
  ⟨ready_machine _ _ rfl rfl, rfl, machine_wf _, buffers_disjoint (n := 20) (by decide)⟩

theorem witness_Cfb128RunsTheShiftRegister :
    let p := { lenPort 20 with offset := 13 }
    (machine p bytesP).readyPort p ∧ p.ek = .set key ∧ (machine p bytesP).mem.wf 32 = true
      ∧ BuffersOk 32 p.src p.dst p.len := stream_hypotheses 13

theorem witness_Cfb8ShiftsByteByByte :
    let p := { lenPort 20 with offset := 0 }
    (machine p bytesP).readyPort p ∧ p.ek = .set key ∧ (machine p bytesP).mem.wf 32 = true
      ∧ BuffersOk 32 p.src p.dst p.len := stream_hypotheses 0

theorem witness_CtrRunsTheCounter :
    let p := { lenPort 20 with offset := 14 }
    (machine p bytesP).readyPort p ∧ p.ek = .set key ∧ (machine p bytesP).mem.wf 32 = true
      ∧ BuffersOk 32 p.src p.dst p.len := stream_hypotheses 14

theorem witness_ValidatedDataCommandEndsOk :
    (machine (lenPort 32) bytesP).readyPort (lenPort 32) ∧ Instr.keyDir .cbcDec = some .dec
      ∧ ((lenPort 32).record .dec).present = true ∧ (lenPort 32).len % 16 = 0
      ∧ ((machine (lenPort 7) bytesP).readyPort (lenPort 7) ∧ Instr.keyDir .ecbEnc = some .enc
        ∧ ((lenPort 7).record .enc).present = true) :=
  ⟨ready_machine _ _ rfl rfl, rfl, rfl, by decide, ready_machine _ _ rfl rfl, rfl, rfl⟩

theorem witness_CommandsKeepTheirFrame :
    (machine livePort bytesP).ports[(machine livePort bytesP).cur]? = some livePort
      ∧ (machine livePort bytesP).mem.wf 32 = true
      ∧ ∃ t, exec .ecbEnc (machine livePort bytesP) = .next t :=
  ⟨rfl, machine_wf _, nextHas_exists (f := fun _ => true) (by decide)⟩

theorem witness_OffsetAdvancesByTheLength :
    let p := { lenPort 20 with offset := 13, dst := 0x1001 }
    (machine p bytesP).readyPort p ∧ p.ek = .set key := ⟨ready_machine _ _ rfl rfl, rfl⟩

theorem witness_CtrKeystreamIsTheCounter : bytesD[19]? = some 0x13 := by decide

theorem witness_Cfb8SlidesAWindow : bytesD[0]? = some 0x00 ∧ bytesD[19]? = some 0x13 := by decide

theorem witness_EcbRoundTrip :
    (machine livePort bytesP).readyPort livePort ∧ livePort.ek = .set key ∧ livePort.dk = .set key
      ∧ (machine livePort bytesP).mem.wf 32 = true ∧ 16 ≤ 2 ^ (machine livePort bytesP).params.aw :=
  ⟨ready_machine _ _ rfl rfl, rfl, rfl, machine_wf _, by decide⟩

theorem witness_CbcRoundTrip :
    (machine (lenPort 32) bytesP).readyPort (lenPort 32) ∧ (lenPort 32).ek = .set key
      ∧ (lenPort 32).dk = .set key ∧ (machine (lenPort 32) bytesP).mem.wf 32 = true
      ∧ (lenPort 32).len % 16 = 0
      ∧ BuffersOk 32 (lenPort 32).src (lenPort 32).dst (lenPort 32).len
      ∧ BuffersOk 32 (lenPort 32).dst (lenPort 32).dst (lenPort 32).len :=
  ⟨ready_machine _ _ rfl rfl, rfl, rfl, machine_wf _, by decide, buffers_disjoint (by decide), buffers_same (by decide)⟩

/-- The hypotheses of the round trips of the byte-granular modes: output decrypted in place. -/
theorem round_trip_hypotheses (o : BitVec 4) :
    let p := { lenPort 20 with offset := o }
    (machine p bytesP).readyPort p ∧ p.ek = .set key ∧ (machine p bytesP).mem.wf 32 = true
      ∧ BuffersOk 32 p.src p.dst p.len ∧ BuffersOk 32 p.dst p.dst p.len :=
  ⟨ready_machine _ _ rfl rfl, rfl, machine_wf _, buffers_disjoint (n := 20) (by decide), buffers_same (n := 20) (by decide)⟩

theorem witness_Cfb128RoundTrip :
    let p := { lenPort 20 with offset := 13 }
    (machine p bytesP).readyPort p ∧ p.ek = .set key ∧ (machine p bytesP).mem.wf 32 = true
      ∧ BuffersOk 32 p.src p.dst p.len ∧ BuffersOk 32 p.dst p.dst p.len := round_trip_hypotheses 13

theorem witness_Cfb8RoundTrip :
    let p := { lenPort 20 with offset := 0 }
    (machine p bytesP).readyPort p ∧ p.ek = .set key ∧ (machine p bytesP).mem.wf 32 = true
      ∧ BuffersOk 32 p.src p.dst p.len ∧ BuffersOk 32 p.dst p.dst p.len := round_trip_hypotheses 0

theorem witness_CtrIsSelfInverse :
    let p := { lenPort 20 with offset := 14 }
    (machine p bytesP).readyPort p ∧ p.ek = .set key ∧ (machine p bytesP).mem.wf 32 = true
      ∧ BuffersOk 32 p.src p.dst p.len ∧ BuffersOk 32 p.dst p.dst p.len := round_trip_hypotheses 14

theorem witness_InvariantHoldsAfterReset : 1 ≤ 1 ∧ Params.default.wf = true := by decide

/-! #### A machine in the middle of a lock span -/

/-- Port 0 runs `ECB.ENC` and holds the lock, its key installed. -/
def spanPort : Port :=
  { livePort with
    seq := .run .ecbEnc ([.transform .enc, .give, .reg .outFromBlk] ++ writeBlockOps ++ [.reg (.advance 16), .complete]) }

/-- Port 1 runs `ECB.DEC` and waits for the lock. -/
def waitingPort : Port :=
  { livePort with
    seq := .run .ecbDec
      (blockUnitOps .dec ++ [.reg .outFromBlk] ++ writeBlockOps ++ [.reg (.advance 16), .complete]) }

/-- Both at once; `e` is the next event. -/
def spanMachine (e : Event) : State :=
  { State.reset with
    ports := [spanPort, waitingPort]
    engine := { refcount := 2, lock := .held 0, enabled := true, active := some (.enc, key) }
    agenda := [e] }

theorem spanMachine_inv (e : Event) : (spanMachine e).Inv where
  seq := by
    intro c p hp
    match c with
    | 0 =>
      cases hp
      refine ⟨⟨⟨livePort, readBlockOps ++ [.reg .blkFromIn, .take, .install .enc], rfl⟩, ?_, by decide, by decide⟩,
        .ready .enc, by decide, rfl, key, rfl, rfl⟩
      intro d hd; cases hd; rfl
    | 1 =>
      cases hp
      refine ⟨⟨⟨livePort, readBlockOps ++ [.reg .blkFromIn], rfl⟩, ?_, by decide, by decide⟩,
        .out, by decide, fun h => by cases h⟩
      intro d hd; cases hd; rfl
    | c + 2 => cases hp
  lock := by intro c hc; cases hc; show 0 < 2; decide
  ref := by show 2 = [spanPort, waitingPort].countP Port.holdsRef ∧ (true = true ↔ 0 < 2); decide
  mem := rfl
  widths := by
    intro p hp
    have h : p = spanPort ∨ p = waitingPort := by simpa [spanMachine] using hp
    show p.len < 2 ^ 32 ∧ p.src < 2 ^ 32 ∧ p.dst < 2 ^ 32
    rcases h with rfl | rfl <;> decide
  ports := by show 1 ≤ 2; decide
  params := rfl

theorem witness_EveryStepKeepsTheInvariant :
    (spanMachine (.grant 0)).Inv ∧ ∃ t, step (spanMachine (.grant 0)) = .next t :=
  ⟨spanMachine_inv _, _, rfl⟩

theorem witness_NoEventStopsTheMachine :
    (spanMachine (.grant 0)).Inv ∧ (spanMachine (.grant 0)).agenda = .grant 0 :: []
      ∧ (spanMachine (.grant 0)).eventOk (.grant 0)
      ∧ (spanMachine (.write 0xff 0x00)).eventOk (.write 0xff 0x00)
      ∧ ¬ (spanMachine (.write 0x100 0x00)).eventOk (.write 0x100 0x00) :=
  ⟨spanMachine_inv _, rfl, by show 0 < 2; decide, rfl, by intro h; cases h⟩

/-- Port 0 at the end of `ECB.ENC`: `RESULT` is written and `BUSY` is still 1. -/
def endingPort : Port := { livePort with seq := .ending (some .ecbEnc) }

theorem endingMachine_inv : (machine endingPort []).Inv where
  seq := by
    intro c p hp
    match c with
    | 0 => cases hp; exact ⟨(by decide : Result.ok ∈ resultsOf (some .ecbEnc)), .out, rfl, fun h => by cases h⟩
    | 1 => cases hp; exact ⟨rfl, .out, rfl, fun h => by cases h⟩
    | c + 2 => cases hp
  lock := by intro c hc; cases hc
  ref := by show 1 = [endingPort, Port.reset].countP Port.holdsRef ∧ (true = true ↔ 0 < 1); decide
  mem := rfl
  widths := by
    intro p hp
    have h : p = endingPort ∨ p = Port.reset := by simpa [machine] using hp
    rcases h with rfl | rfl <;> decide
  ports := by show 1 ≤ 2; decide
  params := rfl

/-- A granted step that keeps `BUSY`, and one that clears it. -/
theorem witness_EachCommandReturnsOnlyItsResults_granted :
    ((spanMachine (.grant 0)).Inv ∧ (spanMachine (.grant 0)).ports[0]? = some spanPort ∧ spanPort.busy = true
        ∧ ∃ t q, grantStep Config.primitive 0 (spanMachine (.grant 0)) = .next t
          ∧ t.ports[0]? = some q ∧ q.busy = true)
      ∧ ((machine endingPort []).Inv ∧ (machine endingPort []).ports[0]? = some endingPort
        ∧ endingPort.busy = true
        ∧ ∃ t q, grantStep Config.primitive 0 (machine endingPort []) = .next t
          ∧ t.ports[0]? = some q ∧ q.busy = false) :=
  ⟨⟨spanMachine_inv _, rfl, rfl, _, _, rfl, rfl, rfl⟩, endingMachine_inv, rfl, rfl, _, _, rfl, rfl, rfl⟩

theorem witness_CallIsASequencerRun :
    State.reset.idlePort Port.reset ∧ ∃ t, exec .init State.reset = .next t := ⟨⟨rfl, rfl⟩, _, rfl⟩

theorem witness_TakeWaitsForTheLock :
    ∃ rest, (spanMachine (.grant 1)).ports[1]? = some waitingPort
      ∧ waitingPort.seq = .run .ecbDec (.take :: rest) ∧ (spanMachine (.grant 1)).engine.lock ≠ .free :=
  ⟨_, rfl, rfl, by decide⟩

theorem witness_LockSpanExcludesOtherPorts :
    (spanMachine (.grant 1)).Inv ∧ (spanMachine (.grant 1)).engine.lock = .held 0 ∧ 1 ≠ 0
      ∧ ∃ t, grantStep Config.primitive 1 (spanMachine (.grant 1)) = .next t :=
  ⟨spanMachine_inv _, rfl, by decide, _, rfl⟩

theorem witness_BlocksRunUnderTheirOwnKey :
    (spanMachine (.grant 0)).Inv ∧ (spanMachine (.grant 0)).ports[0]? = some spanPort
      ∧ ∃ rest, spanPort.seq = .run .ecbEnc (.transform .enc :: rest) :=
  ⟨spanMachine_inv _, rfl, _, rfl⟩

theorem witness_PortsArePrivate :
    (∃ t, grantStep Config.primitive 0 (spanMachine (.grant 0)) = .next t) ∧ 1 ≠ 0 := ⟨⟨_, rfl⟩, by decide⟩

theorem witness_SomePortCanAlwaysMove :
    (spanMachine (.grant 1)).Inv ∧ waitingPort ∈ (spanMachine (.grant 1)).ports
      ∧ waitingPort.busy = true :=
  ⟨spanMachine_inv _, by simp [spanMachine], rfl⟩

/-- A machine with a live idle port satisfies the invariant, and its run is over. -/
theorem witness_RefcountCountsTheLivePorts :
    (machine livePort []).Inv ∧ (machine livePort []).quiescent := by
  refine ⟨⟨?_, ?_, ⟨by decide, by decide⟩, rfl, ?_, by decide, by decide⟩, ?_, rfl⟩
  · intro c p hp
    match c with
    | 0 => cases hp; exact ⟨rfl, .out, rfl, fun h => by cases h⟩
    | 1 => cases hp; exact ⟨rfl, .out, rfl, fun h => by cases h⟩
    | c + 2 => cases hp
  · intro c hc; cases hc
  · intro p hp
    have h : p = livePort ∨ p = Port.reset := by simpa [machine] using hp
    rcases h with rfl | rfl <;> decide
  · intro p hp
    have h : p = livePort ∨ p = Port.reset := by simpa [machine] using hp
    rcases h with rfl | rfl <;> rfl

theorem witness_ParametersNeverChange : ∃ t, step (eventMachine livePort .reset) = .next t := ⟨_, rfl⟩

theorem witness_ResetValuesAreTheListedOnes :
    (State.resetWith 1 Params.default).ports[0]? = some Port.reset := rfl

theorem witness_ResetAbandonsRunningCommands :
    (spanMachine .reset).agenda = .reset :: [] := rfl

/-! #### The host's accesses -/

theorem witness_WindowsDoNotOverlap :
    Params.default.wf = true ∧ (1 < 2 ∧ 0x7f < 0x80) ∧ decodeRegAddr Params.default 2 0xff = some (1, 0x7f)
      ∧ decodeRegAddr Params.default 2 0x80 = some (1, 0) ∧ decodeRegAddr Params.default 2 0x7f = some (0, 0x7f)
      ∧ decodeRegAddr Params.default 2 0x100 = none := by decide

/-- What a host reads at an offset of port 1 after writing a byte there. -/
def writesThenReads (p : Port) (off : Nat) (b : Byte) : Host.Outcome State Fault Refusal :=
  match step { machine livePort [] with ports := [Port.reset, p], agenda := [.write (0x80 + off) b] } with
  | .next t => step { t with agenda := [.read (0x80 + off)] }
  | .fault r => .fault r
  | .refused r => .refused r

/-- The premises, and each clause at the ends of its ranges, on port 1. -/
theorem witness_RegistersReadBack :
    let s := { machine livePort [] with ports := [Port.reset, livePort] }
    let gives := fun off b (f : Port → Bool) x =>
      nextHas (fun t => t.rdata == x && (t.ports[1]?).any f) (writesThenReads livePort off b) = true
    (s.params.wf = true ∧ s.ports[1]? = some livePort ∧ livePort.busy = false)
      ∧ (livePort.len < 2 ^ s.params.lenw ∧ livePort.src < 2 ^ s.params.aw ∧ livePort.dst < 2 ^ s.params.aw)
      ∧ gives 0x01 0xa5 (fun p => p = livePort) 0x0e ∧ gives 0x02 0xa5 (fun p => p = livePort) 0x00
      ∧ gives 0x03 0xa5 (fun p => p.offset = 5) 0x05
      ∧ gives 0x04 0xa5 (fun p => p.len = 0xa5) 0xa5 ∧ gives 0x07 0xa5 (fun p => p.len = 0xa5000000) 0xa5
      ∧ gives 0x08 0xa5 (fun p => p.src = 0x10a5) 0xa5 ∧ gives 0x0b 0xa5 (fun p => p.src = 0xa5001000) 0xa5
      ∧ gives 0x0c 0xa5 (fun p => p.dst = 0x20a5) 0xa5 ∧ gives 0x0f 0xa5 (fun p => p.dst = 0xa5002000) 0xa5
      ∧ gives 0x10 0xa5 (fun p => p.iv[0] = 0xa5) 0xa5 ∧ gives 0x1f 0xa5 (fun p => p.iv[15] = 0xa5) 0xa5
      ∧ gives 0x20 0xa5 (fun p => p.nc[0] = 0xa5) 0xa5 ∧ gives 0x2f 0xa5 (fun p => p.nc[15] = 0xa5) 0xa5
      ∧ gives 0x30 0xa5 (fun p => p.sb[0] = 0xa5) 0xa5 ∧ gives 0x3f 0xa5 (fun p => p.sb[15] = 0xa5) 0xa5
      ∧ gives 0x40 0xa5 (fun p => p.keyin[0] = 0xa5) 0x00 ∧ gives 0x5f 0xa5 (fun p => p.keyin[31] = 0xa5) 0x00
      ∧ gives 0x60 0xa5 (fun p => p.keybits = 0xa5) 0xa5 ∧ gives 0x61 0xa5 (fun p => p.keybits = 0xa500) 0xa5
      ∧ gives 0x62 0xa5 (fun p => p = livePort) 0x00 ∧ gives 0x7f 0xa5 (fun p => p = livePort) 0x00 := by
  decide

theorem witness_KeyStagingTakesBytes :
    let s := eventMachine livePort (.write 0x5f 0xa5)
    s.params.wf = true ∧ s.ports[0]? = some livePort ∧ livePort.busy = false
      ∧ s.agenda = .write (s.params.portBase + 0 * s.params.portStride + (0x40 + 31)) 0xa5 :: [.grant 0] :=
  ⟨by decide, rfl, rfl, rfl⟩

/-- A busy live port with both keys, every register of the window with bytes of its own. -/
def shownPort : Port :=
  { busyPort with
    cmd := 0x08, result := .contextState, offset := 9, len := 0xa1b2c3d4, src := 0xa2b3c4d5
    dst := 0xa3b4c5d6, nc := bytesSb, sb := bytesSb, keyin := keyin32, keybits := 0xa4d7 }

/-- The premises for a busy port, and each clause at the ends of its range (R32 to R35, R240). -/
theorem witness_StatusShowsItsBits :
    let s := machine shownPort []
    let reads := fun off x =>
      nextHas (fun t => t.rdata == x) (step { s with agenda := [.read off] }) = true
    (s.params.wf = true ∧ s.ports[0]? = some shownPort)
      ∧ reads 0x00 0x08 ∧ reads 0x01 0x0f ∧ reads 0x02 0x06 ∧ reads 0x03 0x09
      ∧ reads 0x04 0xd4 ∧ reads 0x07 0xa1 ∧ reads 0x08 0xd5 ∧ reads 0x0b 0xa2
      ∧ reads 0x0c 0xd6 ∧ reads 0x0f 0xa3 ∧ reads 0x10 0xf0 ∧ reads 0x1f 0x00
      ∧ reads 0x20 0x10 ∧ reads 0x2f 0x1f ∧ reads 0x30 0x10 ∧ reads 0x3f 0x1f
      ∧ reads 0x40 0x00 ∧ reads 0x5f 0x00 ∧ reads 0x60 0xd7 ∧ reads 0x61 0xa4
      ∧ reads 0x62 0x00 ∧ reads 0x7f 0x00 := by decide

theorem witness_BusyPortIgnoresWrites :
    let s := eventMachine busyPort (.write 0x7f 0xaa)
    s.params.wf = true ∧ s.ports[0]? = some busyPort ∧ busyPort.busy = true ∧ 0x7f < 0x80
      ∧ s.agenda = .write (s.params.portBase + 0 * s.params.portStride + 0x7f) 0xaa :: [.grant 0] :=
  ⟨by decide, rfl, rfl, by decide, rfl⟩

theorem witness_KeysHaveNoReadPath :
    ((KeyRecord.set (.k256 keyin32)).present = livePort.ek.present
      ∧ (KeyRecord.set (.k256 keyin32)).present = livePort.dk.present)
      ∧ (eventMachine livePort (.read 0x40)).ports[0]? = some livePort
      ∧ (eventMachine livePort (.read 0x40)).agenda = .read 0x40 :: [.grant 0]
      ∧ ∃ t, step (eventMachine livePort (.read 0x40)) = .next t := ⟨⟨rfl, rfl⟩, rfl, rfl, _, rfl⟩

theorem witness_WritesLandWhereTheyShould :
    Memory.wf [] 8 = true ∧ bytesD.length ≤ 2 ^ 8 ∧ bytesD[19]? = some 0x13 := ⟨rfl, by decide, by decide⟩

theorem witness_HostReachesDataMemory :
    let s := { machine livePort bytesP with agenda := [.memWrite 0xffffffff 0xaa, .memRead 0xffffffff] }
    s.mem.wf s.params.aw = true ∧ s.agenda = .memWrite 0xffffffff 0xaa :: .memRead 0xffffffff :: [] :=
  ⟨machine_wf livePort, rfl⟩

end Sys2Proof.Tests
end

section
/-! The scope rules (spec/00_scope.md): what a step leaves of the machine's shape, and the windows of register space
(R7, R35). -/

namespace Sys2Proof.Machine

/-! ### What a step that answers has done -/

section
variable {s t : State}

/-- A call that answers was made on a port that exists: a busy port ignored it, or the command ran on the port's
view, which was then put back (R36, R91). -/
theorem issue_eq_next {prim : BlockPrimitive} {i : Instr} {check : Port → Option Result}
    {program : Port → List MicroOp} (h : issue prim i check program s = .next t) :
    ∃ p, s.ports[s.cur]? = some p ∧
      (p.busy = true ∧ t = s ∨
        p.busy = false ∧ ∃ v,
          runCommand prim s.params s.cur i check program
              { port := p.start (encode i), eng := s.engine, mem := s.mem } = .next v
            ∧ t = s.putView s.cur v) := by
  cases hp : s.ports[s.cur]? with
  | none => simp [issue, State.view, hp] at h
  | some p =>
    refine ⟨p, rfl, ?_⟩
    cases hb : p.busy with
    | true =>
      rw [issue_busy prim i check program hp hb] at h
      cases h
      exact .inl ⟨rfl, rfl⟩
    | false =>
      rw [issue_idle prim i check program hp hb] at h
      obtain ⟨v, hv, rfl⟩ := mapNext_eq_next h
      exact .inr ⟨rfl, v, hv, rfl⟩

/-- A call with a reserved byte that answers was made on a port that exists: a busy port ignored it, or the port
ended with `IllegalCommand` (R36, R98, R248). -/
theorem issueReserved_eq_next {w : Byte} (h : issueReserved w s = .next t) :
    ∃ p, s.ports[s.cur]? = some p ∧
      (p.busy = true ∧ t = s ∨
        p.busy = false ∧ t = s.putView s.cur
          { port := (p.start w).finish .illegalCommand, eng := s.engine, mem := s.mem }) := by
  cases hp : s.ports[s.cur]? with
  | none => simp [issueReserved, State.view, hp] at h
  | some p =>
    refine ⟨p, rfl, ?_⟩
    cases hb : p.busy <;> simp [issueReserved, State.view_of_port hp, hb] at h
    · exact .inr ⟨rfl, h.symm⟩
    · exact .inl ⟨rfl, h.symm⟩

/-- A called byte, reserved or not, changes the machine at most by putting back the called port's view. -/
theorem callByte_eq_next {w : Byte} (h : callByte w s = .next t) :
    t = s ∨ ∃ v, t = s.putView s.cur v := by
  unfold callByte at h
  split at h
  · rw [exec_eq_issue] at h
    obtain ⟨p, -, ⟨-, ht⟩ | ⟨-, v, -, ht⟩⟩ := issue_eq_next h
    · exact .inl ht
    · exact .inr ⟨v, ht⟩
  · obtain ⟨p, -, ⟨-, ht⟩ | ⟨-, ht⟩⟩ := issueReserved_eq_next h
    · exact .inl ht
    · exact .inr ⟨_, ht⟩

/-- A granted step that answers is one atomic step on the view of a port that exists, which is then put back. -/
theorem grantStep_eq_next {prim : BlockPrimitive} {c : Nat} (h : grantStep prim c s = .next t) :
    ∃ p v, s.ports[c]? = some p
      ∧ microStep prim s.params c { port := p, eng := s.engine, mem := s.mem } = .next v
      ∧ t = s.putView c v := by
  cases hp : s.ports[c]? with
  | none => simp [grantStep, State.view, hp] at h
  | some p =>
    simp only [grantStep, State.view_of_port hp] at h
    obtain ⟨v, hv, rfl⟩ := mapNext_eq_next h
    exact ⟨p, v, rfl, hv, rfl⟩

/-- A host's register write that answers lies in the window of a port that exists, and changes that port alone. -/
theorem busWrite_eq_next {a : Nat} {b : Byte} (h : busWrite a b s = .next t) :
    ∃ c off p, decodeRegAddr s.params s.ports.length a = some (c, off) ∧ s.ports[c]? = some p
      ∧ t = { s with ports := s.ports.set c (p.writeReg s.params off b) } := by
  unfold busWrite at h
  split at h
  · cases h
  · next c off hd =>
    split at h
    · cases h
    · next p hp =>
      cases h
      exact ⟨c, off, p, hd, hp, rfl⟩

/-- A host's register read that answers lies in the window of a port that exists, and changes only the byte the host
holds. -/
theorem busRead_eq_next {a : Nat} (h : busRead a s = .next t) :
    ∃ c off p, decodeRegAddr s.params s.ports.length a = some (c, off) ∧ s.ports[c]? = some p
      ∧ t = { s with rdata := p.readReg off } := by
  unfold busRead at h
  split at h
  · cases h
  · next c off hd =>
    split at h
    · cases h
    · next p hp =>
      cases h
      exact ⟨c, off, p, hd, hp, rfl⟩

end

/-! ### The parameters and the number of ports -/

/-- Two machines with the same parameters of R7, the number of ports `NCTX` among them. -/
def State.SameParameters (s t : State) : Prop :=
  t.params = s.params ∧ t.ports.length = s.ports.length

/-- A view put back changes one port in place. -/
theorem State.sameParameters_putView (s : State) (c : Nat) (v : View) :
    s.SameParameters (s.putView c v) := ⟨rfl, by simp⟩

/-- No event changes a parameter (R7). -/
theorem happen_sameParameters {e : Event} {s t : State} (h : happen e s = .next t) :
    s.SameParameters t := by
  cases e with
  | call c w =>
    obtain rfl | ⟨v, rfl⟩ := callByte_eq_next h
    · exact ⟨rfl, rfl⟩
    · exact State.sameParameters_putView { s with cur := c } c v
  | write a b =>
    obtain ⟨c, off, p, -, -, rfl⟩ := busWrite_eq_next h
    exact ⟨rfl, List.length_set⟩
  | read a =>
    obtain ⟨c, off, p, -, -, rfl⟩ := busRead_eq_next h
    exact ⟨rfl, rfl⟩
  | memWrite a b => cases h; exact ⟨rfl, rfl⟩
  | memRead a => cases h; exact ⟨rfl, rfl⟩
  | grant c =>
    obtain ⟨p, v, -, -, rfl⟩ := grantStep_eq_next h
    exact State.sameParameters_putView s c v
  | reset => cases h; exact ⟨rfl, List.length_replicate⟩

/-- Settles O50: a step is an event of the agenda or nothing, and every event keeps the parameters. -/
theorem parametersNeverChange : Obligations.ParametersNeverChange := by
  intro s t h
  unfold step at h
  split at h
  · cases h; exact ⟨rfl, rfl⟩
  · next e rest _ => exact happen_sameParameters (s := { s with agenda := rest }) h

/-! ### The windows of register space -/

/-- The window map of R35, both ways: an address decodes to a port and an offset exactly where it is that offset of
that port's window. Quotient and remainder by the stride are unique, for an offset is below it (R7). -/
theorem decodeRegAddr_eq_some_iff {ps : Params} (hw : ps.wf = true) {nctx a c off : Nat} :
    decodeRegAddr ps nctx a = some (c, off) ↔ c < nctx ∧ off < 0x80 ∧ a = regAddr ps c off := by
  have hstride : 0x80 ≤ ps.portStride := by simpa [Params.wf] using hw
  have huniq := Nat.div_mod_unique (a := a - ps.portBase) (b := ps.portStride) (d := c) (c := off) (by omega)
  rw [Nat.mul_comm] at huniq
  unfold decodeRegAddr regAddr
  constructor
  · intro h
    split at h
    · simp only [Option.ite_none_right_eq_some, Option.some.injEq, Prod.mk.injEq] at h
      obtain ⟨⟨hc, hoff⟩, hdiv, hmod⟩ := h
      obtain ⟨hsum, -⟩ := huniq.1 ⟨hdiv, hmod⟩
      exact ⟨hdiv ▸ hc, hmod ▸ hoff, by omega⟩
    · cases h
  · rintro ⟨hc, hoff, ha⟩
    obtain ⟨hdiv, hmod⟩ := huniq.2 ⟨by omega, by omega⟩
    have hbase : ps.portBase ≤ a := by omega
    simp [hbase, hdiv, hmod, hc, hoff]

/-- Settles O53, by the window map read in each direction. -/
theorem windowsDoNotOverlap : Obligations.WindowsDoNotOverlap := by
  intro ps nctx hw
  constructor
  · intro c off hc hoff
    exact (decodeRegAddr_eq_some_iff hw).2 ⟨hc, hoff, rfl⟩
  · intro a c off h
    exact (decodeRegAddr_eq_some_iff hw).1 h

end Sys2Proof.Machine
end

section
/-! The invariant of the machine, one port at a time (spec/10_state.md rules R22, R40 to R43; spec/20_memory.md rule R72):
what it says of one port's view, and that every step of that port's sequencer keeps it. -/

namespace Sys2Proof.Machine

/-! ### What a register update leaves as it is -/

section
variable (r : RegOp) (p : Port)

@[simp] theorem RegOp.apply_seq : (r.apply p).seq = p.seq := by cases r <;> simp only [RegOp.apply]
@[simp] theorem RegOp.apply_live : (r.apply p).live = p.live := by cases r <;> simp only [RegOp.apply]
@[simp] theorem RegOp.apply_failed : (r.apply p).scratch.failed = p.scratch.failed := by
  cases r <;> simp only [RegOp.apply]
@[simp] theorem RegOp.apply_len : (r.apply p).len = p.len := by cases r <;> simp only [RegOp.apply]
@[simp] theorem RegOp.apply_src : (r.apply p).src = p.src := by cases r <;> simp only [RegOp.apply]
@[simp] theorem RegOp.apply_dst : (r.apply p).dst = p.dst := by cases r <;> simp only [RegOp.apply]

end

/-- A register update of a command that issues block units leaves its key record as it is (R131). -/
theorem RegOp.apply_record {i : Instr} {d : Dir} {r : RegOp} {rest : List MicroOp} (p : Port)
    (hd : Instr.keyDir i = some d) (h : headOk i (.reg r) rest = true) :
    (r.apply p).record d = p.record d := by
  have hsys : i ≠ .init ∧ i ≠ .free ∧ i ≠ .setkeyEnc ∧ i ≠ .setkeyDec := by
    cases i <;> simp_all [Instr.keyDir]
  obtain ⟨hinit, hfree, hse, hsd⟩ := hsys
  cases r with
  | clearEk => simp [headOk, hinit, hfree] at h
  | clearDk => simp [headOk, hinit, hfree] at h
  | recordEk => simp [headOk, hse] at h
  | recordDk => simp [headOk, hsd] at h
  | _ => cases d <;> simp only [Port.record, RegOp.apply]

/-! ### The places of a running command -/

section
variable {p q : Port} {i : Instr} {op : MicroOp} {rest : List MicroOp}

theorem Port.seqOk_run {t : List MicroOp} (h : p.seq = .run i t) : p.seqOk ↔ p.runOk i t := by
  simp [Port.seqOk, h]

theorem Port.seqOk_ending {i : Option Instr} (h : p.seq = .ending i) :
    p.seqOk ↔ p.result ∈ resultsOf i := by
  simp [Port.seqOk, h]

theorem Port.todo_run {t : List MicroOp} (h : p.seq = .run i t) : p.todo = t := by
  simp [Port.todo, h]

/-- After the reference-count change of `INIT` or `FREE` its port is at the next place of the program, whether the change
failed or not (R123, R124). -/
theorem Port.runOk_counted (b : Bool) (h : p.runOk i (op :: rest)) (hop : op = .acquire ∨ op = .release) :
    ((p.withSeq (.run i rest)).withFailed b).runOk i rest := by
  have hhead := headOk_of_runOk h
  obtain ⟨⟨q, hsuf⟩, -, hlive, -⟩ := h
  rcases hop with rfl | rfl <;> simp only [headOk, Bool.and_eq_true, decide_eq_true_eq] at hhead <;>
    obtain ⟨rfl, rfl⟩ := hhead
  all_goals exact ⟨⟨q, (List.suffix_cons _ _).trans hsuf⟩, fun d hd => (by cases hd), hlive, fun _ => by decide⟩

/-- A step that neither changes the reference count nor ends the command. -/
def MicroOp.plain : MicroOp → Bool
  | .memRead _ => true
  | .memWrite _ => true
  | .reg _ => true
  | .take => true
  | .install _ => true
  | .transform _ => true
  | .give => true
  | .acquire => false
  | .release => false
  | .setLive _ => false
  | .conclude => false
  | .complete => false

/-- After such a step `INIT` and `FREE` have more than their result left (R123, R124). -/
theorem rest_of_plain (h : headOk i op rest = true) (hop : op.plain = true)
    (hi : i = .init ∨ i = .free) : rest ≠ [] ∧ rest ≠ [.conclude] := by
  constructor <;> rintro rfl <;> rcases hi with rfl | rfl
  all_goals
    cases op with
    | reg r => cases r <;> cases h
    | _ => simp [headOk, MicroOp.plain, Instr.keyDir] at h hop

/-- What a running command's place depends on: `LIVE`, `failed`, the command's key record, and the data registers that
the invariant bounds. -/
structure Port.ControlEq (i : Instr) (p q : Port) : Prop where
  live : q.live = p.live
  failed : q.scratch.failed = p.scratch.failed
  key : ∀ d, Instr.keyDir i = some d → q.record d = p.record d
  len : q.len = p.len
  src : q.src = p.src
  dst : q.dst = p.dst

/-- A plain step that keeps these leaves a running command at a place of its program. -/
theorem Port.runOk_tail (h : p.runOk i (op :: rest)) (hop : op.plain = true) (hc : p.ControlEq i q) :
    q.runOk i rest := by
  have hrest := rest_of_plain (headOk_of_runOk h) hop
  obtain ⟨⟨q', hsuf⟩, hkeys, hl, hf⟩ := h
  refine ⟨⟨q', (List.suffix_cons op rest).trans hsuf⟩, fun d hd => hc.key d hd ▸ hkeys d hd, ?_, fun hq => ?_⟩
  · rw [hc.live, hl]
    cases i with
    | init => cases op <;> simp_all [Port.liveWritten, MicroOp.plain]
    | free => cases op <;> simp_all [Port.liveWritten, MicroOp.plain]
    | _ => rfl
  · obtain ⟨hi, -, ha, hr⟩ := hf (hc.failed ▸ hq)
    exact ⟨hi, (hrest hi).1, fun hm => ha (List.mem_cons_of_mem op hm), fun hm => hr (List.mem_cons_of_mem op hm)⟩

/-- Such a step keeps the port's reference (R40). -/
theorem Port.holdsRef_tail (h : p.runOk i (op :: rest)) (hp : p.seq = .run i (op :: rest))
    (hop : op.plain = true) (hq : q.seq = .run i rest) (hc : p.ControlEq i q) : q.holdsRef = p.holdsRef := by
  have hrest := rest_of_plain (headOk_of_runOk h) hop
  have ha : MicroOp.acquire ≠ op := by rintro rfl; cases hop
  have hr : MicroOp.release ≠ op := by rintro rfl; cases hop
  cases i <;> simp_all [Port.holdsRef, hc.live, hc.failed]

end

/-! ### What the invariant says of one view -/

/-- What the invariant says of the view of port `c`: its sequencer, its place in the lock span, the engine and memory. -/
structure View.Ok (ps : Params) (c : Nat) (v : View) : Prop where
  seq : v.port.seqOk
  span : ∃ st : Span, spanOk st v.port.todo = true ∧ st.fits c v.port v.eng
  enabled : v.eng.enabled = true ↔ 0 < v.eng.refcount
  mem : v.mem.wf ps.aw = true
  widths : v.port.len < 2 ^ ps.lenw ∧ v.port.src < 2 ^ ps.aw ∧ v.port.dst < 2 ^ ps.aw

/-- What a step of port `c` from `v` to `w` owes the other ports: it takes the lock from none of them and gives it to
none, it installs a key only while `c` holds the lock, and `REFCOUNT` moves with the reference `c` holds (R40, R72). -/
structure View.Owes (c : Nat) (v w : View) : Prop where
  lock : ∀ d, d ≠ c → (w.eng.lock = .held d ↔ v.eng.lock = .held d)
  active : w.eng.active = v.eng.active ∨ v.eng.lock = .held c
  refs : w.eng.refcount + v.port.holdsRef.toNat = v.eng.refcount + w.port.holdsRef.toNat

/-- What a step of port `c` from `v` comes to, for the invariant to last: a next view in which it holds, and nothing owed
to the other ports. -/
def View.Keeps (ps : Params) (c : Nat) (v : View) (o : Host.Outcome View Fault Refusal) : Prop :=
  ∃ w, o = .next w ∧ w.Ok ps c ∧ v.Owes c w

section
variable {ps : Params} {c : Nat} {v w : View} {i : Instr} {op : MicroOp} {rest : List MicroOp}

/-- A step that changes no shared state owes the other ports nothing, if the port's reference stays. -/
theorem View.owes_of_eng_eq (he : w.eng = v.eng) (hr : w.port.holdsRef = v.port.holdsRef) :
    v.Owes c w :=
  ⟨fun d _ => by rw [he], .inl (by rw [he]), by rw [he, hr]⟩

/-- Where no step of a unit is left, the port is outside every lock span. -/
theorem View.Ok.out_of_todo_nil (h : v.Ok ps c) (ht : v.port.todo = []) : v.eng.lock ≠ .held c := by
  obtain ⟨st, hs, hfit⟩ := h.span
  rw [ht] at hs
  cases st with
  | out => exact hfit
  | held => cases hs
  | ready d => cases hs

/-- A step of a port's own registers outside every lock span keeps the invariant. -/
theorem View.Ok.withPort {q : Port} (h : v.Ok ps c) (hl : v.eng.lock ≠ .held c) (hq : q.seqOk)
    (hspan : spanOk .out q.todo = true)
    (hw : q.len < 2 ^ ps.lenw ∧ q.src < 2 ^ ps.aw ∧ q.dst < 2 ^ ps.aw) :
    View.Ok ps c { v with port := q } :=
  ⟨hq, ⟨.out, hspan, hl⟩, h.enabled, h.mem, hw⟩

/-- So does one that leaves the data registers and the port's reference as they are. -/
theorem View.Ok.place_step {q : Port} (h : v.Ok ps c) (hl : v.eng.lock ≠ .held c) (hq : q.seqOk)
    (hspan : spanOk .out q.todo = true) (hw : q.len = v.port.len ∧ q.src = v.port.src ∧ q.dst = v.port.dst)
    (href : q.holdsRef = v.port.holdsRef) :
    View.Ok ps c { v with port := q } ∧ v.Owes c { v with port := q } := by
  obtain ⟨hlen, hsrc, hdst⟩ := hw
  refine ⟨h.withPort hl hq hspan ?_, View.owes_of_eng_eq rfl href⟩
  rw [hlen, hsrc, hdst]
  exact h.widths

/-- A plain step keeps the invariant, if it keeps the count, fits the lock span, and takes the lock and the installed
key from no other port. -/
theorem View.Ok.plain_step (h : v.Ok ps c) (hp : v.port.seq = .run i (op :: rest)) (hop : op.plain = true)
    (hq : w.port.seq = .run i rest) (hc : v.port.ControlEq i w.port) (hmem : w.mem.wf ps.aw = true)
    (hcount : w.eng.refcount = v.eng.refcount) (hen : w.eng.enabled = v.eng.enabled)
    (hspan : ∃ st : Span, spanOk st rest = true ∧ st.fits c w.port w.eng)
    (hlock : ∀ d, d ≠ c → (w.eng.lock = .held d ↔ v.eng.lock = .held d))
    (hact : w.eng.active = v.eng.active ∨ v.eng.lock = .held c) : w.Ok ps c ∧ v.Owes c w := by
  have hrun := (Port.seqOk_run hp).1 h.seq
  refine ⟨⟨(Port.seqOk_run hq).2 (Port.runOk_tail hrun hop hc), ?_, ?_, hmem, ?_⟩, hlock, hact, ?_⟩
  · rwa [Port.todo_run hq]
  · rw [hen, hcount, h.enabled]
  · rw [hc.len, hc.src, hc.dst]; exact h.widths
  · rw [hcount, Port.holdsRef_tail hrun hp hop hq hc]

end

/-! ### The steps of a unit -/

section
variable {prim : BlockPrimitive} {ps : Params} {c : Nat} {v : View} {i : Instr} {rest : List MicroOp}

/-- A step that takes no part in a lock span (R129). -/
def MicroOp.outside : MicroOp → Bool
  | .memRead _ => true
  | .memWrite _ => true
  | .reg _ => true
  | .setLive _ => true
  | .conclude => true
  | .complete => true
  | .take => false
  | .install _ => false
  | .transform _ => false
  | .give => false
  | .acquire => false
  | .release => false

/-- Such a step finds its port outside every lock span, and the rest starts there too. -/
theorem View.Ok.out_of_head {op : MicroOp} (h : v.Ok ps c) (hp : v.port.seq = .run i (op :: rest))
    (hop : op.outside = true) : v.eng.lock ≠ .held c ∧ spanOk .out rest = true := by
  obtain ⟨st, hs, hfit⟩ := h.span
  rw [Port.todo_run hp] at hs
  cases st with
  | out => exact ⟨hfit, by cases op <;> simp_all [spanOk, MicroOp.outside]⟩
  | held => cases op <;> simp_all [spanOk, MicroOp.outside]
  | ready d => cases op <;> simp_all [spanOk, MicroOp.outside]

/-- A plain step of the port's own registers and of memory keeps the invariant. -/
theorem View.Ok.own_step {op : MicroOp} {q : Port} {m : Memory} (h : v.Ok ps c)
    (hp : v.port.seq = .run i (op :: rest)) (hop : op.plain = true)
    (hout : op.outside = true)
    (hq : q.seq = .run i rest) (hc : v.port.ControlEq i q) (hmem : m.wf ps.aw = true) :
    View.Ok ps c { v with port := q, mem := m } ∧ v.Owes c { v with port := q, mem := m } := by
  obtain ⟨hlock, hrest⟩ := h.out_of_head hp hout
  exact h.plain_step hp hop hq hc hmem rfl rfl ⟨.out, hrest, hlock⟩ (fun _ _ => Iff.rfl) (.inl rfl)

theorem Port.controlEq_withSeq (i : Instr) (p : Port) (q : Seq) : p.ControlEq i (p.withSeq q) :=
  ⟨rfl, rfl, fun d _ => Port.withSeq_record p q d, rfl, rfl, rfl⟩

/-- `INIT`'s change of the count: one more reference, which enables the engine if it is the first, or a failure that
changes nothing (R123, R125). -/
theorem acquireStep_cases (ps : Params) (v : View) :
    acquireStep ps v
        = { v with
            port := v.port.withFailed false
            eng := { v.eng with
              refcount := v.eng.refcount + 1
              enabled := if v.eng.refcount = 0 then true else v.eng.enabled } }
      ∨ acquireStep ps v = { v with port := v.port.withFailed true } := by
  unfold acquireStep
  by_cases h0 : v.eng.refcount = 0 <;> cases ps.enableOk <;> simp [h0]

/-- `FREE`'s change of the count: one reference less, which disables the engine if none is left, or a failure that
changes nothing (R124, R125). -/
theorem releaseStep_cases (ps : Params) (v : View) :
    releaseStep ps v
        = { v with
            port := v.port.withFailed false
            eng := { v.eng with
              refcount := v.eng.refcount - 1
              enabled := if v.eng.refcount - 1 = 0 then false else v.eng.enabled } }
      ∨ releaseStep ps v = { v with port := v.port.withFailed true } := by
  unfold releaseStep
  by_cases h0 : v.eng.refcount - 1 = 0 <;> cases ps.disableOk <;> simp [h0]

variable (h : v.Ok ps c)
include h

theorem perform_memRead_keeps {j : Fin 16} (hp : v.port.seq = .run i (.memRead j :: rest)) :
    v.Keeps ps c (perform prim ps c (.memRead j) { v with port := v.port.withSeq (.run i rest) }) :=
  ⟨_, rfl, h.own_step hp rfl rfl rfl
    ⟨rfl, rfl, fun d _ => by cases d <;> rfl, rfl, rfl, rfl⟩ h.mem⟩

theorem perform_memWrite_keeps {j : Fin 16} (hp : v.port.seq = .run i (.memWrite j :: rest)) :
    v.Keeps ps c (perform prim ps c (.memWrite j) { v with port := v.port.withSeq (.run i rest) }) :=
  ⟨_, rfl, h.own_step hp rfl rfl rfl
    (Port.controlEq_withSeq i v.port _) (Memory.wf_write _ _ h.mem)⟩

theorem perform_reg_keeps {r : RegOp} (hp : v.port.seq = .run i (.reg r :: rest)) :
    v.Keeps ps c (perform prim ps c (.reg r) { v with port := v.port.withSeq (.run i rest) }) := by
  have hhead := headOk_of_runOk ((Port.seqOk_run hp).1 h.seq)
  refine ⟨_, rfl, h.own_step hp rfl rfl (by simp)
    ⟨by simp, by simp, fun d hd => ?_, by simp, by simp, by simp⟩ h.mem⟩
  exact (RegOp.apply_record _ hd hhead).trans (Port.withSeq_record _ _ d)

/-- `take` (R72): the lock was free, so no other port held it. -/
theorem perform_take_keeps (hp : v.port.seq = .run i (.take :: rest)) (hfree : v.eng.lock = .free) :
    v.Keeps ps c (perform prim ps c .take { v with port := v.port.withSeq (.run i rest) }) := by
  obtain ⟨st, hs, -⟩ := h.span
  rw [Port.todo_run hp] at hs
  refine ⟨_, rfl, h.plain_step hp rfl rfl (Port.controlEq_withSeq i v.port _) h.mem rfl rfl
    ⟨.held, ?_, rfl⟩ (fun d hd => ?_) (.inl rfl)⟩
  · cases st with
    | out => exact hs
    | held => cases hs
    | ready d => cases hs
  · simp [hfree, Ne.symm hd]

/-- `installKey` (R130): the key record is set, and becomes `ACTIVE` under the port's own lock. -/
theorem perform_install_keeps {d : Dir} (hp : v.port.seq = .run i (.install d :: rest)) :
    v.Keeps ps c (perform prim ps c (.install d) { v with port := v.port.withSeq (.run i rest) }) := by
  have hrun := (Port.seqOk_run hp).1 h.seq
  have hhead := headOk_of_runOk hrun
  obtain ⟨-, hkeys, -⟩ := hrun
  obtain ⟨st, hs, hfit⟩ := h.span
  rw [Port.todo_run hp] at hs
  obtain ⟨hlock, hrest⟩ : v.eng.lock = .held c ∧ spanOk (.ready d) rest = true := by
    cases st with
    | out => cases hs
    | held => exact ⟨hfit, hs⟩
    | ready d => cases hs
  have hdir : Instr.keyDir i = some d := by simp_all [headOk]
  cases hk : v.port.record d with
  | unset => simpa [hk, KeyRecord.present] using hkeys d hdir
  | set k =>
    refine ⟨{ v with port := v.port.withSeq (.run i rest), eng := { v.eng with active := some (d, k) } },
      by simp [perform, hk], ?_⟩
    exact h.plain_step hp rfl rfl (Port.controlEq_withSeq i v.port _) h.mem rfl rfl
      ⟨.ready d, hrest, hlock, k, by simpa using hk, rfl⟩ (fun _ _ => Iff.rfl) (.inr hlock)

/-- `transformBlock` (R129, R130): the port's own key of that direction is installed. -/
theorem perform_transform_keeps {d : Dir} (hp : v.port.seq = .run i (.transform d :: rest)) :
    v.Keeps ps c (perform prim ps c (.transform d) { v with port := v.port.withSeq (.run i rest) }) := by
  obtain ⟨st, hs, hfit⟩ := h.span
  rw [Port.todo_run hp] at hs
  cases st with
  | out => cases hs
  | held => cases hs
  | ready d' =>
    obtain ⟨rfl, hrest⟩ : d = d' ∧ spanOk (.ready d') rest = true := by simpa [spanOk] using hs
    obtain ⟨hlock, k, hk, hact⟩ := hfit
    refine ⟨{ v with port := { v.port.withSeq (.run i rest) with
        scratch := { v.port.scratch with blk := prim.transform d k v.port.scratch.blk } } },
      by simp [perform, hact], ?_⟩
    have hrec : ∀ e, ({ v.port.withSeq (.run i rest) with
        scratch := { v.port.scratch with blk := prim.transform d k v.port.scratch.blk } } : Port).record e
          = v.port.record e := fun e => by cases e <;> rfl
    exact h.plain_step hp rfl rfl ⟨rfl, rfl, fun e _ => hrec e, rfl, rfl, rfl⟩ h.mem rfl rfl
      ⟨.ready d, hrest, hlock, k, (hrec d).trans hk, hact⟩ (fun _ _ => Iff.rfl) (.inl rfl)

/-- `give` (R72): the port itself held the lock. -/
theorem perform_give_keeps (hp : v.port.seq = .run i (.give :: rest)) (hheld : v.eng.lock = .held c) :
    v.Keeps ps c (perform prim ps c .give { v with port := v.port.withSeq (.run i rest) }) := by
  obtain ⟨st, hs, -⟩ := h.span
  rw [Port.todo_run hp] at hs
  refine ⟨_, rfl, h.plain_step hp rfl rfl (Port.controlEq_withSeq i v.port _) h.mem rfl rfl
    ⟨.out, ?_, fun hl => by cases hl⟩ (fun d hd => ?_) (.inl rfl)⟩
  · cases st with
    | out => cases hs
    | held => exact hs
    | ready d => exact hs
  · simp [hheld, Ne.symm hd]

/-- A change of the reference count inside the port's own lock span keeps the invariant, if the count moves with the
port's reference and the engine is enabled iff the count is not 0. -/
theorem View.Ok.count_step {op : MicroOp} {q : Port} {e : Engine}
    (hp : v.port.seq = .run i (op :: rest)) (hop : op = .acquire ∨ op = .release)
    (hq : q.seq = .run i rest) (hrun : q.runOk i rest)
    (hw : q.len = v.port.len ∧ q.src = v.port.src ∧ q.dst = v.port.dst)
    (hlock : e.lock = v.eng.lock) (hact : e.active = v.eng.active)
    (hen : e.enabled = true ↔ 0 < e.refcount)
    (hrefs : e.refcount + v.port.holdsRef.toNat = v.eng.refcount + q.holdsRef.toNat) :
    View.Ok ps c { v with port := q, eng := e } ∧ v.Owes c { v with port := q, eng := e } := by
  obtain ⟨st, hs, hfit⟩ := h.span
  rw [Port.todo_run hp] at hs
  obtain ⟨rfl, hrest⟩ : st = .held ∧ spanOk .held rest = true := by
    rcases hop with rfl | rfl <;> cases st <;> simp_all [spanOk]
  refine ⟨⟨(Port.seqOk_run hq).2 hrun, ⟨.held, ?_, hlock.trans hfit⟩, hen, h.mem, ?_⟩,
    fun _ _ => by rw [hlock], .inl hact, hrefs⟩
  · rwa [Port.todo_run hq]
  · obtain ⟨hlen, hsrc, hdst⟩ := hw
    rw [hlen, hsrc, hdst]
    exact h.widths

/-- The 0 to 1 transition of `INIT` enables the engine, or is rolled back (R123). -/
theorem perform_acquire_keeps (hp : v.port.seq = .run i (.acquire :: rest)) :
    v.Keeps ps c (perform prim ps c .acquire { v with port := v.port.withSeq (.run i rest) }) := by
  have hrun := (Port.seqOk_run hp).1 h.seq
  have hkeeps := fun b => Port.runOk_counted b hrun (.inl rfl)
  obtain ⟨rfl, rfl⟩ : i = .init ∧ rest = [.give, .setLive true, .conclude] := by
    simpa [headOk] using headOk_of_runOk hrun
  have hnone : v.port.holdsRef = false := by simp [Port.holdsRef, hp]
  refine ⟨_, rfl, ?_⟩
  rcases acquireStep_cases ps { v with port := v.port.withSeq (.run .init [.give, .setLive true, .conclude]) }
    with heq | heq <;> rw [heq]
  · have hen : (if v.eng.refcount = 0 then true else v.eng.enabled) = true ↔ 0 < v.eng.refcount + 1 := by
      have := h.enabled
      split <;> simp_all [Nat.pos_iff_ne_zero]
    exact h.count_step hp (.inl rfl) rfl (hkeeps false) ⟨rfl, rfl, rfl⟩ rfl rfl hen (by rw [hnone]; rfl)
  · exact h.count_step hp (.inl rfl) rfl (hkeeps true) ⟨rfl, rfl, rfl⟩ rfl rfl h.enabled (by rw [hnone]; rfl)

/-- The 1 to 0 transition of `FREE` disables the engine, or is rolled back (R124); the port held a reference. -/
theorem perform_release_keeps (hp : v.port.seq = .run i (.release :: rest))
    (hr : v.port.holdsRef = true → 0 < v.eng.refcount) :
    v.Keeps ps c (perform prim ps c .release { v with port := v.port.withSeq (.run i rest) }) := by
  have hrun := (Port.seqOk_run hp).1 h.seq
  have hkeeps := fun b => Port.runOk_counted b hrun (.inr rfl)
  obtain ⟨rfl, rfl⟩ : i = .free ∧ rest = [.give, .setLive false, .conclude] := by
    simpa [headOk] using headOk_of_runOk hrun
  have hone : v.port.holdsRef = true := by simp [Port.holdsRef, hp]
  have hpos := hr hone
  refine ⟨_, rfl, ?_⟩
  rcases releaseStep_cases ps { v with port := v.port.withSeq (.run .free [.give, .setLive false, .conclude]) }
    with heq | heq <;> rw [heq]
  · have hen : (if v.eng.refcount - 1 = 0 then false else v.eng.enabled) = true ↔ 0 < v.eng.refcount - 1 := by
      have := h.enabled.2 hpos
      by_cases h1 : v.eng.refcount - 1 = 0 <;> simp [h1, this]
      omega
    exact h.count_step hp (.inr rfl) rfl (hkeeps false) ⟨rfl, rfl, rfl⟩ rfl rfl hen
      (by rw [hone]; exact Nat.sub_add_cancel hpos)
  · exact h.count_step hp (.inr rfl) rfl (hkeeps true) ⟨rfl, rfl, rfl⟩ rfl rfl h.enabled (by rw [hone]; rfl)

/-- `LIVE` of `INIT` and `FREE` is written unless the count change failed (R123, R124). -/
theorem perform_setLive_keeps {b : Bool} (hp : v.port.seq = .run i (.setLive b :: rest)) :
    v.Keeps ps c (perform prim ps c (.setLive b) { v with port := v.port.withSeq (.run i rest) }) := by
  have hrun := (Port.seqOk_run hp).1 h.seq
  obtain ⟨hib, rfl⟩ : (i = .init ∧ b = true ∨ i = .free ∧ b = false) ∧ rest = [.conclude] := by
    simpa [headOk] using headOk_of_runOk hrun
  have hseq : ((v.port.withSeq (.run i [.conclude])).setLive b).seq = .run i [.conclude] := by
    unfold Port.setLive; split <;> rfl
  have hfld : ((v.port.withSeq (.run i [.conclude])).setLive b).scratch = v.port.scratch := by
    unfold Port.setLive; split <;> rfl
  obtain ⟨⟨q, hsuf⟩, -, hlive, hfailed⟩ := hrun
  obtain ⟨hlock, -⟩ := h.out_of_head hp rfl
  refine ⟨_, rfl, h.place_step hlock
    ((Port.seqOk_run hseq).2 ⟨⟨q, (List.suffix_cons _ _).trans hsuf⟩, ?_, ?_, fun _ => ⟨?_, by simp⟩⟩)
    (by rw [Port.todo_run hseq]; rfl) ?_ ?_⟩
  · rcases hib with ⟨rfl, rfl⟩ | ⟨rfl, rfl⟩ <;> intro d hd <;> cases hd
  · rcases hib with ⟨rfl, rfl⟩ | ⟨rfl, rfl⟩ <;> cases hf : v.port.scratch.failed <;>
      simp_all [Port.liveWritten, Port.setLive]
  · rcases hib with ⟨rfl, rfl⟩ | ⟨rfl, rfl⟩ <;> simp
  · unfold Port.setLive; split <;> exact ⟨rfl, rfl, rfl⟩
  · rcases hib with ⟨rfl, rfl⟩ | ⟨rfl, rfl⟩ <;> simp [Port.holdsRef, hp, hseq, hfld]

/-- The result of `INIT` and `FREE` (R123, R124): `LIVE` says by now whether the port holds a reference. -/
theorem perform_conclude_keeps (hp : v.port.seq = .run i (.conclude :: rest)) :
    v.Keeps ps c (perform prim ps c .conclude { v with port := v.port.withSeq (.run i rest) }) := by
  have hrun := (Port.seqOk_run hp).1 h.seq
  obtain ⟨hi, rfl⟩ : (i = .init ∨ i = .free) ∧ rest = [] := by
    simpa [headOk] using headOk_of_runOk hrun
  obtain ⟨-, -, hlive, -⟩ := hrun
  obtain ⟨hlock, hspan⟩ := h.out_of_head hp rfl
  refine ⟨_, rfl, h.place_step hlock ?_ hspan ⟨rfl, rfl, rfl⟩ ?_⟩
  · show (if v.port.scratch.failed then Result.engineUnavailable else .ok) ∈ resultsOf (some i)
    rcases hi with rfl | rfl <;> cases v.port.scratch.failed <;> decide
  · show v.port.live = v.port.holdsRef
    rcases hi with rfl | rfl <;> simp [Port.holdsRef, hp, hlive, Port.liveWritten]

/-- `complete Ok` (R245): `Ok` is a result of every command that ends so (R252). -/
theorem perform_complete_keeps (hp : v.port.seq = .run i (.complete :: rest)) :
    v.Keeps ps c (perform prim ps c .complete { v with port := v.port.withSeq (.run i rest) }) := by
  have hrun := (Port.seqOk_run hp).1 h.seq
  obtain ⟨⟨hinit, hfree⟩, rfl⟩ : (i ≠ .init ∧ i ≠ .free) ∧ rest = [] := by
    simpa [headOk] using headOk_of_runOk hrun
  obtain ⟨hlock, hspan⟩ := h.out_of_head hp rfl
  refine ⟨_, rfl, h.place_step hlock ?_ hspan ⟨rfl, rfl, rfl⟩ ?_⟩
  · show Result.ok ∈ resultsOf (some i)
    cases i <;> decide
  · cases i <;> simp_all [Port.holdsRef]

/-- Every step of a running command that can be taken keeps the invariant, and none stops the machine. -/
theorem perform_keeps {op : MicroOp} (hp : v.port.seq = .run i (op :: rest)) (he : op.enabled c v.eng = true)
    (hr : v.port.holdsRef = true → 0 < v.eng.refcount) :
    v.Keeps ps c (perform prim ps c op { v with port := v.port.withSeq (.run i rest) }) := by
  cases op with
  | memRead j => exact perform_memRead_keeps h hp
  | memWrite j => exact perform_memWrite_keeps h hp
  | reg r => exact perform_reg_keeps h hp
  | take => exact perform_take_keeps h hp (by simpa [MicroOp.enabled] using he)
  | install d => exact perform_install_keeps h hp
  | transform d => exact perform_transform_keeps h hp
  | give => exact perform_give_keeps h hp (by simpa [MicroOp.enabled] using he)
  | acquire => exact perform_acquire_keeps h hp
  | release => exact perform_release_keeps h hp hr
  | setLive b => exact perform_setLive_keeps h hp
  | conclude => exact perform_conclude_keeps h hp
  | complete => exact perform_complete_keeps h hp

end

/-! ### Validation (R246, R252) -/

theorem firstFailure_eq_none_iff {l : List (Option Result)} : firstFailure l = none ↔ ∀ x ∈ l, x = none := by
  induction l with
  | nil => simp
  | cons x l ih => cases x <;> simp [firstFailure, ih]

theorem mem_of_firstFailure {l : List (Option Result)} {k : Result} (h : firstFailure l = some k) :
    some k ∈ l := by
  induction l with
  | nil => cases h
  | cons x l ih =>
    cases x with
    | none => exact List.mem_cons_of_mem _ (ih h)
    | some a => cases h; exact List.mem_cons_self

/-- The life-cycle check of a command (R247). -/
def lifeCheck (i : Instr) (p : Port) : Option Result := if i = .init then checkNotLive p else checkLive p

/-- The operand check of a command, if it has one (R241, R242). -/
def operandCheck (i : Instr) (p : Port) : Option Result :=
  match i with
  | .setkeyDec => checkKeyBits p
  | .setkeyEnc => checkKeyBits p
  | .cbcDec => checkLength p
  | .cbcEnc => checkLength p
  | _ => none

/-- The key check of a command that issues block units (R243). -/
def keyCheck (i : Instr) (p : Port) : Option Result := (Instr.keyDir i).bind (checkKey p)

theorem firstFailure_pair_none (x : Option Result) : firstFailure [x, none] = firstFailure [x] := by
  cases x <;> rfl

/-- The checks of a command are in the order life cycle, operands, key (R246). -/
theorem check_eq (i : Instr) (p : Port) :
    Instr.check i p = firstFailure [lifeCheck i p, operandCheck i p, keyCheck i p] := by
  cases i with
  | init => cases h : checkNotLive p <;> simp [Instr.check, initCheck, lifeCheck, operandCheck, keyCheck,
      Instr.keyDir, firstFailure, h]
  | _ => cases h : checkLive p <;> simp [Instr.check, freeCheck, setkeyDecCheck, setkeyEncCheck, ecbDecCheck,
      ecbEncCheck, cbcDecCheck, cbcEncCheck, cfb128DecCheck, cfb128EncCheck, cfb8DecCheck, cfb8EncCheck, ctrCheck,
      lifeCheck, operandCheck, keyCheck, Instr.keyDir, firstFailure, firstFailure_pair_none, h]

theorem check_eq_none_iff {i : Instr} {p : Port} :
    Instr.check i p = none ↔ lifeCheck i p = none ∧ operandCheck i p = none ∧ keyCheck i p = none := by
  simp [check_eq, firstFailure_eq_none_iff]

/-- A check that fails raises a result listed for its command. -/
theorem check_result {i : Instr} {p : Port} {k : Result} (h : Instr.check i p = some k) :
    k ∈ resultsOf (some i) := by
  rw [check_eq] at h
  have hmem := mem_of_firstFailure h
  simp only [List.mem_cons, List.not_mem_nil, or_false] at hmem
  rcases hmem with hl | ho | hk
  · obtain rfl : k = .contextState := by
      unfold lifeCheck checkNotLive checkLive at hl
      split at hl <;> split at hl <;> simp_all
    cases i <;> decide
  · unfold operandCheck checkKeyBits checkLength at ho
    cases i <;> simp_all [resultsOf]
  · obtain ⟨d, hd, hkey⟩ := Option.bind_eq_some_iff.1 hk.symm
    obtain rfl : k = .keyNotSet := by
      unfold checkKey at hkey
      split at hkey <;> cases hkey
      rfl
    cases i <;> simp_all [resultsOf, Instr.keyDir]

/-- A validated command finds its port live, unless it is `INIT` (R247). -/
theorem live_of_check {i : Instr} {p : Port} (h : Instr.check i p = none) : p.live = !decide (i = .init) := by
  obtain ⟨hl, -, -⟩ := check_eq_none_iff.1 h
  unfold lifeCheck checkNotLive checkLive at hl
  split at hl <;> simp_all

/-- A validated command finds the key record it needs set (R132, R243). -/
theorem key_of_check {i : Instr} {p : Port} {d : Dir} (h : Instr.check i p = none) (hd : Instr.keyDir i = some d) :
    (p.record d).present = true := by
  obtain ⟨-, -, hk⟩ := check_eq_none_iff.1 h
  simpa [keyCheck, hd, checkKey] using hk

/-! ### One step of a sequencer -/

section
variable {prim : BlockPrimitive} {ps : Params} {c : Nat} {v : View}

/-- A validated command is at the first loop head of its program (R91, R246). -/
theorem Port.runOk_of_check {i : Instr} {p : Port} (h : Instr.check i p = none) (hf : p.scratch.failed = false) :
    (p.withSeq (.run i [])).runOk i [] := by
  refine ⟨⟨p, List.nil_suffix⟩, fun d hd => ?_, ?_, fun hq => ?_⟩
  · rw [Port.withSeq_record]
    exact key_of_check h hd
  · rw [Port.withSeq_live, live_of_check h]
    cases i <;> rfl
  · rw [Port.withSeq_scratch, hf] at hq
    cases hq

/-- At a loop head the program is read (R38). -/
theorem Port.runOk_program {i : Instr} {p : Port} (h : p.runOk i []) :
    (p.withSeq (.run i (Instr.program i p))).runOk i (Instr.program i p) := by
  obtain ⟨-, hkeys, hlive, hfailed⟩ := h
  have hf : p.scratch.failed = false := by
    cases hf : p.scratch.failed with
    | false => rfl
    | true => exact absurd rfl (hfailed hf).2.1
  refine ⟨⟨p, List.suffix_rfl⟩, fun d hd => ?_, ?_, fun hq => ?_⟩
  · rw [Port.withSeq_record]
    exact hkeys d hd
  · rw [Port.withSeq_live, hlive]
    cases i <;> rfl
  · rw [Port.withSeq_scratch, hf] at hq
    cases hq

/-- Every step of a port's sequencer keeps the invariant and pays what it owes, and none stops the machine. -/
theorem microStep_keeps (h : v.Ok ps c) (hr : v.port.holdsRef = true → 0 < v.eng.refcount) :
    v.Keeps ps c (microStep prim ps c v) := by
  have hseq := h.seq
  cases hs : v.port.seq with
  | idle => exact ⟨v, by simp [microStep, hs], h, View.owes_of_eng_eq rfl rfl⟩
  | decoded o =>
    have ht : v.port.todo = [] := by simp [Port.todo, hs]
    have hf : v.port.scratch.failed = false := by simpa [Port.seqOk, hs] using hseq
    have hlive : v.port.holdsRef = v.port.live := by simp [Port.holdsRef, hs]
    have hcmd : v.port.command = o := by simp [Port.command, hs]
    have hout := h.out_of_todo_nil ht
    cases o with
    | none =>
      refine ⟨{ v with port := v.port.setResult .illegalCommand }, by simp [microStep, hs], ?_⟩
      refine h.place_step hout ?_ rfl ⟨rfl, rfl, rfl⟩ hlive.symm
      rw [Port.seqOk_ending rfl, hcmd]
      exact List.mem_singleton_self _
    | some i =>
      cases hk : Instr.check i v.port with
      | some k =>
        refine ⟨{ v with port := v.port.setResult k }, by simp [microStep, hs, hk], ?_⟩
        refine h.place_step hout ?_ rfl ⟨rfl, rfl, rfl⟩ hlive.symm
        rw [Port.seqOk_ending rfl, hcmd]
        exact check_result hk
      | none =>
        refine ⟨{ v with port := v.port.withSeq (.run i []) }, by simp [microStep, hs, hk], ?_⟩
        refine h.place_step hout ((Port.seqOk_run rfl).2 (Port.runOk_of_check hk hf)) rfl ⟨rfl, rfl, rfl⟩ ?_
        rw [hlive, live_of_check hk]
        cases i <;> simp [Port.holdsRef, live_of_check hk]
  | run i todo =>
    cases todo with
    | nil =>
      have hrun := (Port.seqOk_run hs).1 hseq
      obtain ⟨-, hspan, hne⟩ := Instr.program_ok i v.port
      refine ⟨{ v with port := v.port.withSeq (.run i (Instr.program i v.port)) }, by simp [microStep, hs], ?_⟩
      refine h.place_step (h.out_of_todo_nil (Port.todo_run hs))
        ((Port.seqOk_run rfl).2 (Port.runOk_program hrun)) hspan ⟨rfl, rfl, rfl⟩ ?_
      cases i <;> simp [Port.holdsRef, hs, Instr.program, initProgram, freeProgram]
    | cons op rest =>
      cases he : op.enabled c v.eng with
      | true =>
        obtain ⟨w, hw, hkeeps⟩ := perform_keeps (prim := prim) h hs he hr
        exact ⟨w, by simpa [microStep, hs, he] using hw, hkeeps⟩
      | false => exact ⟨v, by simp [microStep, hs, he], h, View.owes_of_eng_eq rfl rfl⟩
  | ending o =>
    refine ⟨{ v with port := v.port.clearBusy }, by simp [microStep, hs], ?_⟩
    exact h.place_step (h.out_of_todo_nil (by simp [Port.todo, hs])) (by simp [Port.seqOk, Scratch.empty]) rfl
      ⟨rfl, rfl, rfl⟩ (by simp [Port.holdsRef, hs])

end

end Sys2Proof.Machine
end

section
/-! Every event keeps the invariant of the machine, and none that exists stops it (spec/20_memory.md rules R72 to R74;
spec/30_encoding.md rule R99): a call is a run of atomic steps of its port, and each of them keeps the invariant. -/

namespace Sys2Proof.Machine

/-! ### The invariant of the machine, through one port's view -/

section
variable {s : State} {c : Nat} {p : Port} {v w : View}

/-- The agenda, the called port and the byte the host holds take no part in the invariant. -/
theorem State.Inv.host_fields (h : s.Inv) (cur : Nat) (agenda : List Event) (b : Byte) :
    ({ s with cur := cur, agenda := agenda, rdata := b } : State).Inv :=
  ⟨h.seq, h.lock, h.ref, h.mem, h.widths, h.ports, h.params⟩

/-- The machine is its own port's view put back. -/
theorem State.putView_self (h : s.ports[c]? = some p) :
    s.putView c { port := p, eng := s.engine, mem := s.mem } = s := by
  obtain ⟨hlt, rfl⟩ := List.getElem?_eq_some_iff.1 h
  simp [State.putView]

/-- The invariant holds of the view of each port. -/
theorem State.Inv.view_ok (h : s.Inv) (hp : s.ports[c]? = some p) :
    View.Ok s.params c { port := p, eng := s.engine, mem := s.mem } := by
  obtain ⟨hseq, hspan⟩ := h.seq c p hp
  exact ⟨hseq, hspan, h.ref.2, h.mem, h.widths p (List.mem_of_getElem? hp)⟩

/-- A port that holds a reference is counted (R40). -/
theorem State.Inv.refcount_pos (h : s.Inv) (hp : s.ports[c]? = some p) (hr : p.holdsRef = true) :
    0 < s.engine.refcount := by
  rw [h.ref.1]
  exact List.countP_pos_iff.2 ⟨p, List.mem_of_getElem? hp, hr⟩

/-- The place of another port in its lock span fits the shared state after a step that pays what it owes. -/
theorem Span.fits_of_owes {d : Nat} {q : Port} {st : Span} (hd : d ≠ c) (ho : v.Owes c w)
    (h : st.fits d q v.eng) : st.fits d q w.eng := by
  have hlock := ho.lock d hd
  cases st with
  | out => exact fun hl => h (hlock.1 hl)
  | held => exact hlock.2 h
  | ready e =>
    obtain ⟨hl, k, hk, ha⟩ := h
    refine ⟨hlock.2 hl, k, hk, ?_⟩
    rcases ho.active with hact | hc
    · rw [hact, ha]
    · rw [hl] at hc
      exact absurd (Lock.held.inj hc) hd

/-- The references after one port is replaced. -/
theorem State.refs_set (hp : s.ports[c]? = some p) (q : Port) :
    (s.ports.set c q).countP Port.holdsRef + p.holdsRef.toNat = s.refs + q.holdsRef.toNat := by
  obtain ⟨hlt, rfl⟩ := List.getElem?_eq_some_iff.1 hp
  have hpos : s.ports[c].holdsRef = true → 0 < s.refs := fun hr =>
    List.countP_pos_iff.2 ⟨_, List.getElem_mem hlt, hr⟩
  rw [List.countP_set hlt]
  unfold State.refs at hpos ⊢
  cases hx : s.ports[c].holdsRef with
  | false => cases q.holdsRef <;> rfl
  | true =>
    have := hpos hx
    cases q.holdsRef <;> simp <;> omega

/-- A step of one port's view that keeps that port's part of the invariant and pays what it owes the others keeps the
invariant of the machine. -/
theorem State.Inv.of_view (h : s.Inv) (hp : s.ports[c]? = some p)
    (hw : w.Ok s.params c) (ho : View.Owes c { port := p, eng := s.engine, mem := s.mem } w) :
    (s.putView c w).Inv where
  seq := by
    intro d q hq
    by_cases hd : d = c
    · subst hd
      rw [State.putView_port_self w hp] at hq
      cases hq
      exact ⟨hw.seq, hw.span⟩
    · rw [State.putView_port_other w (Ne.symm hd)] at hq
      obtain ⟨hseq, st, hs, hfit⟩ := h.seq d q hq
      exact ⟨hseq, st, hs, Span.fits_of_owes hd ho hfit⟩
  lock := by
    intro d hl
    simp only [State.putView_ports, List.length_set]
    by_cases hd : d = c
    · rw [hd]
      exact (List.getElem?_eq_some_iff.1 hp).1
    · exact h.lock d ((ho.lock d hd).1 hl)
  ref := by
    refine ⟨?_, hw.enabled⟩
    have hset := State.refs_set hp w.port
    have hcount := ho.refs
    have href := h.ref.1
    show w.eng.refcount = (s.ports.set c w.port).countP Port.holdsRef
    simp only at hcount
    omega
  mem := hw.mem
  widths := by
    intro q hq
    rcases List.mem_or_eq_of_mem_set hq with hq | rfl
    · exact h.widths q hq
    · exact hw.widths
  ports := by
    simp only [State.putView_ports, List.length_set]
    exact h.ports
  params := h.params

end

/-! ### A call as a run of atomic steps (R74, R99) -/

/-- What comes of an outcome that is a next state, a stop kept. -/
def andThen {α β : Type} (o : Host.Outcome α Fault Refusal) (f : α → Host.Outcome β Fault Refusal) :
    Host.Outcome β Fault Refusal :=
  match o with
  | .next a => f a
  | .fault r => .fault r
  | .refused r => .refused r

@[simp] theorem andThen_next {α β : Type} (a : α) (f : α → Host.Outcome β Fault Refusal) :
    andThen (.next a) f = f a := rfl

/-- What follows has a next state only after an outcome that has one. -/
theorem andThen_eq_next {α β : Type} {o : Host.Outcome α Fault Refusal} {f : α → Host.Outcome β Fault Refusal} {b : β}
    (h : andThen o f = .next b) : ∃ a, o = .next a ∧ f a = .next b := by
  cases o with
  | next a => exact ⟨a, rfl, h⟩
  | fault r => cases h
  | refused r => cases h

theorem andThen_next_right {α : Type} (o : Host.Outcome α Fault Refusal) : andThen o .next = o := by
  cases o <;> rfl

theorem mapNext_id {α : Type} (o : Host.Outcome α Fault Refusal) : mapNext id o = o := by
  cases o <;> rfl

theorem mapNext_eq_andThen {α β : Type} (g : α → β) (o : Host.Outcome α Fault Refusal) :
    mapNext g o = andThen o fun a => .next (g a) := by
  cases o <;> rfl

theorem andThen_assoc {α β γ : Type} (o : Host.Outcome α Fault Refusal)
    (f : α → Host.Outcome β Fault Refusal) (g : β → Host.Outcome γ Fault Refusal) :
    andThen (andThen o f) g = andThen o fun a => andThen (f a) g := by
  cases o <;> rfl

/-- `n` atomic steps of port `c`'s sequencer, stopping at the first stop of the machine. -/
def microRun (prim : BlockPrimitive) (ps : Params) (c : Nat) : Nat → View → Host.Outcome View Fault Refusal
  | 0, v => .next v
  | n + 1, v => andThen (microStep prim ps c v) (microRun prim ps c n)

theorem microRun_add (prim : BlockPrimitive) (ps : Params) (c m n : Nat) (v : View) :
    microRun prim ps c (m + n) v = andThen (microRun prim ps c m v) (microRun prim ps c n) := by
  induction m generalizing v with
  | zero => rw [Nat.zero_add]; rfl
  | succ m ih => simp only [Nat.add_right_comm, microRun, andThen_assoc, funext ih]

/-- A run of atomic steps from `v` has this outcome. -/
def Reaches (prim : BlockPrimitive) (ps : Params) (c : Nat) (v : View)
    (o : Host.Outcome View Fault Refusal) : Prop :=
  ∃ n, microRun prim ps c n v = o

section
variable {prim : BlockPrimitive} {ps : Params} {c : Nat} {v : View}

theorem Reaches.refl (v : View) : Reaches prim ps c v (.next v) := ⟨0, rfl⟩

theorem Reaches.one (v : View) : Reaches prim ps c v (microStep prim ps c v) :=
  ⟨1, by simp only [microRun]; cases microStep prim ps c v <;> rfl⟩

theorem Reaches.trans {w : View} {o : Host.Outcome View Fault Refusal} (h : Reaches prim ps c v (.next w))
    (ho : Reaches prim ps c w o) : Reaches prim ps c v o := by
  obtain ⟨m, hm⟩ := h
  obtain ⟨n, hn⟩ := ho
  exact ⟨m + n, by rw [microRun_add, hm]; exact hn⟩

/-- A run, and from its last view, if it has one, another. -/
theorem Reaches.follow {o : Host.Outcome View Fault Refusal} {g : View → View}
    {f : View → Host.Outcome View Fault Refusal} (h : Reaches prim ps c v (mapNext g o))
    (hf : ∀ w, o = .next w → Reaches prim ps c (g w) (f w)) : Reaches prim ps c v (andThen o f) := by
  cases o with
  | next w => exact h.trans (hf w rfl)
  | fault r => exact h
  | refused r => exact h

end

/-! ### The units of a command -/

theorem RegOp.apply_withSeq (r : RegOp) (p : Port) (q : Seq) : r.apply (p.withSeq q) = (r.apply p).withSeq q := by
  cases r <;> rfl

section
variable {prim : BlockPrimitive} {ps : Params} {c : Nat} {i : Instr}

/-- A step that does not write `RESULT` takes no notice of the sequencer's place. -/
theorem perform_withSeq {op : MicroOp} (v : View) (q : Seq) (hc : op ≠ .conclude) (hk : op ≠ .complete) :
    perform prim ps c op { v with port := v.port.withSeq q }
      = mapNext (fun w => { w with port := w.port.withSeq q }) (perform prim ps c op v) := by
  cases op with
  | memRead j => rfl
  | memWrite j => rfl
  | reg r => simp only [perform, RegOp.apply_withSeq, mapNext_next]
  | take => rfl
  | install d =>
    simp only [perform, Port.withSeq_record]
    cases v.port.record d <;> rfl
  | transform d =>
    simp only [perform]
    split
    · split <;> rfl
    · rfl
  | give => rfl
  | acquire => simp only [perform, acquireStep, mapNext_next]; split <;> [split; skip] <;> rfl
  | release => simp only [perform, releaseStep, mapNext_next]; split <;> [split; skip] <;> rfl
  | setLive b => simp only [perform, Port.setLive, mapNext_next]; split <;> simp_all [Port.withSeq]
  | conclude => exact absurd rfl hc
  | complete => exact absurd rfl hk

/-- So the steps of a unit, up to the write of `RESULT`, keep the sequencer's place. -/
theorem perform_seq {op : MicroOp} {v w : View} (h : perform prim ps c op v = .next w)
    (hc : op ≠ .conclude) (hk : op ≠ .complete) : w.port.seq = v.port.seq := by
  have heq := perform_withSeq (prim := prim) (ps := ps) (c := c) v v.port.seq hc hk
  have hself : ({ v with port := v.port.withSeq v.port.seq } : View) = v := rfl
  rw [hself, h] at heq
  simp only [mapNext_next, Host.Outcome.next.injEq] at heq
  rw [heq]
  rfl

theorem runOps_cons_eq (op : MicroOp) (rest : List MicroOp) (v : View) (he : op.enabled c v.eng = true) :
    runOps prim ps c i (op :: rest) v = andThen (perform prim ps c op v) (runOps prim ps c i rest) := by
  simp only [runOps, he, if_true]
  cases perform prim ps c op v <;> rfl

theorem microStep_run {op : MicroOp} {rest : List MicroOp} (v : View) (he : op.enabled c v.eng = true) :
    microStep prim ps c { v with port := v.port.withSeq (.run i (op :: rest)) }
      = perform prim ps c op { v with port := v.port.withSeq (.run i rest) } := by
  simp [microStep, he]

/-- The steps of a unit that a call takes are steps of the port's sequencer. -/
theorem reaches_runOps {ops : List MicroOp} {v : View} (hops : listOk i ops = true) (hv : v.port.seq = .run i []) :
    Reaches prim ps c { v with port := v.port.withSeq (.run i ops) } (runOps prim ps c i ops v) := by
  induction ops generalizing v with
  | nil =>
    rw [← hv]
    exact Reaches.refl v
  | cons op rest ih =>
    simp only [listOk, Bool.and_eq_true] at hops
    obtain ⟨hhead, hrest⟩ := hops
    cases he : op.enabled c v.eng with
    | false =>
      rw [runOps_held prim ps c i rest he]
      exact Reaches.refl _
    | true =>
      have hone := Reaches.one (prim := prim) (ps := ps) (c := c)
        { v with port := v.port.withSeq (.run i (op :: rest)) }
      rw [microStep_run v he] at hone
      rw [runOps_cons_eq op rest v he]
      by_cases hlast : op = .conclude ∨ op = .complete
      · obtain rfl : rest = [] := by rcases hlast with rfl | rfl <;> simp_all [headOk]
        have hself : ({ v with port := v.port.withSeq (.run i []) } : View) = v := by rw [← hv]; rfl
        rw [hself] at hone
        exact (andThen_next_right (perform prim ps c op v)).symm ▸ hone
      · obtain ⟨hc, hk⟩ := not_or.1 hlast
        rw [perform_withSeq v _ hc hk] at hone
        exact hone.follow fun w hw => ih hrest ((perform_seq hw hc hk).trans hv)

/-- The units of a command that a call takes, from loop head to loop head, are steps of the port's sequencer. -/
theorem reaches_runUnits (n : Nat) (v : View) :
    Reaches prim ps c v (runUnits prim ps c i (Instr.program i) n v) := by
  induction n generalizing v with
  | zero => exact Reaches.refl v
  | succ n ih =>
    by_cases hv : v.port.seq = .run i []
    · have heq : runUnits prim ps c i (Instr.program i) (n + 1) v
          = andThen (runOps prim ps c i (Instr.program i v.port) v)
              (runUnits prim ps c i (Instr.program i) n) := by
        simp only [runUnits, hv, if_true]
        cases runOps prim ps c i (Instr.program i v.port) v <;> rfl
      have hhead : microStep prim ps c v
          = .next { v with port := v.port.withSeq (.run i (Instr.program i v.port)) } := by
        simp [microStep, hv]
      rw [heq]
      refine Reaches.trans (hhead ▸ Reaches.one v) ?_
      refine Reaches.follow (g := id) ?_ fun w _ => ih w
      rw [mapNext_id]
      exact reaches_runOps (Instr.program_ok i v.port).1 hv
    · rw [runUnits_stop prim ps c i _ _ hv]
      exact Reaches.refl v

/-- Ending a command that has its result is its sequencer's last step (R245). -/
theorem reaches_settle (v : View) : Reaches prim ps c v (.next { v with port := v.port.settle }) := by
  cases hv : v.port.seq with
  | ending o =>
    have hstep : microStep prim ps c v = .next { v with port := v.port.settle } := by
      simp [microStep, Port.settle, hv]
    exact hstep ▸ Reaches.one v
  | _ =>
    rw [Port.settle_of_not_ending (by simp [hv])]
    exact Reaches.refl v

/-- A call's command, from its `CMD` write on, is a run of the port's sequencer (R74, R99). -/
theorem reaches_runCommand {v : View} (hv : v.port.seq = .decoded (some i)) :
    Reaches prim ps c v (runCommand prim ps c i (Instr.check i) (Instr.program i) v) := by
  cases hk : Instr.check i v.port with
  | some k =>
    have hstep : microStep prim ps c v = .next { v with port := v.port.setResult k } := by
      simp [microStep, hv, hk]
    simp only [runCommand, hk]
    exact (hstep ▸ Reaches.one v).trans (reaches_settle { v with port := v.port.setResult k })
  | none =>
    have hstep : microStep prim ps c v = .next { v with port := v.port.withSeq (.run i []) } := by
      simp [microStep, hv, hk]
    simp only [runCommand, hk, mapNext_eq_andThen]
    refine (hstep ▸ Reaches.one v).trans (Reaches.follow (g := id) ?_ fun w _ => reaches_settle w)
    rw [mapNext_id]
    exact reaches_runUnits _ _

/-- So is the call of a reserved byte (R98). -/
theorem reaches_reserved {v : View} (hv : v.port.seq = .decoded none) :
    Reaches prim ps c v (.next { v with port := v.port.finish .illegalCommand }) := by
  have hstep : microStep prim ps c v = .next { v with port := v.port.setResult .illegalCommand } := by
    simp [microStep, hv]
  exact (hstep ▸ Reaches.one v).trans (reaches_settle { v with port := v.port.setResult .illegalCommand })

end

/-! ### Every event keeps the invariant -/

section
variable {prim : BlockPrimitive} {s t : State} {c : Nat} {p : Port}

/-- A step of a port's sequencer keeps the invariant of the machine, and does not stop it. -/
theorem State.Inv.microStep (h : s.Inv) (hp : s.ports[c]? = some p) :
    ∃ w, microStep prim s.params c { port := p, eng := s.engine, mem := s.mem } = .next w
      ∧ (s.putView c w).Inv := by
  obtain ⟨w, hw, hok, howes⟩ := microStep_keeps (prim := prim) (h.view_ok hp) (h.refcount_pos hp)
  exact ⟨w, hw, h.of_view hp hok howes⟩

/-- So does a run of them. -/
theorem State.Inv.reaches {v : View} {o : Host.Outcome View Fault Refusal} (h : (s.putView c v).Inv)
    (hp : s.ports[c]? = some p) (ho : Reaches prim s.params c v o) : ∃ w, o = .next w ∧ (s.putView c w).Inv := by
  obtain ⟨n, rfl⟩ := ho
  induction n generalizing v with
  | zero => exact ⟨v, rfl, h⟩
  | succ n ih =>
    obtain ⟨w, hw, hinv⟩ := h.microStep (prim := prim) (State.putView_port_self v hp)
    rw [State.putView_putView] at hinv
    have heq : microRun prim s.params c (n + 1) v = microRun prim s.params c n w := by
      simp only [microRun, show Machine.microStep prim s.params c v = .next w from hw, andThen_next]
    rw [heq]
    exact ih hinv

/-- A property of both branches of a choice is one of the choice, as `iteInduction` says where no branch names the
condition's proof. -/
theorem diteInduction {α : Type} {motive : α → Prop} {P : Prop} [Decidable P] {t : P → α} {e : ¬P → α}
    (ht : ∀ h, motive (t h)) (he : ∀ h, motive (e h)) : motive (dite P t e) := by
  split
  · exact ht _
  · exact he _

/-- What a host's register write does to an idle port, said once, field by field of the window (R35). -/
theorem Port.writeRegIdle_induction {motive : Port → Prop} {ps : Params} {off : Nat} {b : Byte}
    (start : off = 0 → motive (p.start b))
    (keep : off = 1 ∨ off = 2 ∨ 0x62 ≤ off → motive p)
    (offset : off = 3 → motive { p with offset := b.setWidth 4 })
    (len : 4 ≤ off → off < 8 → motive { p with len := setByteLE ps.lenw p.len (off - 4) b })
    (src : 8 ≤ off → off < 0x0C → motive { p with src := setByteLE ps.aw p.src (off - 8) b })
    (dst : 0x0C ≤ off → off < 0x10 → motive { p with dst := setByteLE ps.aw p.dst (off - 0x0C) b })
    (iv : 0x10 ≤ off → ∀ h : off < 0x20, motive { p with iv := p.iv.set (off - 0x10) b })
    (nc : 0x20 ≤ off → ∀ h : off < 0x30, motive { p with nc := p.nc.set (off - 0x20) b })
    (sb : 0x30 ≤ off → ∀ h : off < 0x40, motive { p with sb := p.sb.set (off - 0x30) b })
    (keyin : 0x40 ≤ off → ∀ h : off < 0x60, motive { p with keyin := p.keyin.set (off - 0x40) b })
    (keybits : 0x60 ≤ off → off < 0x62 →
      motive { p with keybits := BitVec.ofNat 16 (setByteLE 16 p.keybits.toNat (off - 0x60) b) }) :
    motive (p.writeRegIdle ps off b) := by
  unfold Port.writeRegIdle
  refine iteInduction start fun _ => iteInduction (fun h => keep (.inl h)) fun _ =>
    iteInduction (fun h => keep (.inr (.inl h))) fun _ => iteInduction offset fun _ =>
    iteInduction (len (by omega)) fun h4 => iteInduction (src (by omega)) fun h8 =>
    iteInduction (dst (by omega)) fun hc => ?_
  exact diteInduction (iv (by omega)) fun h10 => diteInduction (nc (by omega)) fun h20 =>
    diteInduction (sb (by omega)) fun h30 => diteInduction (keyin (by omega)) fun h40 =>
    iteInduction (keybits (by omega)) fun h60 => keep (by omega)

/-- A host's register write leaves an idle port idle or with a decoded command. -/
theorem Port.writeRegIdle_seq (p : Port) (ps : Params) (off : Nat) (b : Byte) :
    (p.writeRegIdle ps off b).seq = p.seq ∨ (p.writeRegIdle ps off b).seq = .decoded (decodeCommand b) := by
  refine Port.writeRegIdle_induction (motive := fun q => q.seq = p.seq ∨ q.seq = .decoded (decodeCommand b))
    (fun _ => .inr rfl) ?_ ?_ ?_ ?_ ?_ ?_ ?_ ?_ ?_ ?_ <;> intros <;> exact .inl rfl

theorem Port.writeRegIdle_live (p : Port) (ps : Params) (off : Nat) (b : Byte) :
    (p.writeRegIdle ps off b).live = p.live := by
  refine Port.writeRegIdle_induction (motive := fun q => q.live = p.live) ?_ ?_ ?_ ?_ ?_ ?_ ?_ ?_ ?_ ?_ ?_ <;>
    intros <;> rfl

theorem Port.writeRegIdle_scratch (p : Port) (ps : Params) (off : Nat) (b : Byte) :
    (p.writeRegIdle ps off b).scratch = p.scratch := by
  refine Port.writeRegIdle_induction (motive := fun q => q.scratch = p.scratch) ?_ ?_ ?_ ?_ ?_ ?_ ?_ ?_ ?_ ?_ ?_ <;>
    intros <;> rfl

/-- A host's register write leaves `LEN`, `SRC` and `DST` numbers of their width (R30, R31). -/
theorem Port.writeRegIdle_widths {ps : Params} (off : Nat) (b : Byte)
    (h : p.len < 2 ^ ps.lenw ∧ p.src < 2 ^ ps.aw ∧ p.dst < 2 ^ ps.aw) :
    (p.writeRegIdle ps off b).len < 2 ^ ps.lenw ∧ (p.writeRegIdle ps off b).src < 2 ^ ps.aw
      ∧ (p.writeRegIdle ps off b).dst < 2 ^ ps.aw := by
  obtain ⟨hlen, hsrc, hdst⟩ := h
  refine Port.writeRegIdle_induction
    (motive := fun q => q.len < 2 ^ ps.lenw ∧ q.src < 2 ^ ps.aw ∧ q.dst < 2 ^ ps.aw) ?start ?keep ?offset ?len ?src
    ?dst ?iv ?nc ?sb ?keyin ?keybits <;> intros
  case len => exact ⟨setByteLE_lt _ _ _ _, hsrc, hdst⟩
  case src => exact ⟨hlen, setByteLE_lt _ _ _ _, hdst⟩
  case dst => exact ⟨hlen, hsrc, setByteLE_lt _ _ _ _⟩
  all_goals exact ⟨hlen, hsrc, hdst⟩

/-- A host's register write keeps the invariant. -/
theorem State.Inv.writeReg (h : s.Inv) (hp : s.ports[c]? = some p) (off : Nat) (b : Byte) :
    (s.putView c { port := p.writeReg s.params off b, eng := s.engine, mem := s.mem }).Inv := by
  cases hb : p.busy with
  | true => rw [Port.writeReg_busy s.params b hb, State.putView_self hp]; exact h
  | false =>
    have hok := h.view_ok hp
    have hidle := (Port.busy_eq_false_iff p).1 hb
    have hf : p.scratch.failed = false := by simpa [Port.seqOk, hidle] using hok.seq
    have hseq := Port.writeRegIdle_seq p s.params off b
    have hlive := Port.writeRegIdle_live p s.params off b
    have hscr := Port.writeRegIdle_scratch p s.params off b
    rw [Port.writeReg_idle s.params b hb]
    refine h.of_view hp (hok.withPort (hok.out_of_todo_nil ?_) ?_ ?_ (Port.writeRegIdle_widths off b hok.widths))
      (View.owes_of_eng_eq rfl ?_)
    · simp [Port.todo, hidle]
    · rcases hseq with hq | hq <;> simp [Port.seqOk, hq, hidle, hscr, hf]
    · rcases hseq with hq | hq <;> simp [Port.todo, hq, hidle, spanOk]
    · rcases hseq with hq | hq <;> simp [Port.holdsRef, hq, hidle, hlive]

/-- A host's write of `CMD` is such a write (R91). -/
theorem State.Inv.start (h : s.Inv) (hp : s.ports[c]? = some p) (hb : p.busy = false) (w : Byte) :
    (s.putView c { port := p.start w, eng := s.engine, mem := s.mem }).Inv := by
  have hw := h.writeReg hp 0 w
  rwa [Port.writeReg_idle s.params w hb] at hw

theorem decodeCommand_encode (i : Instr) : decodeCommand (encode i) = some i := by
  cases i <;> decide

/-- A call of a command keeps the invariant and does not stop the machine. -/
theorem State.Inv.exec (h : s.Inv) (hp : s.ports[s.cur]? = some p) (i : Instr) :
    ∃ t, exec i s = .next t ∧ t.Inv := by
  rw [exec_eq_issue]
  cases hb : p.busy with
  | true => exact ⟨s, issue_busy _ i _ _ hp hb, h⟩
  | false =>
    have hrun := reaches_runCommand (prim := Config.primitive) (ps := s.params) (c := s.cur) (i := i)
      (v := { port := p.start (encode i), eng := s.engine, mem := s.mem }) (by simp [decodeCommand_encode])
    obtain ⟨w, hw, hinv⟩ := (h.start hp hb (encode i)).reaches hp hrun
    exact ⟨_, by rw [issue_idle _ i _ _ hp hb, hw, mapNext_next], hinv⟩

/-- So does a call of a reserved byte. -/
theorem State.Inv.issueReserved (h : s.Inv) (hp : s.ports[s.cur]? = some p) {w : Byte}
    (hw : decodeCommand w = none) : ∃ t, issueReserved w s = .next t ∧ t.Inv := by
  cases hb : p.busy with
  | true => exact ⟨s, by simp [Machine.issueReserved, State.view_of_port hp, hb], h⟩
  | false =>
    have hrun := reaches_reserved (prim := Config.primitive) (ps := s.params) (c := s.cur)
      (v := { port := p.start w, eng := s.engine, mem := s.mem }) (by simp [hw])
    obtain ⟨u, hu, hinv⟩ := (h.start hp hb w).reaches hp hrun
    cases hu
    exact ⟨_, by simp [Machine.issueReserved, State.view_of_port hp, hb], hinv⟩

/-- A hardware reset puts a machine of the invariant at the base case again (R44, R280). -/
theorem State.inv_of_reset {n : Nat} (hn : 1 ≤ n) (hps : s.params.wf = true) (hm : s.mem.wf s.params.aw = true)
    (hports : s.ports = List.replicate n Port.reset) (heng : s.engine = Engine.reset) : s.Inv where
  seq := by
    intro c p hp
    rw [hports] at hp
    obtain rfl := List.eq_of_mem_replicate (List.mem_of_getElem? hp)
    exact ⟨rfl, .out, rfl, by rw [heng]; intro hl; cases hl⟩
  lock := by
    intro c hl
    rw [heng] at hl
    cases hl
  ref := by
    rw [State.refInv, State.refs, heng, hports, List.countP_replicate]
    exact ⟨rfl, by decide⟩
  mem := hm
  widths := by
    intro p hp
    rw [hports] at hp
    obtain rfl := List.eq_of_mem_replicate hp
    exact ⟨Nat.two_pow_pos _, Nat.two_pow_pos _, Nat.two_pow_pos _⟩
  ports := by rw [hports, List.length_replicate]; exact hn
  params := hps

/-- Every event that exists keeps the invariant and does not stop the machine. -/
theorem State.Inv.happen (h : s.Inv) {e : Event} (he : s.eventOk e) : ∃ t, happen e s = .next t ∧ t.Inv := by
  cases e with
  | call c w =>
    have hinv : ({ s with cur := c } : State).Inv := h.host_fields c s.agenda s.rdata
    have hp : ({ s with cur := c } : State).ports[c]? = some s.ports[c] := List.getElem?_eq_getElem he
    simp only [Machine.happen, callByte]
    cases hd : decodeCommand w with
    | some i => exact hinv.exec hp i
    | none => exact hinv.issueReserved hp hd
  | write a b =>
    obtain ⟨⟨c, off⟩, hd⟩ := Option.isSome_iff_exists.1 he
    obtain ⟨hc, -, -⟩ := (decodeRegAddr_eq_some_iff h.params).1 hd
    have hp : s.ports[c]? = some s.ports[c] := List.getElem?_eq_getElem hc
    exact ⟨_, by simp only [Machine.happen, busWrite, hd, hp]; rfl, h.writeReg hp off b⟩
  | read a =>
    obtain ⟨⟨c, off⟩, hd⟩ := Option.isSome_iff_exists.1 he
    obtain ⟨hc, -, -⟩ := (decodeRegAddr_eq_some_iff h.params).1 hd
    have hp : s.ports[c]? = some s.ports[c] := List.getElem?_eq_getElem hc
    exact ⟨_, by simp only [Machine.happen, busRead, hd, hp]; rfl, h.host_fields s.cur s.agenda _⟩
  | memWrite a b =>
    exact ⟨_, rfl, h.seq, h.lock, h.ref, Memory.wf_write a b h.mem, h.widths, h.ports, h.params⟩
  | memRead a => exact ⟨_, rfl, h.host_fields s.cur s.agenda _⟩
  | grant c =>
    have hp : s.ports[c]? = some s.ports[c] := List.getElem?_eq_getElem he
    obtain ⟨w, hw, hinv⟩ := h.microStep (prim := Config.primitive) hp
    exact ⟨_, by simp only [Machine.happen, grantStep, State.view_of_port hp, hw, mapNext_next], hinv⟩
  | reset => exact ⟨_, rfl, State.inv_of_reset h.ports h.params h.mem rfl rfl⟩

/-- An event that has a next state exists. -/
theorem eventOk_of_happen {e : Event} (h : happen e s = .next t) : s.eventOk e := by
  cases e with
  | call c w =>
    simp only [happen, callByte] at h
    split at h
    · rw [exec_eq_issue] at h
      obtain ⟨p, hp, -⟩ := issue_eq_next h
      exact (List.getElem?_eq_some_iff.1 hp).1
    · obtain ⟨p, hp, -⟩ := issueReserved_eq_next h
      exact (List.getElem?_eq_some_iff.1 hp).1
  | write a b =>
    obtain ⟨c, off, p, hd, -⟩ := busWrite_eq_next h
    exact Option.isSome_iff_exists.2 ⟨_, hd⟩
  | read a =>
    obtain ⟨c, off, p, hd, -⟩ := busRead_eq_next h
    exact Option.isSome_iff_exists.2 ⟨_, hd⟩
  | memWrite a b => trivial
  | memRead a => trivial
  | grant c =>
    obtain ⟨p, v, hp, -⟩ := grantStep_eq_next h
    exact (List.getElem?_eq_some_iff.1 hp).1
  | reset => trivial

end

/-- Settles O41: an event that answers exists, and every event that exists keeps the invariant. -/
theorem everyStepKeepsTheInvariant : Obligations.EveryStepKeepsTheInvariant := by
  intro s t h hstep
  unfold step at hstep
  split at hstep
  · cases hstep; exact h
  · next e rest _ =>
    obtain ⟨u, hu, hinv⟩ := (h.host_fields s.cur rest s.rdata).happen (eventOk_of_happen hstep)
    cases hu.symm.trans hstep
    exact hinv

/-- Settles O42: every event that exists has a next state, as the same step lemma says. -/
theorem noEventStopsTheMachine : Obligations.NoEventStopsTheMachine := by
  intro s e rest h ha he
  obtain ⟨t, ht, -⟩ := (h.host_fields s.cur rest s.rdata).happen he
  exact ⟨t, by simp only [step, ha]; exact ht⟩

end Sys2Proof.Machine
end

section
/-! The registers of a port as the host sees them (spec/10_state.md rules R23 to R36, R44): the window read and written
offset by offset, and what reset leaves there. -/

namespace Sys2Proof.Machine

/-! ### The bytes of a scalar register (R35) -/

theorem getLsbD_byteLE (v k : Nat) {i : Nat} (hi : i < 8) : (byteLE v k).getLsbD i = v.testBit (8 * k + i) := by
  rw [byteLE, BitVec.getLsbD_ofNat, show 256 = 2 ^ 8 by rfl, ← Nat.pow_mul, Nat.testBit_div_two_pow, Nat.add_comm i]
  simp [hi]

/-- The bits of a scalar with byte `k` replaced: those of the byte in its place, of which the width holds what fits. -/
theorem testBit_setByteLE (w v k : Nat) (b : Byte) (j : Nat) :
    (setByteLE w v k b).testBit j
      = (decide (j < w) && if 8 * k ≤ j ∧ j < 8 * (k + 1) then b.toNat.testBit (j - 8 * k) else v.testBit j) := by
  have hsum : v % 256 ^ k + b.toNat * 256 ^ k + v / 256 ^ (k + 1) * 256 ^ (k + 1)
      = 2 ^ (8 * k) * (2 ^ 8 * (v / 2 ^ (8 * (k + 1))) + b.toNat) + v % 2 ^ (8 * k) := by
    rw [show 256 = 2 ^ 8 by rfl, ← Nat.pow_mul, ← Nat.pow_mul, show 8 * (k + 1) = 8 * k + 8 by ring, Nat.pow_add]
    ring
  rw [setByteLE, Nat.testBit_mod_two_pow, hsum,
    Nat.testBit_two_pow_mul_add _ (Nat.mod_lt _ (Nat.two_pow_pos _)), Nat.testBit_two_pow_mul_add _ b.isLt,
    Nat.testBit_mod_two_pow, Nat.testBit_div_two_pow]
  congr 1
  by_cases h1 : j < 8 * k
  · simp [h1, show ¬ 8 * k ≤ j by omega]
  · by_cases h2 : j < 8 * (k + 1)
    · simp [h1, h2, show 8 * k ≤ j by omega, show j - 8 * k < 8 by omega]
    · simp [h1, h2, show ¬ j - 8 * k < 8 by omega, show j - 8 * k - 8 + 8 * (k + 1) = j by omega]

/-- The replaced byte reads as the new one, where the register's width holds it whole. -/
theorem byteLE_setByteLE_self {w k : Nat} (v : Nat) (b : Byte) (hw : 8 * (k + 1) ≤ w) :
    byteLE (setByteLE w v k b) k = b := by
  refine BitVec.eq_of_getLsbD_eq fun i hi => ?_
  rw [getLsbD_byteLE _ _ hi, testBit_setByteLE]
  simp [show 8 * k + i < w by omega, show 8 * k + i < 8 * (k + 1) by omega, BitVec.testBit_toNat]

/-- The other bytes read as before, where the register held a number of its width. -/
theorem byteLE_setByteLE_other {w v k l : Nat} (b : Byte) (hv : v < 2 ^ w) (hl : l ≠ k) :
    byteLE (setByteLE w v k b) l = byteLE v l := by
  refine BitVec.eq_of_getLsbD_eq fun i hi => ?_
  rw [getLsbD_byteLE _ _ hi, getLsbD_byteLE _ _ hi, testBit_setByteLE, if_neg (by omega)]
  by_cases hj : 8 * l + i < w
  · simp [hj]
  · have hpow : 2 ^ w ≤ 2 ^ (8 * l + i) := Nat.pow_le_pow_right (by decide) (by omega)
    simp [hj, Nat.testBit_lt_two_pow (Nat.lt_of_lt_of_le hv hpow)]

/-! ### The window read, register by register (R35) -/

section
variable (p : Port)

theorem Port.readReg_len {k : Nat} (hk : k < 4) : p.readReg (0x04 + k) = byteLE p.len k := by
  unfold Port.readReg
  iterate 4 rw [if_neg (by omega)]
  rw [if_pos (by omega), Nat.add_sub_cancel_left]

theorem Port.readReg_src {k : Nat} (hk : k < 4) : p.readReg (0x08 + k) = byteLE p.src k := by
  unfold Port.readReg
  iterate 5 rw [if_neg (by omega)]
  rw [if_pos (by omega), Nat.add_sub_cancel_left]

theorem Port.readReg_dst {k : Nat} (hk : k < 4) : p.readReg (0x0C + k) = byteLE p.dst k := by
  unfold Port.readReg
  iterate 6 rw [if_neg (by omega)]
  rw [if_pos (by omega), Nat.add_sub_cancel_left]

theorem Port.readReg_iv {k : Nat} (hk : k < 16) : p.readReg (0x10 + k) = p.iv[k] := by
  unfold Port.readReg
  iterate 7 rw [if_neg (by omega)]
  rw [dif_pos (by omega)]
  simp only [Nat.add_sub_cancel_left]

theorem Port.readReg_nc {k : Nat} (hk : k < 16) : p.readReg (0x20 + k) = p.nc[k] := by
  unfold Port.readReg
  iterate 7 rw [if_neg (by omega)]
  rw [dif_neg (by omega), dif_pos (by omega)]
  simp only [Nat.add_sub_cancel_left]

theorem Port.readReg_sb {k : Nat} (hk : k < 16) : p.readReg (0x30 + k) = p.sb[k] := by
  unfold Port.readReg
  iterate 7 rw [if_neg (by omega)]
  rw [dif_neg (by omega), dif_neg (by omega), dif_pos (by omega)]
  simp only [Nat.add_sub_cancel_left]

theorem Port.readReg_keyin {k : Nat} (hk : k < 32) : p.readReg (0x40 + k) = 0 := by
  unfold Port.readReg
  iterate 7 rw [if_neg (by omega)]
  rw [dif_neg (by omega), dif_neg (by omega), dif_neg (by omega), if_pos (by omega)]

theorem Port.readReg_keybits {k : Nat} (hk : k < 2) : p.readReg (0x60 + k) = byteLE p.keybits.toNat k := by
  unfold Port.readReg
  iterate 7 rw [if_neg (by omega)]
  rw [dif_neg (by omega), dif_neg (by omega), dif_neg (by omega), if_neg (by omega), if_pos (by omega),
    Nat.add_sub_cancel_left]

theorem Port.readReg_reserved {off : Nat} (h : 0x62 ≤ off) : p.readReg off = 0 := by
  unfold Port.readReg
  iterate 7 rw [if_neg (by omega)]
  rw [dif_neg (by omega), dif_neg (by omega), dif_neg (by omega), if_neg (by omega), if_neg (by omega)]

end

/-- Two ports read alike at an offset where the window shows the same of both (R35); what is not given is the same
field of both. -/
theorem Port.readReg_congr {p q : Port} {off : Nat}
    (cmd : q.cmd = p.cmd := by rfl) (status : q.status = p.status := by rfl)
    (result : q.result = p.result := by rfl) (offset : off = 3 → q.offset = p.offset := by intros; rfl)
    (len : 4 ≤ off → off < 8 → byteLE q.len (off - 4) = byteLE p.len (off - 4) := by intros; rfl)
    (src : 8 ≤ off → off < 0x0C → byteLE q.src (off - 8) = byteLE p.src (off - 8) := by intros; rfl)
    (dst : 0x0C ≤ off → off < 0x10 → byteLE q.dst (off - 0x0C) = byteLE p.dst (off - 0x0C) := by intros; rfl)
    (iv : 0x10 ≤ off → ∀ h : off < 0x20, q.iv[off - 0x10] = p.iv[off - 0x10] := by intros; rfl)
    (nc : 0x20 ≤ off → ∀ h : off < 0x30, q.nc[off - 0x20] = p.nc[off - 0x20] := by intros; rfl)
    (sb : 0x30 ≤ off → ∀ h : off < 0x40, q.sb[off - 0x30] = p.sb[off - 0x30] := by intros; rfl)
    (keybits : 0x60 ≤ off → off < 0x62 →
      byteLE q.keybits.toNat (off - 0x60) = byteLE p.keybits.toNat (off - 0x60) := by intros; rfl) :
    q.readReg off = p.readReg off := by
  unfold Port.readReg
  refine ite_congr rfl (fun _ => cmd) fun _ => ite_congr rfl (fun _ => status) fun _ =>
    ite_congr rfl (fun _ => congrArg Result.code result) fun _ =>
    ite_congr rfl (fun h => congrArg (BitVec.setWidth 8) (offset h)) fun _ => ite_congr rfl (len (by omega)) fun _ =>
    ite_congr rfl (src (by omega)) fun _ => ite_congr rfl (dst (by omega)) fun _ => ?_
  exact dite_congr rfl (iv (by omega)) fun _ => dite_congr rfl (nc (by omega)) fun _ =>
    dite_congr rfl (sb (by omega)) fun _ => ite_congr rfl (fun _ => rfl) fun _ =>
    ite_congr rfl (keybits (by omega)) fun _ => rfl

/-- A patched 16-bit scalar is kept whole. -/
theorem toNat_setByteLE (v k : Nat) (b : Byte) : (BitVec.ofNat 16 (setByteLE 16 v k b)).toNat = setByteLE 16 v k b := by
  rw [BitVec.toNat_ofNat, Nat.mod_eq_of_lt (setByteLE_lt _ _ _ _)]

/-! ### The window written, register by register (R35) -/

section
variable (p : Port) (ps : Params) (b : Byte)

theorem Port.writeRegIdle_len {k : Nat} (hk : k < 4) :
    p.writeRegIdle ps (0x04 + k) b = { p with len := setByteLE ps.lenw p.len k b } := by
  unfold Port.writeRegIdle
  iterate 4 rw [if_neg (by omega)]
  rw [if_pos (by omega), Nat.add_sub_cancel_left]

theorem Port.writeRegIdle_src {k : Nat} (hk : k < 4) :
    p.writeRegIdle ps (0x08 + k) b = { p with src := setByteLE ps.aw p.src k b } := by
  unfold Port.writeRegIdle
  iterate 5 rw [if_neg (by omega)]
  rw [if_pos (by omega), Nat.add_sub_cancel_left]

theorem Port.writeRegIdle_dst {k : Nat} (hk : k < 4) :
    p.writeRegIdle ps (0x0C + k) b = { p with dst := setByteLE ps.aw p.dst k b } := by
  unfold Port.writeRegIdle
  iterate 6 rw [if_neg (by omega)]
  rw [if_pos (by omega), Nat.add_sub_cancel_left]

theorem Port.writeRegIdle_iv {k : Nat} (hk : k < 16) :
    p.writeRegIdle ps (0x10 + k) b = { p with iv := p.iv.set k b } := by
  unfold Port.writeRegIdle
  iterate 7 rw [if_neg (by omega)]
  rw [dif_pos (by omega)]
  simp only [Nat.add_sub_cancel_left]

theorem Port.writeRegIdle_nc {k : Nat} (hk : k < 16) :
    p.writeRegIdle ps (0x20 + k) b = { p with nc := p.nc.set k b } := by
  unfold Port.writeRegIdle
  iterate 7 rw [if_neg (by omega)]
  rw [dif_neg (by omega), dif_pos (by omega)]
  simp only [Nat.add_sub_cancel_left]

theorem Port.writeRegIdle_sb {k : Nat} (hk : k < 16) :
    p.writeRegIdle ps (0x30 + k) b = { p with sb := p.sb.set k b } := by
  unfold Port.writeRegIdle
  iterate 7 rw [if_neg (by omega)]
  rw [dif_neg (by omega), dif_neg (by omega), dif_pos (by omega)]
  simp only [Nat.add_sub_cancel_left]

theorem Port.writeRegIdle_keyin {k : Nat} (hk : k < 32) :
    p.writeRegIdle ps (0x40 + k) b = { p with keyin := p.keyin.set k b } := by
  unfold Port.writeRegIdle
  iterate 7 rw [if_neg (by omega)]
  rw [dif_neg (by omega), dif_neg (by omega), dif_neg (by omega), dif_pos (by omega)]
  simp only [Nat.add_sub_cancel_left]

theorem Port.writeRegIdle_keybits {k : Nat} (hk : k < 2) :
    p.writeRegIdle ps (0x60 + k) b
      = { p with keybits := BitVec.ofNat 16 (setByteLE 16 p.keybits.toNat k b) } := by
  unfold Port.writeRegIdle
  iterate 7 rw [if_neg (by omega)]
  rw [dif_neg (by omega), dif_neg (by omega), dif_neg (by omega), dif_neg (by omega), if_pos (by omega),
    Nat.add_sub_cancel_left]

theorem Port.writeRegIdle_reserved {off : Nat} (h : 0x62 ≤ off) : p.writeRegIdle ps off b = p := by
  unfold Port.writeRegIdle
  iterate 7 rw [if_neg (by omega)]
  rw [dif_neg (by omega), dif_neg (by omega), dif_neg (by omega), dif_neg (by omega), if_neg (by omega)]

/-- A register written at one offset reads as before at every other (R35). -/
theorem Port.readReg_writeRegIdle_other {off off' : Nat}
    (hw : p.len < 2 ^ ps.lenw ∧ p.src < 2 ^ ps.aw ∧ p.dst < 2 ^ ps.aw) (h0 : off ≠ 0) (hne : off' ≠ off) :
    (p.writeRegIdle ps off b).readReg off' = p.readReg off' := by
  obtain ⟨hlen, hsrc, hdst⟩ := hw
  refine Port.writeRegIdle_induction (motive := fun q => q.readReg off' = p.readReg off')
    (fun h => absurd h h0) (fun _ => rfl) (fun _ => Port.readReg_congr (offset := fun _ => by omega))
    (fun _ _ => Port.readReg_congr (len := fun _ _ => byteLE_setByteLE_other b hlen (by omega)))
    (fun _ _ => Port.readReg_congr (src := fun _ _ => byteLE_setByteLE_other b hsrc (by omega)))
    (fun _ _ => Port.readReg_congr (dst := fun _ _ => byteLE_setByteLE_other b hdst (by omega)))
    (fun _ _ => Port.readReg_congr (iv := fun _ _ => Vector.getElem_set_ne (by omega) (by omega) (by omega)))
    (fun _ _ => Port.readReg_congr (nc := fun _ _ => Vector.getElem_set_ne (by omega) (by omega) (by omega)))
    (fun _ _ => Port.readReg_congr (sb := fun _ _ => Vector.getElem_set_ne (by omega) (by omega) (by omega)))
    (fun _ _ => Port.readReg_congr)
    (fun _ _ => Port.readReg_congr (keybits := fun _ _ => ?_))
  rw [toNat_setByteLE, byteLE_setByteLE_other b p.keybits.isLt (by omega)]

end

/-! ### A host's access to a window (R35, R36) -/

section
variable {s : State} {c off : Nat} {p : Port} {rest : List Event}

/-- Every offset of an existing port's window decodes to it. -/
theorem decodeRegAddr_window (hw : s.params.wf = true) (hp : s.ports[c]? = some p) (hoff : off < 0x80) :
    decodeRegAddr s.params s.ports.length (s.params.portBase + c * s.params.portStride + off) = some (c, off) :=
  (decodeRegAddr_eq_some_iff hw).2 ⟨(List.getElem?_eq_some_iff.1 hp).1, hoff, rfl⟩

/-- A host's read of a window gives the byte there and changes nothing else. -/
theorem step_readWindow (hw : s.params.wf = true) (hp : s.ports[c]? = some p) (hoff : off < 0x80) :
    step { s with agenda := .read (s.params.portBase + c * s.params.portStride + off) :: rest }
      = .next { s with agenda := rest, rdata := p.readReg off } :=
  step_read (decodeRegAddr_window hw hp hoff) hp

/-- A host's write of a window changes its port alone. -/
theorem step_writeWindow {b : Byte} (hw : s.params.wf = true) (hp : s.ports[c]? = some p) (hoff : off < 0x80)
    (ha : s.agenda = .write (s.params.portBase + c * s.params.portStride + off) b :: rest) :
    step s = .next { s with agenda := rest, ports := s.ports.set c (p.writeReg s.params off b) } := by
  have hstep := step_write (rest := rest) (b := b) (decodeRegAddr_window hw hp hoff) hp
  rwa [← ha] at hstep

/-- A host's write of an idle port's register and then its read of the same offset. -/
theorem step_write_then_read {b x : Byte} {q : Port} (hw : s.params.wf = true) (hp : s.ports[c]? = some p)
    (hb : p.busy = false) (hoff : off < 0x80) (hwrite : p.writeRegIdle s.params off b = q)
    (hread : q.readReg off = x) (rest : List Event) :
    let a := s.params.portBase + c * s.params.portStride + off
    step { s with agenda := .write a b :: .read a :: rest }
        = .next { s with agenda := .read a :: rest, ports := s.ports.set c q }
      ∧ step { s with agenda := .read a :: rest, ports := s.ports.set c q }
        = .next { s with agenda := rest, ports := s.ports.set c q, rdata := x } := by
  intro a
  obtain ⟨hlt, -⟩ := List.getElem?_eq_some_iff.1 hp
  constructor
  · rw [step_write (decodeRegAddr_window hw hp hoff) hp, Port.writeReg_idle s.params b hb, hwrite]
  · have hq : ({ s with ports := s.ports.set c q } : State).ports[c]? = some q := List.getElem?_set_self hlt
    rw [← hread]
    exact step_readWindow (s := { s with ports := s.ports.set c q }) hw hq hoff

end

/-- Settles O56: a busy port's registers keep their value. -/
theorem busyPortIgnoresWrites : Obligations.BusyPortIgnoresWrites := by
  intro s c off p b rest hw hp hb hoff ha
  obtain ⟨hlt, rfl⟩ := List.getElem?_eq_some_iff.1 hp
  rw [step_writeWindow hw hp hoff ha, Port.writeReg_busy s.params b hb, List.set_getElem_self]

/-- Settles O55: the window's byte `0x40 + i` is `KEYIN[i]`. -/
theorem keyStagingTakesBytes : Obligations.KeyStagingTakesBytes := by
  intro s c p i b rest hw hp hb ha
  rw [step_writeWindow hw hp (by omega) ha, Port.writeReg_idle s.params b hb, Port.writeRegIdle_keyin p _ b i.isLt]

/-! ### `STATUS` (R33) -/

/-- `STATUS` as a number. -/
theorem Port.status_eq_ofNat (p : Port) :
    p.status = BitVec.ofNat 8
      (p.busy.toNat + 2 * p.live.toNat + 4 * p.ek.present.toNat + 8 * p.dk.present.toNat) := by
  unfold Port.status
  cases p.busy <;> cases p.live <;> cases p.ek.present <;> cases p.dk.present <;> rfl

/-- `STATUS` bit by bit. -/
theorem Port.status_bits (p : Port) :
    p.status.getLsbD 0 = p.busy ∧ p.status.getLsbD 1 = p.live ∧ p.status.getLsbD 2 = p.ek.present
      ∧ p.status.getLsbD 3 = p.dk.present ∧ p.status.extractLsb' 4 4 = 0 := by
  unfold Port.status
  cases p.busy <;> cases p.live <;> cases p.ek.present <;> cases p.dk.present <;> decide

/-- Settles O57: a read of a window, and what the window shows register by register. -/
theorem statusShowsItsBits : Obligations.StatusShowsItsBits := by
  intro s c p hw hp reads bytes
  have hreads : ∀ off x, off < 0x80 → p.readReg off = x → reads off x := by
    intro off x hoff hx rest
    rw [← hx]
    exact step_readWindow hw hp hoff
  refine ⟨hreads _ _ (by decide) rfl, hreads _ _ (by decide) p.status_eq_ofNat, hreads _ _ (by decide) ?_,
    hreads _ _ (by decide) (BitVec.ofNat_toNat 8 p.offset).symm, fun k hk => ⟨?_, ?_, ?_⟩, fun k => ⟨?_, ?_, ?_⟩,
    fun k hk => ?_, fun k hk => ?_, fun off h1 h2 => ?_, p.status_bits⟩
  · show p.result.code = _
    cases p.result <;> rfl
  · exact hreads _ _ (by omega) (p.readReg_len hk)
  · exact hreads _ _ (by omega) (p.readReg_src hk)
  · exact hreads _ _ (by omega) (p.readReg_dst hk)
  · exact hreads _ _ (by omega) (p.readReg_iv k.isLt)
  · exact hreads _ _ (by omega) (p.readReg_nc k.isLt)
  · exact hreads _ _ (by omega) (p.readReg_sb k.isLt)
  · exact hreads _ _ (by omega) (p.readReg_keyin hk)
  · exact hreads _ _ (by omega) (p.readReg_keybits hk)
  · exact hreads _ _ h2 (p.readReg_reserved h1)

/-! ### No read path to a key (R23) -/

/-- The window shows of a key record only whether it is set, and nothing of `KEYIN`. -/
theorem Port.readReg_keys (p : Port) {ek dk : KeyRecord} (keyin : Vector Byte 32) (off : Nat)
    (hek : ek.present = p.ek.present) (hdk : dk.present = p.dk.present) :
    { p with ek := ek, dk := dk, keyin := keyin }.readReg off = p.readReg off := by
  have hstatus : { p with ek := ek, dk := dk, keyin := keyin }.status = p.status := by
    simp only [Port.status, hek, hdk]
    rfl
  exact Port.readReg_congr (status := hstatus)

/-- Settles O58: the window is all a host reads. -/
theorem keysHaveNoReadPath : Obligations.KeysHaveNoReadPath := by
  refine ⟨fun p ek dk keyin off hek hdk => p.readReg_keys keyin off hek hdk, ?_, fun p => ?_⟩
  · intro s c p ek dk keyin a rest t hp hek hdk ha ht
    simp only [step, ha, happen] at ht
    obtain ⟨d, off, q, hd, hq, rfl⟩ := busRead_eq_next ht
    obtain ⟨hlt, -⟩ := List.getElem?_eq_some_iff.1 hp
    obtain ⟨r, hr, hsame⟩ : ∃ r, (s.ports.set c { p with ek := ek, dk := dk, keyin := keyin })[d]? = some r
        ∧ r.readReg off = q.readReg off := by
      by_cases hdc : c = d
      · subst hdc
        cases hp.symm.trans hq
        exact ⟨_, List.getElem?_set_self hlt, p.readReg_keys keyin off hek hdk⟩
      · exact ⟨q, (List.getElem?_set_ne hdc).trans hq, rfl⟩
    have hstep := step_read (s := { s with ports := s.ports.set c { p with ek := ek, dk := dk, keyin := keyin } })
      (a := a) (rest := rest) (by rw [List.length_set]; exact hd) hr
    simp only [← ha] at hstep
    exact ⟨_, hstep, hsame⟩
  · obtain ⟨-, -, hek, hdk, -⟩ := p.status_bits
    exact ⟨hek, hdk⟩

/-! ### Registers read back (R24 to R36) -/

/-- `OFFSET` keeps and shows the low four bits of a byte (R27). -/
theorem lowNibble_eq_and (b : Byte) : (BitVec.ofNat 4 b.toNat).setWidth 8 = b &&& 0x0F := by
  refine BitVec.eq_of_toNat_eq ?_
  have hand : b.toNat &&& 15 = b.toNat % 2 ^ 4 := Nat.and_two_pow_sub_one_eq_mod b.toNat 4
  simp only [BitVec.toNat_setWidth, BitVec.toNat_ofNat, BitVec.toNat_and]
  rw [Nat.mod_eq_of_lt (by omega)]
  exact hand.symm

/-- Settles O54: each offset by its own write and read equation, and the others by `readReg_writeRegIdle_other`. -/
theorem registersReadBack : Obligations.RegistersReadBack := by
  intro s c p b hw hp hb patch bytes gives
  have hgives : ∀ off q x, off < 0x80 → p.writeRegIdle s.params off b = q → q.readReg off = x → gives off q x :=
    fun off q x hoff hwrite hread => step_write_then_read hw hp hb hoff hwrite hread
  refine ⟨hgives _ _ _ (by decide) rfl rfl, hgives _ _ _ (by decide) rfl rfl, hgives _ _ _ (by decide) ?_ ?_,
    fun k hk => ⟨?_, ?_, ?_, fun w v hkw => byteLE_setByteLE_self v b hkw⟩, fun k => ⟨?_, ?_, ?_⟩, fun k => ?_,
    fun k hk => ?_, fun off h1 h2 => ?_, fun hwidths off off' h0 hne => ?_⟩
  · show { p with offset := b.setWidth 4 } = { p with offset := BitVec.ofNat 4 b.toNat }
    rw [BitVec.ofNat_toNat]
  · exact lowNibble_eq_and b
  · exact hgives _ _ _ (by omega) (p.writeRegIdle_len _ b hk) (Port.readReg_len _ hk)
  · exact hgives _ _ _ (by omega) (p.writeRegIdle_src _ b hk) (Port.readReg_src _ hk)
  · exact hgives _ _ _ (by omega) (p.writeRegIdle_dst _ b hk) (Port.readReg_dst _ hk)
  · exact hgives _ _ _ (by omega) (p.writeRegIdle_iv _ b k.isLt)
      ((Port.readReg_iv _ k.isLt).trans (Vector.getElem_set_self _))
  · exact hgives _ _ _ (by omega) (p.writeRegIdle_nc _ b k.isLt)
      ((Port.readReg_nc _ k.isLt).trans (Vector.getElem_set_self _))
  · exact hgives _ _ _ (by omega) (p.writeRegIdle_sb _ b k.isLt)
      ((Port.readReg_sb _ k.isLt).trans (Vector.getElem_set_self _))
  · exact hgives _ _ _ (by omega) (p.writeRegIdle_keyin _ b k.isLt) (Port.readReg_keyin _ k.isLt)
  · refine hgives _ _ _ (by omega) (p.writeRegIdle_keybits _ b hk) ((Port.readReg_keybits _ hk).trans ?_)
    show byteLE (BitVec.ofNat 16 (setByteLE 16 p.keybits.toNat k b)).toNat k = b
    rw [toNat_setByteLE, byteLE_setByteLE_self _ b (by omega)]
  · exact hgives _ _ _ h2 (p.writeRegIdle_reserved _ b h1) (p.readReg_reserved h1)
  · rw [Port.writeReg_idle s.params b hb]
    exact p.readReg_writeRegIdle_other s.params b hwidths h0 hne

/-! ### Reset (R44) -/

/-- Settles O51: every port after reset is `Port.reset`. -/
theorem resetValuesAreTheListedOnes : Obligations.ResetValuesAreTheListedOnes := by
  intro nctx ps
  refine ⟨List.length_replicate, rfl, fun c p hp => ?_⟩
  obtain rfl := List.eq_of_mem_replicate (List.mem_of_getElem? hp)
  exact ⟨rfl, rfl, rfl, rfl, rfl, rfl, rfl, rfl, rfl, rfl, rfl, rfl, rfl, rfl, rfl, rfl⟩

/-- Settles O40: after reset every port is at the base case of the invariant. -/
theorem invariantHoldsAfterReset : Obligations.InvariantHoldsAfterReset :=
  ⟨fun _ _ hn hw => State.inv_of_reset hn hw rfl rfl rfl,
    State.inv_of_reset (n := Config.nctx) (by decide) (by decide) rfl rfl rfl⟩

/-! ### What the invariant says of an idle machine, and of a busy port -/

/-- Settles O49: an idle port holds a reference exactly where it is live. -/
theorem refcountCountsTheLivePorts : Obligations.RefcountCountsTheLivePorts := by
  intro s h hq
  obtain ⟨hcount, hen⟩ := h.ref
  obtain ⟨hidle, -⟩ := hq
  refine ⟨hcount.trans (List.countP_congr fun p hp => ?_), hen⟩
  have hseq := (Port.busy_eq_false_iff p).1 (hidle p hp)
  simp [Port.holdsRef, hseq]

/-- Settles O19: every arm of `exec` is a call, and a busy port ignores a call. -/
theorem busyPortIgnoresACall : Obligations.BusyPortIgnoresACall := by
  intro s p i hp hb
  rw [exec_eq_issue]
  exact issue_busy _ i _ _ hp hb

/-- Settles O47: a granted step puts back the view of its own port. -/
theorem portsArePrivate : Obligations.PortsArePrivate := by
  intro s c d t h hd
  obtain ⟨p, v, -, -, rfl⟩ := grantStep_eq_next h
  exact ⟨State.putView_port_other v (Ne.symm hd), List.length_set, rfl, rfl⟩

end Sys2Proof.Machine
end

section
/-! The frame of every command (spec/10_state.md rules R25, R36; spec/30_encoding.md rule R95): which registers and which
bytes of memory a command can change, as an invariant of the atomic steps that a call takes. -/

namespace Sys2Proof.Machine

/-! ### The register a register update writes -/

/-- The registers a register update can write; `latches` are the sequencer's own. -/
inductive Reg where
  | latches
  | temp
  | iv
  | ov
  | sb
  | nc
  | offset
  | pos
  | ek
  | dk
  | keyin
  deriving DecidableEq

/-- The register each update writes. -/
def RegOp.target : RegOp → Reg
  | .blkFromIn => .latches
  | .blkFromInXorIv => .latches
  | .tempFromIn => .temp
  | .blkFromTemp => .latches
  | .blkFromIv => .latches
  | .blkFromNc => .latches
  | .outFromBlk => .latches
  | .outFromBlkXorIv => .latches
  | .outFromIvAtOffset => .latches
  | .outFromIvFirst => .latches
  | .outFromSbAtOffset => .latches
  | .ivFromBlk => .iv
  | .ivFromTemp => .iv
  | .ivAtOffsetFromOut => .iv
  | .ivAtOffsetFromIn => .iv
  | .ivFromOv => .iv
  | .ovFromIv => .ov
  | .ovLastFromOut => .ov
  | .ovLastFromIn => .ov
  | .sbFromBlk => .sb
  | .incNc => .nc
  | .incOffset => .offset
  | .advance _ => .pos
  | .clearEk => .ek
  | .clearDk => .dk
  | .clearKeyin => .keyin
  | .recordEk => .ek
  | .recordDk => .dk

section
variable (r : RegOp) (p : Port)

@[simp] theorem RegOp.apply_keybits : (r.apply p).keybits = p.keybits := by
  cases r <;> simp only [RegOp.apply]

variable {r}

theorem RegOp.apply_temp (h : r.target ≠ .temp) : (r.apply p).temp = p.temp := by
  cases r <;> simp_all [RegOp.apply, RegOp.target]

theorem RegOp.apply_iv (h : r.target ≠ .iv) : (r.apply p).iv = p.iv := by
  cases r <;> simp_all [RegOp.apply, RegOp.target]

theorem RegOp.apply_ov (h : r.target ≠ .ov) : (r.apply p).ov = p.ov := by
  cases r <;> simp_all [RegOp.apply, RegOp.target]

theorem RegOp.apply_sb (h : r.target ≠ .sb) : (r.apply p).sb = p.sb := by
  cases r <;> simp_all [RegOp.apply, RegOp.target]

theorem RegOp.apply_nc (h : r.target ≠ .nc) : (r.apply p).nc = p.nc := by
  cases r <;> simp_all [RegOp.apply, RegOp.target]

theorem RegOp.apply_offset (h : r.target ≠ .offset) : (r.apply p).offset = p.offset := by
  cases r <;> simp_all [RegOp.apply, RegOp.target]

theorem RegOp.apply_ek (h : r.target ≠ .ek) : (r.apply p).ek = p.ek := by
  cases r <;> simp_all [RegOp.apply, RegOp.target]

theorem RegOp.apply_dk (h : r.target ≠ .dk) : (r.apply p).dk = p.dk := by
  cases r <;> simp_all [RegOp.apply, RegOp.target]

theorem RegOp.apply_keyin (h : r.target ≠ .keyin) : (r.apply p).keyin = p.keyin := by
  cases r <;> simp_all [RegOp.apply, RegOp.target]

end

/-! ### The steps of each program -/

/-- The registers the updates of a command write (R95, R123, R124, R126, R127, R150 to R224). -/
def targetsOf : Instr → List Reg
  | .init => [.latches, .ek, .dk]
  | .free => [.latches, .ek, .dk, .keyin]
  | .setkeyDec => [.latches, .dk]
  | .setkeyEnc => [.latches, .ek]
  | .ecbDec => [.latches, .pos]
  | .ecbEnc => [.latches, .pos]
  | .cbcDec => [.latches, .pos, .iv, .temp]
  | .cbcEnc => [.latches, .pos, .iv]
  | .cfb128Dec => [.latches, .pos, .iv, .offset]
  | .cfb128Enc => [.latches, .pos, .iv, .offset]
  | .cfb8Dec => [.latches, .pos, .iv, .ov]
  | .cfb8Enc => [.latches, .pos, .iv, .ov]
  | .ctr => [.latches, .pos, .nc, .sb, .offset]

/-- A step of command `i` that, if it is a register update, writes a register of the command. -/
def targetOk (i : Instr) : MicroOp → Bool
  | .reg r => decide (r.target ∈ targetsOf i)
  | _ => true

theorem all_loopProgram {f : MicroOp → Bool} {unit : Port → List MicroOp} {p : Port}
    (h : (unit p).all f = true) (hc : f .complete = true) : (loopProgram unit p).all f = true := by
  unfold loopProgram
  split
  · exact h
  · simpa using hc

/-- Every step of every program is such a step. -/
theorem program_targetOk (i : Instr) (p : Port) : (Instr.program i p).all (targetOk i) = true := by
  cases i with
  | init | free | setkeyDec | setkeyEnc | ecbDec | ecbEnc => rfl
  | cbcDec | cbcEnc | cfb8Dec | cfb8Enc => exact all_loopProgram rfl rfl
  | cfb128Dec => exact all_loopProgram (by unfold cfb128DecUnit cfb128Refresh; split <;> rfl) rfl
  | cfb128Enc => exact all_loopProgram (by unfold cfb128EncUnit cfb128Refresh; split <;> rfl) rfl
  | ctr => exact all_loopProgram (by unfold ctrUnit ctrRefresh; split <;> rfl) rfl

/-! ### The bytes of each program -/

/-- `POS` after a step. -/
def MicroOp.posAfter (op : MicroOp) (pos : Nat) : Nat :=
  match op with
  | .reg (.advance n) => pos + n
  | _ => pos

/-- Where `POS` stands at a loop head: ECB has one unit, and CBC goes by blocks. -/
def headPos (i : Instr) (pos : Nat) : Prop :=
  match i with
  | .ecbDec => pos = 0
  | .ecbEnc => pos = 0
  | .cbcDec => pos % 16 = 0
  | .cbcEnc => pos % 16 = 0
  | _ => True

/-- The steps left of a unit of command `i`, from `POS` at `pos`, write only bytes below `n`, and end at a loop head. -/
def roomFor (i : Instr) (n : Nat) : Nat → List MicroOp → Prop
  | pos, [] => headPos i pos
  | pos, op :: rest =>
    (∀ j, op = .memWrite j → pos + j.val < n) ∧ (op ≠ .complete → roomFor i n (op.posAfter pos) rest)

@[simp] theorem roomFor_nil (i : Instr) (n pos : Nat) : roomFor i n pos [] ↔ headPos i pos := Iff.rfl

@[simp] theorem roomFor_memWrite (i : Instr) (n pos : Nat) (j : Fin 16) (rest : List MicroOp) :
    roomFor i n pos (.memWrite j :: rest) ↔ pos + j.val < n ∧ roomFor i n pos rest := by
  simp [roomFor, MicroOp.posAfter]

@[simp] theorem roomFor_advance (i : Instr) (n pos k : Nat) (rest : List MicroOp) :
    roomFor i n pos (.reg (.advance k) :: rest) ↔ roomFor i n (pos + k) rest := by
  simp [roomFor, MicroOp.posAfter]

@[simp] theorem roomFor_complete (i : Instr) (n pos : Nat) (rest : List MicroOp) :
    roomFor i n pos (.complete :: rest) := by
  simp [roomFor]

/-- A step that neither writes memory nor moves `POS` nor ends a command. -/
def MicroOp.still : MicroOp → Bool
  | .memWrite _ => false
  | .reg (.advance _) => false
  | .complete => false
  | _ => true

/-- Such steps in front change nothing. -/
theorem roomFor_append_still {i : Instr} {n pos : Nat} {ops rest : List MicroOp} (h : ops.all MicroOp.still = true) :
    roomFor i n pos (ops ++ rest) ↔ roomFor i n pos rest := by
  induction ops with
  | nil => exact Iff.rfl
  | cons op ops ih =>
    simp only [List.all_cons, Bool.and_eq_true] at h
    obtain ⟨hop, hops⟩ := h
    rw [List.cons_append, ← ih hops]
    cases op with
    | reg r => cases r <;> simp_all [roomFor, MicroOp.still, MicroOp.posAfter]
    | _ => simp_all [roomFor, MicroOp.still, MicroOp.posAfter]

theorem roomFor_memWrites {i : Instr} {n pos : Nat} {js : List (Fin 16)} {rest : List MicroOp}
    (h : ∀ j ∈ js, pos + j.val < n) : roomFor i n pos (js.map .memWrite ++ rest) ↔ roomFor i n pos rest := by
  induction js with
  | nil => exact Iff.rfl
  | cons j js ih =>
    rw [List.map_cons, List.cons_append, roomFor_memWrite, ih fun k hk => h k (List.mem_cons_of_mem j hk)]
    exact and_iff_right (h j List.mem_cons_self)

/-- The steps of a block up to its 16 writes (R62, R66). -/
theorem roomFor_block {i : Instr} {n pos : Nat} {ops rest : List MicroOp} (h : ops.all MicroOp.still = true)
    (hn : pos + 16 ≤ n) : roomFor i n pos (ops ++ writeBlockOps ++ rest) ↔ roomFor i n pos rest := by
  rw [List.append_assoc, roomFor_append_still h]
  exact roomFor_memWrites fun j _ => by omega

/-- A loop's program writes below `LEN` if its unit does (R38). -/
theorem roomFor_loop {i : Instr} {unit : Port → List MicroOp} {p : Port}
    (h : p.pos < p.len → roomFor i p.len p.pos (unit p)) : roomFor i p.len p.pos (loopProgram unit p) := by
  unfold loopProgram
  split
  · next hlt => exact h hlt
  · exact roomFor_complete i p.len p.pos []

theorem cfb128Refresh_still (p : Port) : (cfb128Refresh p).all MicroOp.still = true := by
  unfold cfb128Refresh; split <;> rfl

theorem ctrRefresh_still (p : Port) : (ctrRefresh p).all MicroOp.still = true := by
  unfold ctrRefresh; split <;> rfl

/-- A program read at a loop head writes only the bytes of its command (R66, R150, R151 to R224). -/
theorem roomFor_program {i : Instr} {p : Port} (hpos : headPos i p.pos)
    (hlen : i = .cbcDec ∨ i = .cbcEnc → p.len % 16 = 0) :
    roomFor i (Instr.dataLen i p) p.pos (Instr.program i p) := by
  cases i with
  | init | free | setkeyDec | setkeyEnc =>
    simp [roomFor, Instr.program, initProgram, freeProgram, setkeyEncProgram, setkeyDecProgram, headPos]
  | ecbDec | ecbEnc =>
    have hzero : p.pos = 0 := hpos
    refine (roomFor_block rfl ?_).2 ?_
    · simp [Instr.dataLen, hzero]
    · simp
  | cbcDec | cbcEnc =>
    have hblock : p.pos % 16 = 0 := hpos
    refine roomFor_loop fun hlt => (roomFor_block rfl ?_).2 ?_
    · simp at hlen; omega
    · simp [roomFor, MicroOp.posAfter, headPos, hblock]
  | cfb128Dec | cfb128Enc =>
    refine roomFor_loop fun hlt => (roomFor_append_still (cfb128Refresh_still p)).2 ?_
    simp [roomFor, MicroOp.posAfter, headPos, hlt]
  | cfb8Dec | cfb8Enc =>
    refine roomFor_loop fun hlt => (roomFor_append_still (ops := cfb8Keystream) rfl).2 ?_
    simp [roomFor, MicroOp.posAfter, headPos, hlt]
  | ctr =>
    refine roomFor_loop fun hlt => (roomFor_append_still (ctrRefresh_still p)).2 ?_
    simp [roomFor, MicroOp.posAfter, headPos, hlt]

/-! ### What one step keeps -/

/-- The registers of a port that command `i` keeps from `p` to `q`. -/
structure Port.Kept (i : Instr) (p q : Port) : Prop where
  keybits : q.keybits = p.keybits
  len : q.len = p.len
  src : q.src = p.src
  dst : q.dst = p.dst
  live : i ≠ .init ∧ i ≠ .free → q.live = p.live
  ek : .ek ∉ targetsOf i → q.ek = p.ek
  dk : .dk ∉ targetsOf i → q.dk = p.dk
  keyin : .keyin ∉ targetsOf i → q.keyin = p.keyin
  iv : .iv ∉ targetsOf i → q.iv = p.iv
  offset : .offset ∉ targetsOf i → q.offset = p.offset
  nc : .nc ∉ targetsOf i → q.nc = p.nc
  sb : .sb ∉ targetsOf i → q.sb = p.sb
  ov : .ov ∉ targetsOf i → q.ov = p.ov
  temp : .temp ∉ targetsOf i → q.temp = p.temp

/-- What command `i` keeps of a view from `v` to `w`. -/
structure View.Kept (ps : Params) (i : Instr) (v w : View) : Prop where
  port : v.port.Kept i w.port
  mem : ∀ a, (∀ j, j < Instr.dataLen i v.port → a % 2 ^ ps.aw ≠ (v.port.dst + j) % 2 ^ ps.aw) →
    w.mem.read ps.aw a = v.mem.read ps.aw a
  count : i ≠ .init ∧ i ≠ .free → w.eng.refcount = v.eng.refcount ∧ w.eng.enabled = v.eng.enabled
  active : Instr.keyDir i = none → w.eng.active = v.eng.active

section
variable {ps : Params} {i : Instr} {p q r : Port} {u v w : View}

/-- Two ports that differ only in `CMD`, `RESULT`, `POS`, the sequencer's place and the latches. -/
theorem Port.kept_of_place (cmd : Byte) (result : Result) (pos : Nat) (seq : Seq) (scratch : Scratch) :
    p.Kept i { p with cmd := cmd, result := result, pos := pos, seq := seq, scratch := scratch } :=
  ⟨rfl, rfl, rfl, rfl, fun _ => rfl, fun _ => rfl, fun _ => rfl, fun _ => rfl, fun _ => rfl, fun _ => rfl,
    fun _ => rfl, fun _ => rfl, fun _ => rfl, fun _ => rfl⟩

theorem Port.Kept.refl : p.Kept i p := Port.kept_of_place p.cmd p.result p.pos p.seq p.scratch

theorem Port.Kept.trans (h : p.Kept i q) (h' : q.Kept i r) : p.Kept i r where
  keybits := h'.keybits.trans h.keybits
  len := h'.len.trans h.len
  src := h'.src.trans h.src
  dst := h'.dst.trans h.dst
  live := fun hi => (h'.live hi).trans (h.live hi)
  ek := fun hi => (h'.ek hi).trans (h.ek hi)
  dk := fun hi => (h'.dk hi).trans (h.dk hi)
  keyin := fun hi => (h'.keyin hi).trans (h.keyin hi)
  iv := fun hi => (h'.iv hi).trans (h.iv hi)
  offset := fun hi => (h'.offset hi).trans (h.offset hi)
  nc := fun hi => (h'.nc hi).trans (h.nc hi)
  sb := fun hi => (h'.sb hi).trans (h.sb hi)
  ov := fun hi => (h'.ov hi).trans (h.ov hi)
  temp := fun hi => (h'.temp hi).trans (h.temp hi)

/-- The bytes a command writes are given by registers it keeps. -/
theorem Port.Kept.dataLen (h : p.Kept i q) : Instr.dataLen i q = Instr.dataLen i p := by
  cases i <;> simp [Instr.dataLen, h.len]

/-- A step of the port's own registers keeps memory and the shared state. -/
theorem View.kept_withPort (h : v.port.Kept i q) : v.Kept ps i { v with port := q } :=
  ⟨h, fun _ _ => rfl, fun _ => ⟨rfl, rfl⟩, fun _ => rfl⟩

theorem View.Kept.trans (h : u.Kept ps i v) (h' : v.Kept ps i w) : u.Kept ps i w where
  port := h.port.trans h'.port
  mem := fun a ha => (h'.mem a (by rw [h.port.dataLen, h.port.dst]; exact ha)).trans (h.mem a ha)
  count := fun hi => ⟨(h'.count hi).1.trans (h.count hi).1, (h'.count hi).2.trans (h.count hi).2⟩
  active := fun hi => (h'.active hi).trans (h.active hi)

/-- A register update of the command. -/
theorem RegOp.apply_kept {r : RegOp} (p : Port) (h : targetOk i (.reg r) = true) : p.Kept i (r.apply p) := by
  have hne : ∀ {t}, t ∉ targetsOf i → r.target ≠ t := by
    rintro t ht rfl
    exact ht (by simpa [targetOk] using h)
  exact
    { keybits := r.apply_keybits p
      len := r.apply_len p
      src := r.apply_src p
      dst := r.apply_dst p
      live := fun _ => r.apply_live p
      ek := fun hi => apply_ek p (hne hi)
      dk := fun hi => apply_dk p (hne hi)
      keyin := fun hi => apply_keyin p (hne hi)
      iv := fun hi => apply_iv p (hne hi)
      offset := fun hi => apply_offset p (hne hi)
      nc := fun hi => apply_nc p (hne hi)
      sb := fun hi => apply_sb p (hne hi)
      ov := fun hi => apply_ov p (hne hi)
      temp := fun hi => apply_temp p (hne hi) }

/-- Every step of a program of command `i` keeps what the command keeps, if its memory write has room. -/
theorem perform_kept {prim : BlockPrimitive} {c : Nat} {op : MicroOp} {rest : List MicroOp}
    (hhead : headOk i op rest = true) (htarget : targetOk i op = true) (hmem : v.mem.wf ps.aw = true)
    (hroom : ∀ j, op = .memWrite j → v.port.pos + j.val < Instr.dataLen i v.port)
    (h : perform prim ps c op v = .next w) : v.Kept ps i w := by
  cases op with
  | memRead j => cases h; exact View.kept_withPort (Port.kept_of_place ..)
  | memWrite j =>
    cases h
    refine ⟨Port.Kept.refl, fun a ha => ?_, fun _ => ⟨rfl, rfl⟩, fun _ => rfl⟩
    have hne := ha _ (hroom j rfl)
    rw [← Nat.add_assoc] at hne
    exact (Memory.read_write hmem _ a _).trans (if_neg hne)
  | reg r => cases h; exact View.kept_withPort (RegOp.apply_kept v.port htarget)
  | take => cases h; exact ⟨Port.Kept.refl, fun _ _ => rfl, fun _ => ⟨rfl, rfl⟩, fun _ => rfl⟩
  | install d =>
    have hdir : Instr.keyDir i ≠ none := by simp_all [headOk]
    simp only [perform] at h
    split at h <;> cases h
    exact ⟨Port.Kept.refl, fun _ _ => rfl, fun _ => ⟨rfl, rfl⟩, fun hi => absurd hi hdir⟩
  | transform d =>
    simp only [perform] at h
    split at h
    · split at h <;> cases h
      exact View.kept_withPort (Port.kept_of_place ..)
    · cases h
  | give => cases h; exact ⟨Port.Kept.refl, fun _ _ => rfl, fun _ => ⟨rfl, rfl⟩, fun _ => rfl⟩
  | acquire =>
    have hi : i = .init := by simp_all [headOk]
    cases h
    rcases acquireStep_cases ps v with heq | heq <;> rw [heq]
    · exact ⟨Port.kept_of_place .., fun _ _ => rfl, fun hn => absurd hi hn.1, fun _ => rfl⟩
    · exact View.kept_withPort (Port.kept_of_place ..)
  | release =>
    have hi : i = .free := by simp_all [headOk]
    cases h
    rcases releaseStep_cases ps v with heq | heq <;> rw [heq]
    · exact ⟨Port.kept_of_place .., fun _ _ => rfl, fun hn => absurd hi hn.2, fun _ => rfl⟩
    · exact View.kept_withPort (Port.kept_of_place ..)
  | setLive b =>
    have hi : i = .init ∨ i = .free := by
      simp only [headOk, Bool.and_eq_true, Bool.or_eq_true, decide_eq_true_eq] at hhead
      exact hhead.1.imp And.left And.left
    cases h
    refine View.kept_withPort ?_
    unfold Port.setLive
    split
    · exact Port.Kept.refl
    · exact { Port.Kept.refl (p := v.port) with live := fun hn => absurd hi (not_or.2 hn) }
  | conclude => cases h; exact View.kept_withPort (Port.kept_of_place ..)
  | complete => cases h; exact View.kept_withPort (Port.kept_of_place ..)

/-- A step writes one byte of memory or none. -/
theorem perform_mem_wf {prim : BlockPrimitive} {c : Nat} {op : MicroOp} (hmem : v.mem.wf ps.aw = true)
    (h : perform prim ps c op v = .next w) : w.mem.wf ps.aw = true := by
  cases op with
  | memWrite j => cases h; exact Memory.wf_write _ _ hmem
  | install d =>
    simp only [perform] at h
    split at h <;> cases h
    exact hmem
  | transform d =>
    simp only [perform] at h
    split at h
    · split at h <;> cases h
      exact hmem
    · cases h
  | acquire => cases h; rcases acquireStep_cases ps v with heq | heq <;> rw [heq] <;> exact hmem
  | release => cases h; rcases releaseStep_cases ps v with heq | heq <;> rw [heq] <;> exact hmem
  | _ => cases h; exact hmem

/-- Only `advance` moves `POS` (R38). -/
theorem perform_pos {prim : BlockPrimitive} {c : Nat} {op : MicroOp}
    (h : perform prim ps c op v = .next w) : w.port.pos = op.posAfter v.port.pos := by
  cases op with
  | reg r => cases h; cases r <;> simp only [RegOp.apply, MicroOp.posAfter]
  | install d =>
    simp only [perform] at h
    split at h <;> cases h
    rfl
  | transform d =>
    simp only [perform] at h
    split at h
    · split at h <;> cases h
      rfl
    · cases h
  | acquire => cases h; rcases acquireStep_cases ps v with heq | heq <;> rw [heq] <;> rfl
  | release => cases h; rcases releaseStep_cases ps v with heq | heq <;> rw [heq] <;> rfl
  | setLive b => cases h; simp only [Port.setLive]; split <;> rfl
  | _ => cases h; rfl

end

/-! ### A call keeps its command's frame -/

/-- Where the sequencer of a port that runs command `i` alone stands, with what its writes of memory rest on. -/
def Port.placed (i : Instr) (p : Port) : Prop :=
  match p.seq with
  | .idle => True
  | .decoded o => o = some i ∧ p.pos = 0
  | .run i' todo =>
    i' = i ∧ listOk i todo = true ∧ todo.all (targetOk i) = true
      ∧ (i = .cbcDec ∨ i = .cbcEnc → p.len % 16 = 0) ∧ roomFor i (Instr.dataLen i p) p.pos todo
  | .ending _ => True

section
variable {prim : BlockPrimitive} {ps : Params} {c : Nat} {i : Instr} {v w : View}

/-- A validated CBC command has a whole number of blocks (R161). -/
theorem len_of_check {p : Port} (h : Instr.check i p = none) : i = .cbcDec ∨ i = .cbcEnc → p.len % 16 = 0 := by
  obtain ⟨-, ho, -⟩ := check_eq_none_iff.1 h
  rintro (rfl | rfl) <;> simpa [operandCheck, checkLength] using ho

/-- A step of a placed command keeps what the command keeps, and leaves it placed. -/
theorem perform_placed {op : MicroOp} {rest : List MicroOp} (hs : v.port.seq = .run i rest)
    (hlist : headOk i op rest = true ∧ listOk i rest = true)
    (htarget : targetOk i op = true ∧ rest.all (targetOk i) = true)
    (hlen : i = .cbcDec ∨ i = .cbcEnc → v.port.len % 16 = 0)
    (hroom : roomFor i (Instr.dataLen i v.port) v.port.pos (op :: rest)) (hmem : v.mem.wf ps.aw = true)
    (h : perform prim ps c op v = .next w) : v.Kept ps i w ∧ w.port.placed i ∧ w.mem.wf ps.aw = true := by
  obtain ⟨hhead, hlist⟩ := hlist
  obtain ⟨hop, htarget⟩ := htarget
  obtain ⟨hwrite, hrest⟩ := hroom
  have hkept := perform_kept hhead hop hmem hwrite h
  refine ⟨hkept, ?_, perform_mem_wf hmem h⟩
  by_cases hlast : op = .conclude ∨ op = .complete
  · rcases hlast with rfl | rfl <;> cases h <;> trivial
  · obtain ⟨hc, hk⟩ := not_or.1 hlast
    have hseq := (perform_seq h hc hk).trans hs
    simp only [Port.placed, hseq, hkept.port.len, hkept.port.dataLen, perform_pos h]
    exact ⟨trivial, hlist, htarget, hlen, hrest hk⟩

/-- A step of the sequencer keeps what its command keeps, and leaves the command placed. -/
theorem microStep_kept (hplace : v.port.placed i) (hmem : v.mem.wf ps.aw = true)
    (h : microStep prim ps c v = .next w) :
    v.Kept ps i w ∧ w.port.placed i ∧ w.mem.wf ps.aw = true := by
  cases hs : v.port.seq with
  | idle =>
    simp only [microStep, hs] at h
    cases h
    exact ⟨View.kept_withPort Port.Kept.refl, hplace, hmem⟩
  | decoded o =>
    obtain ⟨rfl, hpos⟩ : o = some i ∧ v.port.pos = 0 := by simpa [Port.placed, hs] using hplace
    cases hk : Instr.check i v.port with
    | some k =>
      simp only [microStep, hs, hk] at h
      cases h
      exact ⟨View.kept_withPort (Port.kept_of_place ..), trivial, hmem⟩
    | none =>
      simp only [microStep, hs, hk] at h
      cases h
      have hlen := len_of_check hk
      refine ⟨View.kept_withPort (Port.kept_of_place ..), ⟨rfl, rfl, rfl, hlen, ?_⟩, hmem⟩
      show headPos i v.port.pos
      rw [hpos]
      cases i <;> simp [headPos]
  | run i' todo =>
    obtain ⟨rfl, hlist, htarget, hlen, hroom⟩ : i' = i ∧ listOk i todo = true ∧ todo.all (targetOk i) = true
        ∧ (i = .cbcDec ∨ i = .cbcEnc → v.port.len % 16 = 0)
        ∧ roomFor i (Instr.dataLen i v.port) v.port.pos todo := by simpa [Port.placed, hs] using hplace
    cases todo with
    | nil =>
      simp only [microStep, hs] at h
      cases h
      exact ⟨View.kept_withPort (Port.kept_of_place ..), ⟨rfl, (Instr.program_ok i' v.port).1,
        program_targetOk i' v.port, hlen, roomFor_program hroom hlen⟩, hmem⟩
    | cons op rest =>
      cases he : op.enabled c v.eng with
      | false =>
        simp only [microStep, hs, he] at h
        cases h
        exact ⟨View.kept_withPort Port.Kept.refl, hplace, hmem⟩
      | true =>
        simp only [microStep, hs, he, if_true] at h
        simp only [listOk, List.all_cons, Bool.and_eq_true] at hlist htarget
        obtain ⟨hkept, hplace', hmem'⟩ := perform_placed (v := { v with port := v.port.withSeq (.run i' rest) }) rfl
          hlist htarget hlen hroom hmem h
        exact ⟨(View.kept_withPort (Port.kept_of_place ..)).trans hkept, hplace', hmem'⟩
  | ending o =>
    simp only [microStep, hs] at h
    cases h
    exact ⟨View.kept_withPort (Port.kept_of_place ..), trivial, hmem⟩

/-- A run of a command's steps keeps what the command keeps. -/
theorem Reaches.kept (hplace : v.port.placed i) (hmem : v.mem.wf ps.aw = true)
    (h : Reaches prim ps c v (.next w)) : v.Kept ps i w := by
  obtain ⟨n, hn⟩ := h
  induction n generalizing v with
  | zero => cases hn; exact View.kept_withPort Port.Kept.refl
  | succ n ih =>
    obtain ⟨u, hu, hn⟩ := andThen_eq_next hn
    obtain ⟨hkept, hplace', hmem'⟩ := microStep_kept hplace hmem hu
    exact hkept.trans (ih hplace' hmem' hn)

/-- A call that answers keeps what its command keeps, and puts back the called port's view. -/
theorem exec_kept {s t : State} {p : Port} (hp : s.ports[s.cur]? = some p) (hmem : s.mem.wf s.params.aw = true)
    (h : exec i s = .next t) :
    ∃ w, t = s.putView s.cur w ∧ View.Kept s.params i { port := p, eng := s.engine, mem := s.mem } w := by
  rw [exec_eq_issue] at h
  obtain ⟨q, hq, hcase⟩ := issue_eq_next h
  cases hp.symm.trans hq
  rcases hcase with ⟨-, rfl⟩ | ⟨-, w, hw, rfl⟩
  · exact ⟨_, (State.putView_self hp).symm, View.kept_withPort Port.Kept.refl⟩
  · refine ⟨w, rfl, View.Kept.trans (View.kept_withPort (Port.kept_of_place ..)) (Reaches.kept ?_ hmem
      (hw ▸ reaches_runCommand (v := { port := p.start (encode i), eng := s.engine, mem := s.mem }) ?_))⟩
    · exact ⟨decodeCommand_encode i, rfl⟩
    · exact congrArg Seq.decoded (decodeCommand_encode i)

end

/-- Settles O29: a call is a run of steps that keep what the command keeps. -/
theorem commandsKeepTheirFrame : Obligations.CommandsKeepTheirFrame := by
  intro s p i t hp hmem h
  obtain ⟨w, rfl, hkept⟩ := exec_kept hp hmem h
  have hport := hkept.port
  refine ⟨hkept.mem, rfl, rfl, rfl, rfl, fun c hc => State.putView_port_other w (Ne.symm hc), hkept.count,
    hkept.active, w.port, State.putView_port_self w hp, hport.keybits, hport.len, hport.src, hport.dst,
    fun hi => hport.keyin ?_, hport.live, fun hi => hport.ek ?_, fun hi => hport.dk ?_, fun hi => hport.iv ?_,
    fun hi => hport.offset ?_, fun hi => ⟨hport.nc ?_, hport.sb ?_⟩, fun hi => hport.ov ?_, fun hi => hport.temp ?_⟩
  all_goals cases i <;> simp_all [targetsOf]

end Sys2Proof.Machine
end

section
/-! Data memory and the lock (spec/20_memory.md): where a write of several bytes lands (R60 to R63), that a call is a
run of the port's sequencer (R74, R99), what a lock span shuts out (R72, R130), and that a busy machine moves (R293). -/

namespace Sys2Proof.Machine

/-! ### Writes of several bytes (R61 to R63) -/

section
variable {aw : Nat} {m : Memory}

/-- Two addresses less than `2^AW` apart do not name one byte. -/
theorem add_mod_two_pow_ne {a k l : Nat} (hkl : k < l) (hl : l < 2 ^ aw) :
    (a + k) % 2 ^ aw ≠ (a + l) % 2 ^ aw := by
  intro h
  have hmod : k ≡ l [MOD 2 ^ aw] := Nat.ModEq.add_left_cancel' a h
  exact hkl.ne (hmod.eq_of_lt_of_lt (hkl.trans hl) hl)

/-- A write of at most `2^AW` bytes puts byte `j` at `a + j`: the bytes behind it land elsewhere. -/
theorem Memory.read_writeBytes_self (h : m.wf aw = true) (a : Nat) {bs : List Byte} (hlen : bs.length ≤ 2 ^ aw)
    {j : Nat} {b : Byte} (hb : bs[j]? = some b) : (m.writeBytes aw a bs).read aw (a + j) = b := by
  induction bs generalizing m a j with
  | nil => cases hb
  | cons x xs ih =>
    rw [List.length_cons] at hlen
    have hwf := Memory.wf_write a x h
    cases j with
    | zero =>
      obtain rfl : x = b := by simpa using hb
      have hother := Memory.read_writeBytes_other hwf (a + 1) xs (x := a) fun k hk => by
        rw [Nat.add_assoc]
        exact add_mod_two_pow_ne (k := 0) (by omega) (by omega)
      exact hother.trans (by rw [Memory.read_write h, if_pos rfl])
    | succ j =>
      have hrest := ih hwf (a + 1) (by omega) hb
      rwa [show a + 1 + j = a + (j + 1) by omega] at hrest

end

/-- Settles O59, by the laws of writes of several bytes: the canonical form, the bytes written, the other bytes. -/
theorem writesLandWhereTheyShould : Obligations.WritesLandWhereTheyShould := by
  intro m aw a bs hm hlen
  refine ⟨Memory.wf_writeBytes a bs hm, fun j b hb => ?_, fun x hx => Memory.read_writeBytes_other hm a bs hx⟩
  rw [Memory.read_congr _ (Nat.mod_mod (a + j) _)]
  exact Memory.read_writeBytes_self hm a hlen hb

/-- Settles O60: the read finds the byte of the write before it. -/
theorem hostReachesDataMemory : Obligations.HostReachesDataMemory := by
  intro s a b rest hm ha
  have hread : (s.mem.write s.params.aw a b).read s.params.aw a = b := by
    rw [Memory.read_write hm, if_pos rfl]
  refine ⟨{ s with agenda := .memRead a :: rest, mem := s.mem.write s.params.aw a b }, ?_, ?_⟩
  · simp only [step, ha, happen, hostMemWrite]
  · simp only [step, happen, hostMemRead, hread]

/-! ### Granted steps through one port's view -/

section
variable {prim : BlockPrimitive} {s : State} {c : Nat} {p : Port}

/-- A step granted to a port that exists is one atomic step on its view. -/
theorem grantStep_eq (hp : s.ports[c]? = some p) :
    grantStep prim c s
      = mapNext (s.putView c) (microStep prim s.params c { port := p, eng := s.engine, mem := s.mem }) := by
  simp only [grantStep, State.view_of_port hp]

/-- Steps granted to one port alone are atomic steps on its view, put back at the end (R74). -/
theorem grantAlone_putView (hp : s.ports[c]? = some p) (n : Nat) (v : View) :
    grantAlone prim c n (s.putView c v) = mapNext (s.putView c) (microRun prim s.params c n v) := by
  induction n generalizing v with
  | zero => rfl
  | succ n ih =>
    have hstep : grantStep prim c (s.putView c v) = mapNext (s.putView c) (microStep prim s.params c v) := by
      rw [grantStep_eq (State.putView_port_self v hp), show (s.putView c v).putView c = s.putView c from
        funext fun w => State.putView_putView s c v w]
      rfl
    simp only [grantAlone, hstep, microRun]
    cases microStep prim s.params c v with
    | next w => exact ih w
    | fault r => rfl
    | refused r => rfl

/-- A change of the called port alone is its view put back. -/
theorem State.mapPort_eq_putView (hp : s.ports[s.cur]? = some p) (f : Port → Port) :
    s.mapPort f = s.putView s.cur { port := f p, eng := s.engine, mem := s.mem } := by
  simp [State.mapPort, State.putView, List.modify_eq_set_getElem?, hp]

end

/-- Settles O43: the `CMD` write starts the command, and the call is a run of the sequencer from there. -/
theorem callIsASequencerRun : Obligations.CallIsASequencerRun := by
  intro s p i t hport ht
  obtain ⟨hp, hidle⟩ := hport
  have hwrite : p.writeReg s.params 0 (encode i) = p.start (encode i) := Port.writeReg_idle _ _ hidle
  rw [exec_eq_issue, issue_idle _ _ _ _ hp hidle] at ht
  obtain ⟨n, hn⟩ := reaches_runCommand (prim := Config.primitive) (ps := s.params) (c := s.cur) (i := i)
    (v := { port := p.start (encode i), eng := s.engine, mem := s.mem }) (by simp [decodeCommand_encode])
  refine ⟨n, ?_⟩
  rw [State.mapPort_eq_putView hp, hwrite, grantAlone_putView hp, hn]
  exact ht

/-! ### The lock (R72) -/

/-- Settles O44: `take` is not enabled, and the step puts the port's view back as it was. -/
theorem takeWaitsForTheLock : Obligations.TakeWaitsForTheLock := by
  intro s c p i rest hp hs hlock
  have hstay : microStep Config.primitive s.params c { port := p, eng := s.engine, mem := s.mem }
      = .next { port := p, eng := s.engine, mem := s.mem } := by
    simp [microStep, hs, MicroOp.enabled, hlock]
  rw [grantStep_eq hp, hstay, mapNext_next, State.putView_self hp]

section
variable {prim : BlockPrimitive} {ps : Params} {c : Nat} {i : Instr} {op : MicroOp} {rest : List MicroOp} {v w : View}

/-- A step that takes no part in a lock span leaves the shared state as it is (R71). -/
theorem perform_outside_eng (hop : op.outside = true) (h : perform prim ps c op v = .next w) : w.eng = v.eng := by
  cases op with
  | memRead j => cases h; rfl
  | memWrite j => cases h; rfl
  | reg r => cases h; rfl
  | setLive b => cases h; rfl
  | conclude => cases h; rfl
  | complete => cases h; rfl
  | take => cases hop
  | install d => cases hop
  | transform d => cases hop
  | give => cases hop
  | acquire => cases hop
  | release => cases hop

/-- Outside every lock span the next step of a unit is `take` or takes no part in a span. -/
theorem head_of_spanOk_out (h : spanOk .out (op :: rest) = true) : op = .take ∨ op.outside = true := by
  cases op <;> simp_all [spanOk, MicroOp.outside]

/-- What a sequencer's step that answers has done: at the head of a unit's steps it waited, or took the first of them;
everywhere else it changed its port alone, and if the port was busy the sequencer moved. -/
theorem microStep_eq_next (h : microStep prim ps c v = .next w) :
    (∃ i op rest, v.port.seq = .run i (op :: rest)
        ∧ (op.enabled c v.eng = false ∧ w = v
          ∨ op.enabled c v.eng = true
            ∧ perform prim ps c op { v with port := v.port.withSeq (.run i rest) } = .next w))
      ∨ w = { v with port := w.port } ∧ (v.port.busy = true → w.port.seq ≠ v.port.seq) := by
  cases hs : v.port.seq with
  | idle => simp only [microStep, hs] at h; cases h; exact .inr ⟨rfl, by simp [Port.busy, hs]⟩
  | decoded o =>
    cases o with
    | none => simp only [microStep, hs] at h; cases h; exact .inr ⟨rfl, by simp⟩
    | some i =>
      cases hk : Instr.check i v.port <;> simp only [microStep, hs, hk] at h <;> cases h <;>
        exact .inr ⟨rfl, by simp⟩
  | run i todo =>
    cases todo with
    | nil =>
      obtain ⟨-, -, hne⟩ := Instr.program_ok i v.port
      simp only [microStep, hs] at h
      cases h
      exact .inr ⟨rfl, fun _ => by simpa [List.isEmpty_eq_false_iff] using hne⟩
    | cons op rest =>
      refine .inl ⟨i, op, rest, rfl, ?_⟩
      cases he : op.enabled c v.eng <;> simp only [microStep, hs, he, if_true] at h
      · cases h; exact .inl ⟨rfl, rfl⟩
      · exact .inr ⟨rfl, h⟩
  | ending o => simp only [microStep, hs] at h; cases h; exact .inr ⟨rfl, by simp⟩

/-- While another port holds the lock, a sequencer's step leaves the shared state as it is (R72, R130). -/
theorem microStep_eng_of_held {d : Nat} (hok : v.Ok ps c) (hlock : v.eng.lock = .held d) (hd : c ≠ d)
    (h : microStep prim ps c v = .next w) : w.eng = v.eng := by
  rcases microStep_eq_next h with ⟨i, op, rest, hs, ⟨-, rfl⟩ | ⟨he, hw⟩⟩ | ⟨hw, -⟩
  · rfl
  · obtain ⟨st, hspan, hfit⟩ := hok.span
    rw [Port.todo_run hs] at hspan
    obtain rfl : st = .out := by cases st <;> simp_all [Span.fits]
    rcases head_of_spanOk_out hspan with rfl | hop
    · simp [MicroOp.enabled, hlock] at he
    · have heng := perform_outside_eng hop hw
      exact heng
  · rw [hw]

end

/-- Settles O45: the granted port stands outside every lock span, and its steps there leave the shared state alone. -/
theorem lockSpanExcludesOtherPorts : Obligations.LockSpanExcludesOtherPorts := by
  intro s c d t h hlock hd ht
  obtain ⟨p, w, hp, hw, rfl⟩ := grantStep_eq_next ht
  exact microStep_eng_of_held (h.view_ok hp) hlock hd hw

/-! ### Progress (R72, R293) -/

section
variable {prim : BlockPrimitive} {ps : Params} {c : Nat} {i : Instr} {op : MicroOp} {rest : List MicroOp} {v w : View}

/-- While no other port holds the lock, the next step of a unit can be taken: `take` stands outside every lock span,
where the lock is free, and `give` inside the port's own (R72). -/
theorem enabled_of_fits {p : Port} {e : Engine} {st : Span} (hspan : spanOk st (op :: rest) = true)
    (hfit : st.fits c p e) (hlock : e.lock = .free ∨ e.lock = .held c) : op.enabled c e = true := by
  cases op with
  | take =>
    cases st with
    | out => simpa [MicroOp.enabled] using hlock.resolve_right hfit
    | held => cases hspan
    | ready d => cases hspan
  | give =>
    cases st with
    | out => cases hspan
    | held => exact decide_eq_true hfit
    | ready d => exact decide_eq_true hfit.1
  | _ => rfl

/-- A step of a unit moves the sequencer past it, or ends the command. -/
theorem perform_moves (h : perform prim ps c op { v with port := v.port.withSeq (.run i rest) } = .next w) :
    w.port.seq ≠ .run i (op :: rest) := by
  by_cases hlast : op = .conclude ∨ op = .complete
  · rcases hlast with rfl | rfl <;> cases h <;> intro hseq <;> cases hseq
  · obtain ⟨hc, hk⟩ := not_or.1 hlast
    rw [perform_seq h hc hk]
    simp

/-- While no other port holds the lock, a busy port's step moves its sequencer. -/
theorem microStep_moves (hok : v.Ok ps c) (hb : v.port.busy = true)
    (hlock : v.eng.lock = .free ∨ v.eng.lock = .held c) (h : microStep prim ps c v = .next w) :
    w.port.seq ≠ v.port.seq := by
  rcases microStep_eq_next h with ⟨i, op, rest, hs, hcase⟩ | ⟨-, hmoves⟩
  · obtain ⟨st, hspan, hfit⟩ := hok.span
    rw [Port.todo_run hs] at hspan
    have hen := enabled_of_fits hspan hfit hlock
    rcases hcase with ⟨he, -⟩ | ⟨-, hw⟩
    · rw [hen] at he; cases he
    · rw [hs]; exact perform_moves hw
  · exact hmoves hb

/-- The port that holds the lock is inside its lock span, and so busy (R72). -/
theorem View.Ok.busy_of_held (hok : v.Ok ps c) (hlock : v.eng.lock = .held c) : v.port.busy = true := by
  by_contra hb
  have hidle := (Port.busy_eq_false_iff v.port).1 (by simpa using hb)
  exact hok.out_of_todo_nil (by simp [Port.todo, hidle]) hlock

end

/-- From a state of the invariant, and while no other port holds the lock, a step granted to a busy port changes the
machine. -/
theorem State.Inv.grant_moves {prim : BlockPrimitive} {s : State} {c : Nat} {p : Port} (h : s.Inv)
    (hp : s.ports[c]? = some p) (hb : p.busy = true) (hlock : s.engine.lock = .free ∨ s.engine.lock = .held c) :
    ∃ t, grantStep prim c s = .next t ∧ t ≠ s := by
  obtain ⟨w, hw, -⟩ := h.microStep (prim := prim) hp
  refine ⟨s.putView c w, by rw [grantStep_eq hp, hw, mapNext_next], fun hsame => ?_⟩
  have hport := State.putView_port_self w hp
  rw [hsame, hp] at hport
  have hseq := microStep_moves (h.view_ok hp) hb hlock hw
  exact hseq (congrArg Port.seq (Option.some.inj hport)).symm

/-- Settles O48: the port that holds the lock moves, and where the lock is free any busy port does. -/
theorem somePortCanAlwaysMove : Obligations.SomePortCanAlwaysMove := by
  intro s p h hmem hb
  cases hlock : s.engine.lock with
  | free =>
    obtain ⟨c, hp⟩ := List.mem_iff_getElem?.1 hmem
    exact ⟨c, h.grant_moves hp hb (.inl hlock)⟩
  | held c =>
    obtain ⟨q, hp⟩ : ∃ q, s.ports[c]? = some q := ⟨_, List.getElem?_eq_getElem (h.lock c hlock)⟩
    exact ⟨c, h.grant_moves hp ((h.view_ok hp).busy_of_held hlock) (.inr hlock)⟩

end Sys2Proof.Machine
end

section
/-! The command byte (spec/30_encoding.md): its fields decide what it decodes to (R92 to R94), each reserved byte is
rejected by one of them (R98), and what its write or its call starts (R91, R99, R245). -/

namespace Sys2Proof.Machine

/-! ### The fields of a byte (R92), as numbers -/

section
variable (w : Byte)

theorem toNat_opField : (opField w).toNat = w.toNat % 16 := by
  simp [opField]

theorem toNat_dirField : (dirField w).toNat = w.toNat / 16 % 2 := by
  simp [dirField, Nat.shiftRight_eq_div_pow]

theorem toNat_zeroField : (zeroField w).toNat = w.toNat / 32 := by
  have := w.isLt
  simp only [zeroField, BitVec.extractLsb'_toNat, Nat.shiftRight_eq_div_pow]
  omega

theorem zeroField_eq_zero_iff : zeroField w = 0 ↔ w.toNat < 0x20 := by
  simp [← BitVec.toNat_inj, toNat_zeroField]

end

/-- A byte has no bit outside its three fields. -/
theorem byte_eq_of_fields {w w' : Byte} (hz : zeroField w = zeroField w') (hd : dirField w = dirField w')
    (ho : opField w = opField w') : w = w' := by
  rw [← BitVec.toNat_inj] at hz hd ho ⊢
  rw [toNat_zeroField, toNat_zeroField] at hz
  rw [toNat_dirField, toNat_dirField] at hd
  rw [toNat_opField, toNat_opField] at ho
  omega

/-! ### The decoder, by the fields (R93, R94, R98) -/

/-- What the table says of each command's byte. -/
theorem encoding_statement (i : Instr) : Laws.Encoding.Statement i :=
  match i with
  | .init => Laws.Encoding.init
  | .free => Laws.Encoding.free
  | .setkeyDec => Laws.Encoding.setkeyDec
  | .setkeyEnc => Laws.Encoding.setkeyEnc
  | .ecbDec => Laws.Encoding.ecbDec
  | .ecbEnc => Laws.Encoding.ecbEnc
  | .cbcDec => Laws.Encoding.cbcDec
  | .cbcEnc => Laws.Encoding.cbcEnc
  | .cfb128Dec => Laws.Encoding.cfb128Dec
  | .cfb128Enc => Laws.Encoding.cfb128Enc
  | .cfb8Dec => Laws.Encoding.cfb8Dec
  | .cfb8Enc => Laws.Encoding.cfb8Enc
  | .ctr => Laws.Encoding.ctr

theorem decodeByte_encode (i : Instr) : decodeByte (encode i) = .ok i := by
  obtain ⟨-, -, -, -, hdec, -⟩ := encoding_statement i
  exact hdec

section
variable {w : Byte} {i : Instr}

/-- A byte that decodes has the fields of its command: each arm of the decoder names them. -/
theorem fields_of_decodeByte (h : decodeByte w = .ok i) :
    zeroField w = 0 ∧ dirField w = i.dirBit ∧ opField w = i.op := by
  have hone : ¬(dirField w).toNat = 0 ↔ (dirField w).toNat = 1 := by omega
  unfold decodeByte at h
  split at h
  · cases h
  · next hz =>
    refine ⟨not_not.1 hz, ?_⟩
    rw [← BitVec.toNat_inj, ← BitVec.toNat_inj (x := opField w)]
    split at h <;> cases h
    all_goals
      next hop hdir => exact ⟨by simpa [Instr.dirBit, hone] using hdir, hop⟩

theorem encode_of_decodeByte (h : decodeByte w = .ok i) : encode i = w := by
  obtain ⟨hz, hd, ho⟩ := fields_of_decodeByte h
  obtain ⟨hz', ho', hd', -⟩ := encoding_statement i
  exact byte_eq_of_fields (hz'.trans hz.symm) (hd'.trans hd.symm) (ho'.trans ho.symm)

theorem decodeCommand_of_decodeByte (h : decodeByte w = .ok i) : decodeCommand w = some i := by
  simp only [decodeCommand, h]

theorem decodeByte_of_high (h : 0x20 ≤ w.toNat) : decodeByte w = .error .zeroField := by
  have hz : zeroField w ≠ 0 := by
    rw [Ne, zeroField_eq_zero_iff]
    omega
  simp only [decodeByte, if_pos hz]

/-- Below 0x20 an `OP` of no operation is rejected for `OP`, whatever `DIR` is. -/
theorem decodeByte_of_op (h : w.toNat < 0x20) (ho : w.toNat % 16 = 0 ∨ 9 ≤ w.toNat % 16) :
    decodeByte w = .error .opField := by
  have hz := (zeroField_eq_zero_iff w).2 h
  rw [← toNat_opField] at ho
  unfold decodeByte
  rw [if_neg (not_not.2 hz)]
  split
  case h_17 => rfl  -- the decoder's last arm; every arm above has an `OP` of 1 to 8
  all_goals omega

/-- The check of WellFormed.lean on each field of a byte. -/
def fieldOk (w : Byte) : Reserved → Bool
  | .zeroField => CommandByte.zeroOk w
  | .opField => CommandByte.opOk w
  | .dirField => CommandByte.dirOk w

theorem fieldOk_of_wf (h : CommandByte.wf w = true) (r : Reserved) : fieldOk w r = true := by
  simp only [CommandByte.wf, Bool.and_eq_true] at h
  obtain ⟨⟨hz, ho⟩, hd⟩ := h
  cases r
  · exact hz
  · exact ho
  · exact hd

/-- The field a byte is rejected for is one that fails its check (R98). -/
theorem fieldOk_of_decodeByte_error {r : Reserved} (h : decodeByte w = .error r) : fieldOk w r = false := by
  unfold decodeByte at h
  split at h
  · next hz =>
    cases h
    rw [Ne, zeroField_eq_zero_iff] at hz
    simpa [fieldOk, CommandByte.zeroOk] using hz
  · rw [toNat_opField, toNat_dirField] at h
    split at h <;> cases h
    case h_17 =>
      grind [fieldOk, CommandByte.opOk]
    all_goals
      next hop hdir => simpa [fieldOk, CommandByte.dirOk, hop] using hdir

/-- A byte that passes every check is no reserved one (R92, R93, R94, R98). -/
theorem decodeByte_ok_iff_wf : (∃ i, decodeByte w = .ok i) ↔ CommandByte.wf w = true := by
  constructor
  · rintro ⟨i, h⟩
    obtain ⟨-, -, -, hwf, -⟩ := encoding_statement i
    rwa [encode_of_decodeByte h] at hwf
  · intro hwf
    cases h : decodeByte w with
    | ok i => exact ⟨i, rfl⟩
    | error r =>
      have hr := fieldOk_of_decodeByte_error h
      rw [fieldOk_of_wf hwf r] at hr
      cases hr

end

/-- Settles O1: the rows are the commands' own bytes, and a byte that decodes has its command's fields. -/
theorem opcodeTableIsExact : Obligations.OpcodeTableIsExact := by
  refine ⟨decodeByte_encode .init, decodeByte_encode .free,
    decodeByte_encode .setkeyDec, decodeByte_encode .setkeyEnc,
    decodeByte_encode .ecbDec, decodeByte_encode .ecbEnc,
    decodeByte_encode .cbcDec, decodeByte_encode .cbcEnc,
    decodeByte_encode .cfb128Dec, decodeByte_encode .cfb128Enc,
    decodeByte_encode .cfb8Dec, decodeByte_encode .cfb8Enc, decodeByte_encode .ctr, ?_⟩
  intro w i h
  obtain ⟨hz, hd, ho⟩ := fields_of_decodeByte h
  refine ⟨?_, ho, hd, hz⟩
  rw [← encode_of_decodeByte h]
  cases i <;> decide

/-- Settles O2: a command's byte decodes to it, and a byte is known by its fields. -/
theorem decodeEncodeAgree : Obligations.DecodeEncodeAgree :=
  ⟨decodeByte_encode, fun _ _ => encode_of_decodeByte⟩

/-- Settles O3: the checks on the fields, and the bytes each field rejects. -/
theorem reservedBytesRejectedByField : Obligations.ReservedBytesRejectedByField := by
  intro w
  refine ⟨decodeByte_ok_iff_wf, decodeByte_of_high, decodeByte_of_op, ?_⟩
  rintro (rfl | rfl | rfl) <;> decide

/-! ### A call (R91, R99) -/

section
variable {s : State} {w : Byte} {i : Instr}

/-- A called byte that decodes runs its command. -/
theorem callByte_of_decodes (h : decodeByte w = .ok i) : callByte w s = exec i s := by
  simp only [callByte, decodeCommand_of_decodeByte h]

/-- A step whose next event is a call is that call, on the called port and with the event taken off. -/
theorem step_call {c : Nat} {rest : List Event} (h : s.agenda = .call c w :: rest) :
    step s = callByte w { s with agenda := rest, cur := c } := by
  simp only [step, h, happen]

/-- A command's byte is placed as the word that the table numbers it by. -/
theorem withFetchWord_encode (s : State) (i : Instr) :
    s.withFetchWord 8 (encode i).toNat = { s with agenda := .call s.cur (encode i) :: s.agenda } := by
  rw [State.withFetchWord, Nat.mod_eq_of_lt (encode i).isLt, BitVec.ofNat_toNat, BitVec.setWidth_eq]

end

/-- Settles O5: the next event is the call, and the called byte runs its command. -/
theorem stepRunsTheCalledCommand : Obligations.StepRunsTheCalledCommand := by
  intro s c w rest i ha hw
  rw [step_call ha, callByte_of_decodes hw]

/-- Settles O6: the placed word is a call of the command's byte on the called port. -/
theorem placedWordRunsNext : Obligations.PlacedWordRunsNext := by
  intro s i
  obtain ⟨-, -, -, -, hdec, hword⟩ := encoding_statement i
  refine ⟨hword, ?_⟩
  rw [withFetchWord_encode, step_call rfl, callByte_of_decodes hdec]

/-! ### A write of `CMD` (R91), and a reserved byte (R98, R245, R248) -/

section
variable {s : State} {p : Port} {w : Byte}

/-- A write of `CMD` of a port that is not busy starts a command. -/
theorem Port.writeReg_cmd (ps : Params) (w : Byte) (h : p.busy = false) : p.writeReg ps 0 w = p.start w :=
  Port.writeReg_idle ps w h

/-- A failed call is a started command that finished with its result, its port's view put back. -/
theorem State.failed_eq_putView (s : State) (p : Port) (w : Byte) (k : Result) :
    s.failed p w k = s.putView s.cur { port := (p.start w).finish k, eng := s.engine, mem := s.mem } := rfl

/-- A call with a reserved byte ends with `IllegalCommand`. -/
theorem callByte_reserved (hp : s.idlePort p) (hw : decodeCommand w = none) :
    callByte w s = .next (s.failed p w .illegalCommand) := by
  obtain ⟨hport, hidle⟩ := hp
  rw [State.failed_eq_putView]
  simp [callByte, hw, issueReserved, State.view_of_port hport, hidle]

section
variable {prim : BlockPrimitive} {ps : Params} {c : Nat} {v : View}

/-- The sequencer's first step on a reserved byte writes `RESULT`. -/
theorem microStep_reserved (h : v.port.seq = .decoded none) :
    microStep prim ps c v = .next { v with port := v.port.setResult .illegalCommand } := by
  simp only [microStep, h]

/-- The step after the write of `RESULT` clears `BUSY`. -/
theorem microStep_ending {i : Option Instr} (h : v.port.seq = .ending i) :
    microStep prim ps c v = .next { v with port := v.port.clearBusy } := by
  simp only [microStep, h]

end

/-- A started reserved byte is ended by two steps of the sequencer. -/
theorem microRun_reserved (prim : BlockPrimitive) (ps : Params) (c : Nat) {v : View}
    (h : v.port.seq = .decoded none) :
    microRun prim ps c 2 v = .next { v with port := v.port.finish .illegalCommand } := by
  rw [microRun, microStep_reserved h, andThen_next, microRun, microStep_ending (Port.setResult_seq _ _), andThen_next,
    microRun, Port.setResult_clearBusy]

end

/-- Settles O8: the window's byte 0 is `CMD`, and its write starts the command. -/
theorem commandWriteStartsTheCommand : Obligations.CommandWriteStartsTheCommand := by
  intro s c p w rest hw hp hb ha
  rw [step_writeWindow (off := 0) hw hp (by decide) ha, Port.writeReg_cmd s.params w hb]
  rfl

/-- Settles O4: the call ends at once, and the sequencer writes `RESULT` in its first step and clears `BUSY` in its
second. -/
theorem reservedByteIsIllegalCommand : Obligations.ReservedByteIsIllegalCommand := by
  intro s p w hport hw
  have ⟨hp, hidle⟩ := hport
  have hseq : (p.start w).seq = .decoded none := congrArg Seq.decoded hw
  rw [State.mapPort_eq_putView hp, Port.writeReg_cmd s.params w hidle]
  refine ⟨callByte_reserved hport hw, ?_, ?_⟩
  · have hend : (p.start w).command = none := by simp only [Port.command, hseq]
    rw [grantStep_eq (State.putView_port_self _ hp), microStep_reserved hseq, mapNext_next, State.putView_putView]
    simp only [Port.setResult, hend]
    rfl
  · rw [grantAlone_putView hp, microRun_reserved _ _ _ hseq, mapNext_next, State.failed_eq_putView]

end Sys2Proof.Machine
end

section
/-! The life cycle of a port and its keys (spec/40_lifecycle_and_keys.md): a call whose command is one unit, the
reference count of `INIT` and `FREE` (R122 to R125), the key records of `SETKEY` (R126 to R128, R133), and the key of a
block unit (R129 to R131). -/

namespace Sys2Proof.Machine

/-! ### A call on an idle port, by its checks and its first unit -/

section
variable {s : State} {p : Port} {i : Instr}

/-- No check reads what the `CMD` write changes (R91, R246). -/
@[simp] theorem check_start (i : Instr) (p : Port) (w : Byte) : Instr.check i (p.start w) = Instr.check i p := by
  cases i <;> rfl

/-- A call whose validation fails is the failed call of R245. -/
theorem exec_of_check_some (h : s.idlePort p) {k : Result} (hk : Instr.check i p = some k) :
    exec i s = .next (s.failed p (encode i) k) := by
  obtain ⟨hp, hidle⟩ := h
  rw [exec_eq_issue, issue_refused _ _ _ _ hp hidle ((check_start i p _).trans hk), State.failed_eq_putView]

/-- The called port's view at the first loop head of a validated call (R91, R246). -/
def State.loopHead (s : State) (p : Port) (i : Instr) : View where
  port := (p.start (encode i)).withSeq (.run i [])
  eng := s.engine
  mem := s.mem

/-- A validated call whose first unit ends with the result `k` is that unit and the end of the command. -/
theorem exec_of_unit (h : s.idlePort p) (hk : Instr.check i p = none) {q : Port} {e : Engine} {m : Memory} {k : Result}
    (hrun : runOps Config.primitive s.params s.cur i (Instr.program i (s.loopHead p i).port) (s.loopHead p i)
      = .next { port := q.setResult k, eng := e, mem := m }) :
    exec i s = .next (s.putView s.cur { port := q.finish k, eng := e, mem := m }) := by
  obtain ⟨hp, hidle⟩ := h
  have hunits := (runUnits_head _ _ _ _ (Instr.program i) (p.len + 1) rfl hrun).trans
    (runUnits_stop _ _ _ _ _ _ (by simp))
  rw [exec_eq_issue, issue_validated _ _ _ _ hp hidle ((check_start i p _).trans hk)]
  exact congrArg (mapNext _) hunits

end

/-! ### The reference count (R122, R125) -/

section
variable {ps : Params} {v : View}

/-- `INIT`'s change of the count where no `enable()` fails. -/
theorem acquireStep_of_ok (h : v.eng.refcount ≠ 0 ∨ ps.enableOk = true) :
    acquireStep ps v = { v with
      port := v.port.withFailed false
      eng := { v.eng with
        refcount := v.eng.refcount + 1
        enabled := if v.eng.refcount = 0 then true else v.eng.enabled } } := by
  unfold acquireStep
  by_cases h0 : v.eng.refcount = 0
  · simp [h0, h.resolve_left (not_not.2 h0)]
  · simp [h0]

/-- `INIT`'s change of the count, rolled back. -/
theorem acquireStep_of_failed (h0 : v.eng.refcount = 0) (h : ps.enableOk = false) :
    acquireStep ps v = { v with port := v.port.withFailed true } := by
  simp [acquireStep, h0, h]

/-- `FREE`'s change of the count where no `disable()` fails. -/
theorem releaseStep_of_ok (hpos : 1 ≤ v.eng.refcount) (h : v.eng.refcount ≠ 1 ∨ ps.disableOk = true) :
    releaseStep ps v = { v with
      port := v.port.withFailed false
      eng := { v.eng with
        refcount := v.eng.refcount - 1
        enabled := if v.eng.refcount = 1 then false else v.eng.enabled } } := by
  unfold releaseStep
  by_cases h1 : v.eng.refcount = 1
  · simp [h1, h.resolve_left (not_not.2 h1)]
  · have hlast : v.eng.refcount - 1 ≠ 0 := by omega
    simp [h1, hlast]

/-- `FREE`'s change of the count, rolled back. -/
theorem releaseStep_of_failed (h1 : v.eng.refcount = 1) (h : ps.disableOk = false) :
    releaseStep ps v = { v with port := v.port.withFailed true } := by
  simp [releaseStep, h1, h]

end

/-! ### The steps of `INIT` and `FREE` (R123, R124) -/

section
variable (prim : BlockPrimitive) (ps : Params) (c : Nat) (i : Instr) (rest : List MicroOp) {v : View}

/-- The lock span of `INIT`: the count changes, and the lock is free again (R72, R123). -/
theorem runOps_acquireSpan (hl : v.eng.lock = .free) :
    runOps prim ps c i (.take :: .acquire :: .give :: rest) v = runOps prim ps c i rest (acquireStep ps v) := by
  obtain ⟨p, ⟨count, lock, enabled, active⟩, m⟩ := v
  cases hl
  by_cases h0 : count = 0 <;> cases he : ps.enableOk <;>
    simp [runOps, MicroOp.enabled, perform, acquireStep, h0, he]

/-- The lock span of `FREE` (R72, R124). -/
theorem runOps_releaseSpan (hl : v.eng.lock = .free) :
    runOps prim ps c i (.take :: .release :: .give :: rest) v = runOps prim ps c i rest (releaseStep ps v) := by
  obtain ⟨p, ⟨count, lock, enabled, active⟩, m⟩ := v
  cases hl
  by_cases h0 : count - 1 = 0 <;> cases he : ps.disableOk <;>
    simp [runOps, MicroOp.enabled, perform, releaseStep, h0, he]

/-- The end of `INIT` and `FREE` after a change of the count that did not fail. -/
theorem runOps_end_of_ok (b : Bool) (hf : v.port.scratch.failed = false) :
    runOps prim ps c i [.setLive b, .conclude] v
      = .next { v with port := { v.port with live := b }.setResult .ok } := by
  simp [runOps, MicroOp.enabled, perform, Port.setLive_of_ok b hf, Port.conclude_of_ok, hf]

/-- The end of `INIT` and `FREE` after one that failed: `LIVE` is not written. -/
theorem runOps_end_of_failed (b : Bool) (hf : v.port.scratch.failed = true) :
    runOps prim ps c i [.setLive b, .conclude] v
      = .next { v with port := v.port.setResult .engineUnavailable } := by
  simp [runOps, MicroOp.enabled, perform, Port.setLive_of_failed b hf, Port.conclude_of_failed hf]

/-- `INIT` with the lock free: the records are unset, the count changes, and the command ends by whether it failed. -/
theorem runOps_initProgram (q : Port) (hl : v.eng.lock = .free) :
    runOps prim ps c i (initProgram q) v
      = runOps prim ps c i [.setLive true, .conclude]
          (acquireStep ps { v with port := { v.port with ek := .unset, dk := .unset } }) :=
  runOps_acquireSpan prim ps c i _ hl

/-- `FREE` with the lock free: the key material is zeroed before the count changes. -/
theorem runOps_freeProgram (q : Port) (hl : v.eng.lock = .free) :
    runOps prim ps c i (freeProgram q) v
      = runOps prim ps c i [.setLive false, .conclude]
          (releaseStep ps { v with
            port := { v.port with ek := .unset, dk := .unset, keyin := Vector.replicate 32 0 } }) :=
  runOps_releaseSpan prim ps c i _ hl

end

/-- `INIT` passes its validation on a port that is not live (R247). -/
theorem check_init {p : Port} (h : p.live = false) : Instr.check .init p = none :=
  check_eq_none_iff.2 ⟨by simp [lifeCheck, checkNotLive, h], rfl, rfl⟩

/-- `FREE` passes its validation on a live port (R247). -/
theorem check_free {p : Port} (h : p.live = true) : Instr.check .free p = none :=
  check_eq_none_iff.2 ⟨by simp [lifeCheck, checkLive, h], rfl, rfl⟩

/-- Settles O9: the one unit of `INIT`, where the change of the count does not fail. -/
theorem initTakesAReference : Obligations.InitTakesAReference := by
  intro s p hport hlive hlock hok
  have hrun := runOps_initProgram Config.primitive s.params s.cur .init p (v := s.loopHead p .init) hlock
  rw [acquireStep_of_ok hok, runOps_end_of_ok _ _ _ _ _ rfl] at hrun
  exact exec_of_unit hport (check_init hlive) hrun

/-- Settles O10: the one unit of `INIT`, where the change of the count is rolled back. -/
theorem initRollsBackAFailedEnable : Obligations.InitRollsBackAFailedEnable := by
  intro s p hport hlive hlock hcount hfail
  have hrun := runOps_initProgram Config.primitive s.params s.cur .init p (v := s.loopHead p .init) hlock
  rw [acquireStep_of_failed hcount hfail, runOps_end_of_failed _ _ _ _ _ rfl] at hrun
  exact exec_of_unit hport (check_init hlive) hrun

/-- Settles O11: the one unit of `FREE`, where the change of the count does not fail. -/
theorem freeReleasesTheReference : Obligations.FreeReleasesTheReference := by
  intro s p hready hpos hok
  obtain ⟨hport, hlive, hlock⟩ := hready
  have hrun := runOps_freeProgram Config.primitive s.params s.cur .free p (v := s.loopHead p .free) hlock
  rw [releaseStep_of_ok hpos hok, runOps_end_of_ok _ _ _ _ _ rfl] at hrun
  exact exec_of_unit hport (check_free hlive) hrun

/-- Settles O12: the one unit of `FREE`, where the change of the count is rolled back. -/
theorem freeRollsBackAFailedDisable : Obligations.FreeRollsBackAFailedDisable := by
  intro s p hready hcount hfail
  obtain ⟨hport, hlive, hlock⟩ := hready
  have hrun := runOps_freeProgram Config.primitive s.params s.cur .free p (v := s.loopHead p .free) hlock
  rw [releaseStep_of_failed hcount hfail, runOps_end_of_failed _ _ _ _ _ rfl] at hrun
  exact exec_of_unit hport (check_free hlive) hrun

/-! ### The staged key (R96) -/

section
variable {p : Port}

/-- The first `n` bytes of `KEYIN`, as a key holds them and as a list. -/
theorem toList_ofFn_take {n : Nat} (v : Vector Byte 32) (hn : n ≤ 32) :
    (Vector.ofFn fun j : Fin n => v[j.val]).toList = v.toList.take n := by
  apply List.ext_getElem
  · simpa using hn
  · intro j _ _
    simp

/-- The valid key lengths (R8, R241). -/
def Port.keyLengthOk (p : Port) : Prop := p.keybits = 128 ∨ p.keybits = 192 ∨ p.keybits = 256

/-- For a valid `KEYBITS` the staged key is the first `KEYBITS/8` bytes of `KEYIN`. -/
theorem Port.stagedKey_of_ok (h : p.keyLengthOk) :
    ∃ k, p.stagedKey = some k ∧ k.bits = p.keybits.toNat
      ∧ k.bytes = p.keyin.toList.take (p.keybits.toNat / 8) := by
  rcases h with hb | hb | hb
  · refine ⟨.k128 (Vector.ofFn fun j => p.keyin[j.val]), if_pos hb, ?_⟩
    rw [hb]
    exact ⟨rfl, toList_ofFn_take (n := 16) _ (by decide)⟩
  · refine ⟨.k192 (Vector.ofFn fun j => p.keyin[j.val]), (if_neg (by rw [hb]; decide)).trans (if_pos hb), ?_⟩
    rw [hb]
    exact ⟨rfl, toList_ofFn_take (n := 24) _ (by decide)⟩
  · refine ⟨.k256 (Vector.ofFn fun j => p.keyin[j.val]),
      (if_neg (by rw [hb]; decide)).trans ((if_neg (by rw [hb]; decide)).trans (if_pos hb)), ?_⟩
    rw [hb]
    exact ⟨rfl, toList_ofFn_take (n := 32) _ (by decide)⟩

/-- For any other `KEYBITS` there is none. -/
theorem Port.stagedKey_of_not_ok (h : ¬p.keyLengthOk) : p.stagedKey = none := by
  obtain ⟨h128, h⟩ := not_or.1 h
  obtain ⟨h192, h256⟩ := not_or.1 h
  rw [Port.stagedKey, if_neg h128, if_neg h192, if_neg h256]

end

/-! ### `SETKEY`, for either direction (R126 to R128) -/

/-- The `SETKEY` of a direction. -/
def setkeyOf : Dir → Instr
  | .enc => .setkeyEnc
  | .dec => .setkeyDec

/-- The port with the record of a direction replaced. -/
def Port.withRecord (p : Port) (d : Dir) (r : KeyRecord) : Port :=
  match d with
  | .enc => { p with ek := r }
  | .dec => { p with dk := r }

/-- The port after a `SETKEY` on it while it was live and not busy: the staged key is recorded, or the length is
refused. -/
def Port.afterSetkey (p : Port) (d : Dir) : Port :=
  match p.stagedKey with
  | some k => ((p.start (encode (setkeyOf d))).withRecord d (.set k)).finish .ok
  | none => (p.start (encode (setkeyOf d))).finish .invalidKeyLength

section
variable {s : State} {p : Port}

/-- `SETKEY` validates the length of the staged key alone on a live port (R241, R246). -/
theorem check_setkey (d : Dir) (h : p.live = true) : Instr.check (setkeyOf d) p = checkKeyBits p := by
  have hlife : checkLive p = none := by simp [checkLive, h]
  have hchecks : Instr.check (setkeyOf d) p = firstFailure [checkLive p, checkKeyBits p] := by cases d <;> rfl
  rw [hchecks, firstFailure_cons_none hlife]
  cases checkKeyBits p <;> rfl

/-- The one unit of `SETKEY` (R126, R127). -/
theorem runOps_setkey (prim : BlockPrimitive) (ps : Params) (c : Nat) (i : Instr) (d : Dir) (q : Port) {v : View}
    {k : Key} (hk : v.port.stagedKey = some k) :
    runOps prim ps c i (Instr.program (setkeyOf d) q) v
      = .next { v with port := (v.port.withRecord d (.set k)).setResult .ok } := by
  have hrec : ∀ r, v.port.recorded r = .set k := fun r => by simp [Port.recorded, hk]
  cases d
  · exact congrArg (fun r => Host.Outcome.next { v with port := { v.port with ek := r }.setResult .ok }) (hrec _)
  · exact congrArg (fun r => Host.Outcome.next { v with port := { v.port with dk := r }.setResult .ok }) (hrec _)

/-- A call of `SETKEY` on a live port, whatever `KEYBITS` and the lock are. -/
theorem exec_setkey (d : Dir) (h : s.idlePort p) (hlive : p.live = true) :
    exec (setkeyOf d) s = .next (s.putView s.cur { port := p.afterSetkey d, eng := s.engine, mem := s.mem }) := by
  have hcheck := check_setkey d hlive
  by_cases hb : p.keyLengthOk
  · obtain ⟨k, hk, -⟩ := Port.stagedKey_of_ok hb
    rw [Port.afterSetkey, hk]
    have hexec := exec_of_unit h (hcheck.trans (if_pos hb))
      (runOps_setkey _ _ _ _ d _ (v := s.loopHead p (setkeyOf d)) hk)
    cases d <;> exact hexec
  · rw [Port.afterSetkey, Port.stagedKey_of_not_ok hb]
    exact exec_of_check_some h (hcheck.trans (if_neg hb))

/-- After a `SETKEY` the port is live as before, not busy, and has the same key staged. -/
theorem Port.afterSetkey_keeps (p : Port) (d : Dir) :
    (p.afterSetkey d).live = p.live ∧ (p.afterSetkey d).busy = false
      ∧ (p.afterSetkey d).stagedKey = p.stagedKey := by
  cases hk : p.stagedKey <;> cases d <;> simp only [Port.afterSetkey, hk] <;> exact ⟨rfl, rfl, hk⟩

/-- A second `SETKEY` leaves the port the first one left (R133). -/
theorem Port.afterSetkey_afterSetkey (p : Port) (d : Dir) : (p.afterSetkey d).afterSetkey d = p.afterSetkey d := by
  obtain ⟨-, -, hstaged⟩ := p.afterSetkey_keeps d
  rw [Port.afterSetkey, hstaged]
  cases hk : p.stagedKey <;> cases d <;> simp only [Port.afterSetkey, hk] <;> rfl

/-- A `SETKEY` called again answers the same machine. -/
theorem exec_setkey_again {t : State} (d : Dir) (h : s.idlePort p) (hlive : p.live = true)
    (ht : exec (setkeyOf d) s = .next t) : exec (setkeyOf d) t = .next t := by
  rw [exec_setkey d h hlive] at ht
  cases ht
  obtain ⟨hp, -⟩ := h
  obtain ⟨hlive', hidle, -⟩ := p.afterSetkey_keeps d
  rw [exec_setkey d ⟨State.putView_port_self _ hp, hidle⟩ (hlive'.trans hlive), p.afterSetkey_afterSetkey]
  exact congrArg Host.Outcome.next (State.putView_putView _ _ _ _)

end

/-- Settles O13: a valid `KEYBITS` stages a key, and each direction records it. -/
theorem setkeyRecordsTheStagedKey : Obligations.SetkeyRecordsTheStagedKey := by
  intro s p hport hlive hbits
  obtain ⟨k, hk, hkbits, hkbytes⟩ := Port.stagedKey_of_ok hbits
  have hexec := fun d => exec_setkey d hport hlive
  simp only [Port.afterSetkey, hk] at hexec
  exact ⟨k, hkbits, hkbytes, hexec .enc, hexec .dec⟩

/-- Settles O14: either direction's `SETKEY` called again. -/
theorem setkeyIsIdempotent : Obligations.SetkeyIsIdempotent := by
  intro s p t hport hlive
  exact ⟨exec_setkey_again .enc hport hlive, exec_setkey_again .dec hport hlive⟩

/-! ### The key of a block unit (R129 to R131) -/

/-- A port about to transform a block has its own key of that direction installed (R129). -/
theorem View.Ok.key_of_transform {ps : Params} {c : Nat} {v : View} {i : Instr} {d : Dir} {rest : List MicroOp}
    (h : v.Ok ps c) (hs : v.port.seq = .run i (.transform d :: rest)) :
    ∃ k, v.port.record d = .set k ∧ v.eng.active = some (d, k) := by
  obtain ⟨st, hspan, hfit⟩ := h.span
  rw [Port.todo_run hs] at hspan
  cases st with
  | out => cases hspan
  | held => cases hspan
  | ready d' =>
    obtain ⟨rfl, -⟩ : d = d' ∧ spanOk (.ready d') rest = true := by simpa [spanOk] using hspan
    exact hfit.2

/-- The step of a block unit that transforms the block, under the installed key (R121). -/
theorem microStep_transform {prim : BlockPrimitive} {ps : Params} {c : Nat} {v : View} {i : Instr} {d : Dir} {k : Key}
    {rest : List MicroOp} (hs : v.port.seq = .run i (.transform d :: rest)) (hactive : v.eng.active = some (d, k)) :
    microStep prim ps c v = .next { v with
      port := { v.port with
        seq := .run i rest
        scratch := { v.port.scratch with blk := prim.transform d k v.port.scratch.blk } } } := by
  simp only [microStep, hs, MicroOp.enabled, if_true, perform, hactive]
  rfl

/-- Settles O46: the invariant says which key is installed, and the step transforms the block under it. -/
theorem blocksRunUnderTheirOwnKey : Obligations.BlocksRunUnderTheirOwnKey := by
  intro s c p i d rest h hp hs
  obtain ⟨k, hk, hactive⟩ := (h.view_ok hp).key_of_transform hs
  refine ⟨k, hk, ?_⟩
  rw [grantStep_eq hp, microStep_transform hs hactive]
  rfl

end Sys2Proof.Machine
end

section
/-! The ECB passthrough (spec/41_ecb.md): one call of it in either direction (R151, R152), and the round trip (R153). -/

namespace Sys2Proof.Machine

/-! ### A ready port -/

section
variable {s : State} {p : Port}

/-- On a live port a command other than `INIT` whose operands are in order passes its validation, once the record of
its key is set (R246). -/
theorem check_of_live {i : Instr} {d : Dir} {k : Key} (hi : i ≠ .init) (hlive : p.live = true)
    (ho : operandCheck i p = none) (hd : Instr.keyDir i = some d) (hk : p.record d = .set k) :
    Instr.check i p = none := by
  have hlife : lifeCheck i p = none := by simp [lifeCheck, hi, checkLive, hlive]
  have hkey : keyCheck i p = none := by rw [keyCheck, hd]; exact checkKey_of_set hk
  exact check_eq_none_iff.2 ⟨hlife, ho, hkey⟩

/-- A host's register writes leave the called port ready, if it is still live and not busy. -/
theorem State.readyPort_mapPort (h : s.readyPort p) {f : Port → Port} (hb : (f p).busy = false)
    (hl : (f p).live = true) : (s.mapPort f).readyPort (f p) := by
  obtain ⟨⟨hp, -⟩, -, hlock⟩ := h
  rw [State.mapPort_eq_putView hp]
  exact ⟨⟨State.putView_port_self _ hp, hb⟩, hl, hlock⟩

end

/-! ### A block of data memory (R64) -/

/-- A block that was written is read back, if data memory holds 16 bytes. -/
theorem Memory.readBlock_writeBlock {aw : Nat} {m : Memory} (h : m.wf aw = true) (haw : 16 ≤ 2 ^ aw) (a : Nat)
    (b : Block) : (m.writeBlock aw a b).readBlock aw a = b := by
  apply Vector.ext
  intro j hj
  have hbyte : b.toList[j]? = some b[j] := by simp [hj]
  rw [Memory.readBlock, Vector.getElem_ofFn]
  exact Memory.read_writeBytes_self h a (by simpa using haw) hbyte

/-! ### A call of ECB, for either direction -/

/-- The ECB command of a direction. -/
def ecbOf : Dir → Instr
  | .enc => .ecbEnc
  | .dec => .ecbDec

/-- The port after an ECB call that completed. -/
def Port.afterEcb (p : Port) (d : Dir) : Port :=
  { p with cmd := encode (ecbOf d), result := .ok, pos := 16, seq := .idle, scratch := Scratch.empty }

/-- The machine after an ECB call under the key `k`: one block from `SRC`, transformed, is at `DST`. -/
def State.afterEcb (s : State) (p : Port) (d : Dir) (k : Key) : State :=
  { s with
    ports := s.ports.set s.cur (p.afterEcb d)
    engine := { s.engine with active := some (d, k) }
    mem := s.mem.writeBlock s.params.aw p.dst
      (Config.primitive.transform d k (s.mem.readBlock s.params.aw p.src)) }

section
variable {s : State} {p : Port} {k : Key}

/-- ECB validates the key record of its own direction (R132, R246), whatever `LEN` is (R150). -/
theorem check_ecb (d : Dir) (hlive : p.live = true) (hk : p.record d = .set k) : Instr.check (ecbOf d) p = none := by
  cases d with
  | enc => exact check_of_live (by decide) hlive rfl rfl hk
  | dec => exact check_of_live (by decide) hlive rfl rfl hk

/-- The one unit of ECB with the lock free and the key set (R151, R152). -/
theorem runOps_ecb (prim : BlockPrimitive) (ps : Params) (c : Nat) (i : Instr) (d : Dir) (q : Port) {v : View}
    (hl : v.eng.lock = .free) (hk : v.port.record d = .set k) :
    let x := v.mem.readBlock ps.aw (v.port.src + v.port.pos)
    let o := prim.transform d k x
    runOps prim ps c i (Instr.program (ecbOf d) q) v = .next
      { port := { v.port with
          pos := v.port.pos + 16
          scratch := { v.port.scratch with inp := x, blk := o, out := o } }.setResult .ok
        eng := { v.eng with active := some (d, k) }
        mem := v.mem.writeBlock ps.aw (v.port.dst + v.port.pos) o } := by
  have heng : { v.eng with lock := .free, active := some (d, k) } = { v.eng with active := some (d, k) } := by rw [← hl]
  rw [← heng]
  cases d with
  | enc => exact runOps_ecbEncProgram prim ps c i q k v hl hk
  | dec => exact runOps_ecbDecProgram prim ps c i q k v hl hk

/-- A call of ECB on a ready port, for every `SRC`, `DST` and `LEN`. -/
theorem exec_ecb (d : Dir) (h : s.readyPort p) (hk : p.record d = .set k) :
    exec (ecbOf d) s = .next (s.afterEcb p d k) := by
  obtain ⟨hport, hlive, hlock⟩ := h
  have hrecord : (s.loopHead p (ecbOf d)).port.record d = .set k := by cases d <;> exact hk
  exact exec_of_unit hport (check_ecb d hlive hk) (runOps_ecb _ _ _ _ d _ hlock hrecord)

/-- After an ECB call the port is ready again. -/
theorem State.readyPort_afterEcb (d : Dir) (k : Key) (h : s.readyPort p) :
    (s.afterEcb p d k).readyPort (p.afterEcb d) := by
  obtain ⟨⟨hp, -⟩, hlive, hlock⟩ := h
  exact ⟨⟨State.putView_port_self ⟨p.afterEcb d, s.engine, s.mem⟩ hp, rfl⟩, hlive, hlock⟩

end

/-- Settles O21: the call of ECB in the direction `enc`. -/
theorem ecbEncryptsOneBlock : Obligations.EcbEncryptsOneBlock := fun _ _ _ h hk => exec_ecb .enc h hk

/-- Settles O22: the call of ECB in the direction `dec`. -/
theorem ecbDecryptsOneBlock : Obligations.EcbDecryptsOneBlock := fun _ _ _ h hk => exec_ecb .dec h hk

/-- Settles O35: the second call reads the block that the first one wrote, and the primitive's law (R8) undoes it. -/
theorem ecbRoundTrip : Obligations.EcbRoundTrip := by
  intro s p k y h hek hdk hm haw
  have ⟨_, hlive, _⟩ := h
  have hready := State.readyPort_mapPort (State.readyPort_afterEcb .enc k h)
    (f := fun q => { q with src := p.dst, dst := y }) rfl hlive
  refine ⟨s.afterEcb p .enc k, _, exec_ecb .enc h hek, exec_ecb .dec hready hdk, ?_⟩
  have hm' : (s.afterEcb p .enc k).mem.wf s.params.aw = true := Memory.wf_writeBytes _ _ hm
  calc _ = Config.primitive.decryptBlock k ((s.afterEcb p .enc k).mem.readBlock s.params.aw p.dst) :=
        Memory.readBlock_writeBlock hm' haw y _
    _ = Config.primitive.decryptBlock k (Config.primitive.encryptBlock k (s.mem.readBlock s.params.aw p.src)) :=
        congrArg _ (Memory.readBlock_writeBlock hm haw p.dst _)
    _ = s.mem.readBlock s.params.aw p.src := Config.primitive.law k _

end Sys2Proof.Machine
end

section
/-! What the modes share (spec/20_memory.md rules R64, R66, R70; spec/42_cbc.md to spec/45_ctr.md): a stream's big-step
form may be split anywhere, a call of a command that goes unit by unit (R38), and its two buffers. -/

namespace Sys2Proof.Machine

/-! ### The big-step forms, split (R162, R163, R183, R204, R224) -/

theorem BigStep.cbcEnc_append (E : Block → Block) (v : Block) (xs ys : List Block) :
    BigStep.cbcEnc E v (xs ++ ys)
      = ((BigStep.cbcEnc E v xs).1 ++ (BigStep.cbcEnc E (BigStep.cbcEnc E v xs).2 ys).1,
          (BigStep.cbcEnc E (BigStep.cbcEnc E v xs).2 ys).2) := by
  induction xs generalizing v with
  | nil => rfl
  | cons x xs ih => simp only [List.cons_append, BigStep.cbcEnc, ih]

theorem BigStep.cbcDec_append (D : Block → Block) (v : Block) (xs ys : List Block) :
    BigStep.cbcDec D v (xs ++ ys)
      = ((BigStep.cbcDec D v xs).1 ++ (BigStep.cbcDec D (BigStep.cbcDec D v xs).2 ys).1,
          (BigStep.cbcDec D (BigStep.cbcDec D v xs).2 ys).2) := by
  induction xs generalizing v with
  | nil => rfl
  | cons x xs ih => simp only [List.cons_append, BigStep.cbcDec, ih]

section
variable (E : Block → Block) (dir : Dir) (xs ys : List Byte)

theorem BigStep.cfb128_append (v : Block) (o : BitVec 4) :
    BigStep.cfb128 E dir v o (xs ++ ys)
      = let a := BigStep.cfb128 E dir v o xs
        let b := BigStep.cfb128 E dir a.2.1 a.2.2 ys
        (a.1 ++ b.1, b.2) := by
  induction xs generalizing v o with
  | nil => rfl
  | cons x xs ih => simp only [List.cons_append, BigStep.cfb128, ih]

theorem BigStep.cfb8_append (v : Block) :
    BigStep.cfb8 E dir v (xs ++ ys)
      = let a := BigStep.cfb8 E dir v xs
        let b := BigStep.cfb8 E dir a.2 ys
        (a.1 ++ b.1, b.2) := by
  induction xs generalizing v with
  | nil => rfl
  | cons x xs ih => simp only [List.cons_append, BigStep.cfb8, ih]

theorem BigStep.ctr_append (t : BigStep.CtrState) :
    BigStep.ctr E t (xs ++ ys)
      = let a := BigStep.ctr E t xs
        let b := BigStep.ctr E a.2 ys
        (a.1 ++ b.1, b.2) := by
  induction xs generalizing t with
  | nil => rfl
  | cons x xs ih => simp only [List.cons_append, BigStep.ctr, ih]

end

/-- Settles O32: each mode by induction over the first part of its input. -/
theorem streamsMaySplitAnywhere : Obligations.StreamsMaySplitAnywhere := by
  intro E dir v o t ps qs xs ys
  exact ⟨BigStep.cbcEnc_append E v ps qs, BigStep.cbcDec_append E v ps qs, BigStep.cfb128_append E dir xs ys v o,
    BigStep.cfb8_append E dir xs ys v, BigStep.ctr_append E xs ys t⟩

/-! ### A call of a command that goes unit by unit (R38) -/

/-- A validated call of a command that takes its `LEN` bytes in `m` units of `n`: what holds at the first loop head
(`P 0`) and is passed on by every unit (`P j` to `P (j + 1)`) holds of the view in which the command completes. -/
theorem exec_of_loop {s : State} {p : Port} {i : Instr} (h : s.idlePort p) (hk : Instr.check i p = none)
    {unit : Port → List MicroOp} (hprog : Instr.program i = loopProgram unit) {n m : Nat} (hn : 0 < n)
    (hlen : p.len = n * m) {P : Nat → View → Prop}
    (hP : ∀ j v, P j v → v.port.seq = .run i [] ∧ v.port.len = p.len ∧ v.port.pos = n * j)
    (hstart : P 0 (s.loopHead p i))
    (hunit : ∀ j v, P j v → j < m →
      ∃ w, runOps Config.primitive s.params s.cur i (unit v.port) v = .next w ∧ P (j + 1) w) :
    ∃ w, P m w ∧ exec i s = .next (s.putView s.cur { w with port := w.port.finish .ok }) := by
  obtain ⟨hp, hidle⟩ := h
  have hfuel : m < p.len + 2 := by
    have := Nat.le_mul_of_pos_left m hn
    omega
  obtain ⟨w, hw, hrun⟩ := runUnits_loop Config.primitive s.params s.cur i unit hn hP
    (fun j v hv hlt => hunit j v hv (Nat.lt_of_mul_lt_mul_left (hlen ▸ hlt)))
    m 0 (s.loopHead p i) (p.len + 2) hstart (by rw [Nat.zero_add, hlen]) hfuel
  rw [Nat.zero_add] at hw
  refine ⟨w, hw, ?_⟩
  rw [exec_eq_issue, issue_validated _ _ _ _ hp hidle ((check_start i p _).trans hk), hprog]
  exact congrArg (mapNext _) hrun

/-! ### The two buffers of a command (R70) -/

section
variable {aw : Nat} {m : Memory}

/-- The output written so far leaves the input still to be read as it was: where the buffers are one, the output has
not come that far, and elsewhere they are apart. -/
theorem BuffersOk.read_ahead {src dst n : Nat} (h : BuffersOk aw src dst n) (hm : m.wf aw = true) {bs : List Byte}
    {i : Nat} (hbs : bs.length ≤ i) (hi : i < n) :
    (m.writeBytes aw dst bs).read aw (src + i) = m.read aw (src + i) := by
  obtain ⟨hn, hplace⟩ := h
  refine Memory.read_writeBytes_other hm dst bs fun j hj => ?_
  rcases hplace with hsame | hapart
  · have hmod : (src + i) % 2 ^ aw = (dst + i) % 2 ^ aw := Nat.ModEq.add_right i hsame
    rw [hmod]
    exact (add_mod_two_pow_ne (by omega) (by omega)).symm
  · exact hapart i j hi (by omega)

theorem Memory.readBytes_add (m : Memory) (a k l : Nat) :
    m.readBytes aw a (k + l) = m.readBytes aw a k ++ m.readBytes aw (a + k) l := by
  simp [Memory.readBytes, List.range_add, Nat.add_assoc]

/-- Bytes that were written are read back, if data memory holds as many. -/
theorem Memory.readBytes_writeBytes (h : m.wf aw = true) (a : Nat) {bs : List Byte} (hlen : bs.length ≤ 2 ^ aw) :
    (m.writeBytes aw a bs).readBytes aw a bs.length = bs := by
  apply List.ext_getElem
  · simp [Memory.readBytes]
  · intro j _ hj
    simp only [Memory.readBytes, List.getElem_map, List.getElem_range]
    exact Memory.read_writeBytes_self h a hlen (List.getElem?_eq_getElem hj)

end

/-! ### Blocks and their bytes (R64) -/

section
variable {aw : Nat} {m : Memory}

@[simp] theorem blockBytes_append (bs cs : List Block) : blockBytes (bs ++ cs) = blockBytes bs ++ blockBytes cs :=
  List.flatMap_append

@[simp] theorem blockBytes_singleton (b : Block) : blockBytes [b] = b.toList := List.flatMap_singleton _ _

@[simp] theorem length_blockBytes (bs : List Block) : (blockBytes bs).length = 16 * bs.length := by
  simp [blockBytes, List.length_flatMap, Nat.mul_comm]

/-- Blocks are known by their bytes. -/
theorem blockBytes_injective : Function.Injective blockBytes := by
  intro bs
  induction bs with
  | nil =>
    intro cs h
    have hlen := congrArg List.length h
    rw [length_blockBytes, length_blockBytes] at hlen
    exact (List.length_eq_zero_iff.1 (by simpa using hlen.symm)).symm
  | cons b bs ih =>
    intro cs h
    cases cs with
    | nil =>
      have hlen := congrArg List.length h
      simp at hlen
    | cons c cs =>
      obtain ⟨hhead, htail⟩ : b.toList = c.toList ∧ blockBytes bs = blockBytes cs :=
        List.append_inj h (by simp)
      rw [Vector.toList_inj.1 hhead, ih htail]

@[simp] theorem Memory.length_readBlocks (m : Memory) (a n : Nat) : (m.readBlocks aw a n).length = n := by
  simp [Memory.readBlocks]

theorem Memory.readBlocks_succ (m : Memory) (a n : Nat) :
    m.readBlocks aw a (n + 1) = m.readBlocks aw a n ++ [m.readBlock aw (a + 16 * n)] := by
  simp [Memory.readBlocks, List.range_succ]

theorem Memory.readBytes_block (m : Memory) (a : Nat) : m.readBytes aw a 16 = (m.readBlock aw a).toList := by
  apply List.ext_getElem
  · simp [Memory.readBytes]
  · intro j _ _
    simp [Memory.readBytes, Memory.readBlock]

/-- The bytes of `n` blocks of memory. -/
theorem Memory.blockBytes_readBlocks (m : Memory) (a n : Nat) :
    blockBytes (m.readBlocks aw a n) = m.readBytes aw a (16 * n) := by
  induction n with
  | zero => rfl
  | succ n ih =>
    rw [Memory.readBlocks_succ, blockBytes_append, blockBytes_singleton, ih, Nat.mul_succ, Memory.readBytes_add,
      Memory.readBytes_block]

/-- Blocks that were written are read back, if data memory holds as many. -/
theorem Memory.readBlocks_writeBytes (h : m.wf aw = true) (a : Nat) {bs : List Block} {n : Nat} (hbs : bs.length = n)
    (hn : 16 * n ≤ 2 ^ aw) : (m.writeBytes aw a (blockBytes bs)).readBlocks aw a n = bs := by
  subst hbs
  rw [← length_blockBytes] at hn
  apply blockBytes_injective
  rw [Memory.blockBytes_readBlocks, ← length_blockBytes]
  exact Memory.readBytes_writeBytes h a hn

/-- A block of the input is read as it was before the output blocks in front of it were written. -/
theorem BuffersOk.readBlock_ahead {src dst n j : Nat} (h : BuffersOk aw src dst (16 * n)) (hm : m.wf aw = true)
    {bs : List Block} (hbs : bs.length = j) (hj : j < n) :
    (m.writeBytes aw dst (blockBytes bs)).readBlock aw (src + 16 * j) = m.readBlock aw (src + 16 * j) := by
  apply Vector.ext
  intro k hk
  simp only [Memory.readBlock, Vector.getElem_ofFn, Nat.add_assoc]
  exact h.read_ahead hm (by rw [length_blockBytes]; omega) (by omega)

end

end Sys2Proof.Machine
end

section
/-! The CBC chainer (spec/42_cbc.md): one call of it in either direction (R161 to R163), and the round trip (R164). -/

namespace Sys2Proof.Machine

/-- The CBC command of a direction. -/
def cbcOf : Dir → Instr
  | .enc => .cbcEnc
  | .dec => .cbcDec

/-- One block of the CBC command of a direction. -/
def cbcUnit : Dir → Port → List MicroOp
  | .enc => cbcEncUnit
  | .dec => cbcDecUnit

theorem program_cbc (d : Dir) : Instr.program (cbcOf d) = loopProgram (cbcUnit d) := by
  cases d <;> rfl

/-! ### The chain, for either direction -/

/-- The big-step form of the CBC command of a direction under a key (R162, R163). -/
def cbcChain (prim : BlockPrimitive) (d : Dir) (k : Key) : Block → List Block → List Block × Block :=
  match d with
  | .enc => BigStep.cbcEnc (prim.encryptBlock k)
  | .dec => BigStep.cbcDec (prim.decryptBlock k)

section
variable (prim : BlockPrimitive) (d : Dir) (k : Key)

theorem cbcChain_append (v : Block) (xs ys : List Block) :
    cbcChain prim d k v (xs ++ ys)
      = ((cbcChain prim d k v xs).1 ++ (cbcChain prim d k (cbcChain prim d k v xs).2 ys).1,
          (cbcChain prim d k (cbcChain prim d k v xs).2 ys).2) := by
  cases d
  · exact BigStep.cbcEnc_append _ v xs ys
  · exact BigStep.cbcDec_append _ v xs ys

@[simp] theorem length_cbcChain (v : Block) (xs : List Block) : (cbcChain prim d k v xs).1.length = xs.length := by
  induction xs generalizing v with
  | nil => cases d <;> rfl
  | cons x xs ih => cases d <;> exact congrArg (· + 1) (ih _)

end

theorem xor16_xor16_cancel (a b : Block) : xor16 (xor16 a b) b = a := by
  apply Vector.ext
  intro j hj
  simp [xor16]

/-- Decryption undoes encryption from the same `IV`, block by block, by the primitive's law (R8, R164). -/
theorem cbcChain_dec_enc (prim : BlockPrimitive) (k : Key) (v : Block) (xs : List Block) :
    (cbcChain prim .dec k v (cbcChain prim .enc k v xs).1).1 = xs := by
  induction xs generalizing v with
  | nil => rfl
  | cons x xs ih =>
    refine congrArg₂ List.cons ?_ (ih _)
    show xor16 (prim.decryptBlock k (prim.encryptBlock k (xor16 x v))) v = x
    rw [prim.law, xor16_xor16_cancel]

/-! ### One block -/

/-- `TEMP` of CBC: `CBC.DEC` leaves the input block there (R163). -/
def cbcTemp : Dir → Block → Block → Block
  | .enc, temp, _ => temp
  | .dec, _, x => x

/-- One block of CBC with the lock free and the key set: a step of the chain, its output at `DST + POS` (R162, R163). -/
theorem runOps_cbcUnit (prim : BlockPrimitive) (ps : Params) (c : Nat) (i : Instr) (d : Dir) (q : Port) {v : View}
    {k : Key} (hl : v.eng.lock = .free) (hk : v.port.record d = .set k) {x : Block}
    (hx : v.mem.readBlock ps.aw (v.port.src + v.port.pos) = x) :
    ∃ o iv l, cbcChain prim d k v.port.iv [x] = ([o], iv) ∧ runOps prim ps c i (cbcUnit d q) v = .next
      { port := { v.port with
          iv := iv, temp := cbcTemp d v.port.temp iv, pos := v.port.pos + 16, scratch := l }
        eng := { v.eng with lock := .free, active := some (d, k) }
        mem := v.mem.writeBlock ps.aw (v.port.dst + v.port.pos) o } := by
  subst hx
  cases d with
  | enc => exact ⟨_, _, _, rfl, runOps_cbcEncUnit prim ps c i q k v hl hk⟩
  | dec => exact ⟨_, _, _, rfl, runOps_cbcDecUnit prim ps c i q k v hl hk⟩

/-! ### A call of CBC, for either direction -/

/-- The output blocks and the final `IV` of the first `n` blocks at `SRC`. -/
def State.cbcResult (s : State) (p : Port) (d : Dir) (k : Key) (n : Nat) : List Block × Block :=
  cbcChain Config.primitive d k p.iv (s.mem.readBlocks s.params.aw p.src n)

/-- The called port of a CBC command after `n` blocks. -/
def State.cbcPort (s : State) (p : Port) (d : Dir) (k : Key) (n : Nat) : Port :=
  { p with
    cmd := encode (cbcOf d)
    iv := (s.cbcResult p d k n).2
    temp := cbcTemp d p.temp (if n = 0 then p.temp else (s.cbcResult p d k n).2)
    pos := 16 * n }

/-- The called port's view at the loop head of a CBC command after `n` blocks, with the latches `l`: the output so far
is at `DST`, and the engine was used if there was a block. -/
def State.cbcHead (s : State) (p : Port) (d : Dir) (k : Key) (n : Nat) (l : Scratch) : View where
  port := { s.cbcPort p d k n with seq := .run (cbcOf d) [], scratch := l }
  eng := { s.engine with active := if n = 0 then s.engine.active else some (d, k) }
  mem := s.mem.writeBytes s.params.aw p.dst (blockBytes (s.cbcResult p d k n).1)

/-- The view `v` is the called port's at that loop head, whatever the latches hold. -/
def State.atCbcHead (s : State) (p : Port) (d : Dir) (k : Key) (n : Nat) (v : View) : Prop :=
  ∃ l, v = s.cbcHead p d k n l

/-- The called port after a CBC call of `n` blocks. -/
def State.portAfterCbc (s : State) (p : Port) (d : Dir) (k : Key) (n : Nat) : Port :=
  { (s.cbcPort p d k n).finish .ok with pos := p.len }

/-- The machine after a CBC call of `n` blocks under the key `k`. -/
def State.afterCbc (s : State) (p : Port) (d : Dir) (k : Key) (n : Nat) : State :=
  s.putView s.cur { s.cbcHead p d k n p.scratch with port := s.portAfterCbc p d k n }

section
variable {s : State} {p : Port} {k : Key} {n : Nat}

theorem check_cbc (d : Dir) (hlive : p.live = true) (hk : p.record d = .set k) (hlen : p.len % 16 = 0) :
    Instr.check (cbcOf d) p = none := by
  have hoperand : operandCheck (cbcOf d) p = none := by cases d <;> simp [operandCheck, cbcOf, checkLength, hlen]
  cases d with
  | enc => exact check_of_live (by decide) hlive hoperand rfl hk
  | dec => exact check_of_live (by decide) hlive hoperand rfl hk

/-- A call of CBC with a `LEN` that is not a whole number of blocks fails, whether its key is set or not (R161,
R246). -/
theorem exec_cbc_ragged (d : Dir) (h : s.idlePort p) (hlive : p.live = true) (hlen : p.len % 16 ≠ 0) :
    exec (cbcOf d) s = .next (s.failed p (encode (cbcOf d)) .invalidInputLength) := by
  have hlife : checkLive p = none := by simp [checkLive, hlive]
  have hoperand : checkLength p = some .invalidInputLength := if_neg hlen
  have hcheck : Instr.check (cbcOf d) p = firstFailure [checkLive p, checkLength p, checkKey p d] := by cases d <;> rfl
  refine exec_of_check_some h (hcheck.trans ?_)
  rw [firstFailure_cons_none hlife, firstFailure_cons_some hoperand]

theorem State.length_cbcResult (d : Dir) : (s.cbcResult p d k n).1.length = n := by
  simp [State.cbcResult]

/-- One more block appends its step of the chain. -/
theorem State.cbcResult_succ {d : Dir} {o iv : Block}
    (h : cbcChain Config.primitive d k (s.cbcResult p d k n).2 [s.mem.readBlock s.params.aw (p.src + 16 * n)]
      = ([o], iv)) :
    s.cbcResult p d k (n + 1) = ((s.cbcResult p d k n).1 ++ [o], iv) := by
  unfold State.cbcResult at h ⊢
  rw [Memory.readBlocks_succ, cbcChain_append, h]

/-- One block leads from a loop head to the next: the block read is the input's, since no output block written before
it lies there (R70). -/
theorem runOps_cbcHead (d : Dir) (hlock : s.engine.lock = .free) (hk : p.record d = .set k)
    (hm : s.mem.wf s.params.aw = true) (hbuf : BuffersOk s.params.aw p.src p.dst (16 * n)) (j : Nat) (v : View)
    (hv : s.atCbcHead p d k j v) (hj : j < n) :
    ∃ w, runOps Config.primitive s.params s.cur (cbcOf d) (cbcUnit d v.port) v = .next w
      ∧ s.atCbcHead p d k (j + 1) w := by
  obtain ⟨l, rfl⟩ := hv
  have hlen := State.length_cbcResult (s := s) (p := p) (k := k) (n := j) d
  have hrecord : (s.cbcHead p d k j l).port.record d = .set k := by cases d <;> exact hk
  obtain ⟨o, iv, l', hstep, hrun⟩ := runOps_cbcUnit Config.primitive s.params s.cur (cbcOf d) d
    (s.cbcHead p d k j l).port hlock hrecord (hbuf.readBlock_ahead hm hlen hj)
  have hmem : (s.cbcHead p d k j l).mem.writeBlock s.params.aw (p.dst + 16 * j) o
      = s.mem.writeBytes s.params.aw p.dst (blockBytes ((s.cbcResult p d k j).1 ++ [o])) := by
    rw [blockBytes_append, blockBytes_singleton, Memory.writeBytes_append, length_blockBytes, hlen]
    rfl
  refine ⟨_, hrun, l', ?_⟩
  have hsucc := State.cbcResult_succ hstep
  simp only [State.cbcHead, State.cbcPort, hsucc] at hmem ⊢
  rw [← hmem]
  cases d <;> simp [cbcTemp, hlock, Nat.mul_succ]

/-- A call of CBC on a ready port with its key set, for a whole number of blocks in place or into a disjoint buffer. -/
theorem exec_cbc (d : Dir) (h : s.readyPort p) (hk : p.record d = .set k) (hm : s.mem.wf s.params.aw = true)
    (hlen : p.len = 16 * n) (hbuf : BuffersOk s.params.aw p.src p.dst (16 * n)) :
    exec (cbcOf d) s = .next (s.afterCbc p d k n) := by
  obtain ⟨hport, hlive, hlock⟩ := h
  have hcheck := check_cbc d hlive hk (by omega)
  have hhead : ∀ j v, s.atCbcHead p d k j v →
      v.port.seq = .run (cbcOf d) [] ∧ v.port.len = p.len ∧ v.port.pos = 16 * j := by
    rintro j v ⟨l, rfl⟩
    exact ⟨rfl, rfl, rfl⟩
  have hstart : s.atCbcHead p d k 0 (s.loopHead p (cbcOf d)) := ⟨p.scratch, by cases d <;> rfl⟩
  obtain ⟨w, ⟨l, rfl⟩, hexec⟩ := exec_of_loop hport hcheck (program_cbc d) (by decide) hlen hhead hstart
    (runOps_cbcHead d hlock hk hm hbuf)
  have hend : (s.cbcHead p d k n l).port.finish .ok = s.portAfterCbc p d k n := by
    rw [State.portAfterCbc, hlen]
    rfl
  rw [hexec, hend]
  rfl

/-- After a CBC call the port is ready again. -/
theorem State.readyPort_afterCbc (d : Dir) (k : Key) (n : Nat) (h : s.readyPort p) :
    (s.afterCbc p d k n).readyPort (s.portAfterCbc p d k n) := by
  obtain ⟨⟨hp, -⟩, hlive, hlock⟩ := h
  exact ⟨⟨State.putView_port_self _ hp, rfl⟩, hlive, hlock⟩

/-- After a CBC call the output blocks are at `DST`, if they fit data memory. -/
theorem State.readBlocks_afterCbc (d : Dir) (k : Key) (hm : s.mem.wf s.params.aw = true)
    (hn : 16 * n ≤ 2 ^ s.params.aw) :
    (s.afterCbc p d k n).mem.readBlocks s.params.aw p.dst n = (s.cbcResult p d k n).1 :=
  Memory.readBlocks_writeBytes hm p.dst (State.length_cbcResult d) hn

end

/-- Settles O17: the failed call of each direction. -/
theorem raggedCbcLengthIsRefused : Obligations.RaggedCbcLengthIsRefused := by
  intro s p h hlive hlen
  exact ⟨exec_cbc_ragged .enc h hlive hlen, exec_cbc_ragged .dec h hlive hlen⟩

/-- Settles O23: the call of CBC in the direction `enc`. -/
theorem cbcEncryptsTheChain : Obligations.CbcEncryptsTheChain := by
  intro s p k n h hk hm hlen hbuf
  exact exec_cbc .enc h hk hm hlen hbuf

/-- Settles O24: the call of CBC in the direction `dec`. -/
theorem cbcDecryptsTheChain : Obligations.CbcDecryptsTheChain := by
  intro s p k n h hk hm hlen hbuf
  exact exec_cbc .dec h hk hm hlen hbuf

/-- Settles O36: the second call reads the blocks that the first one wrote, and decrypting the chain undoes it. -/
theorem cbcRoundTrip : Obligations.CbcRoundTrip := by
  intro s p k y h hek hdk hm hmod hbuf hbuf'
  obtain ⟨n, hlen⟩ : ∃ n, p.len = 16 * n := ⟨p.len / 16, by omega⟩
  rw [hlen] at hbuf hbuf' ⊢
  have ⟨_, hlive, _⟩ := h
  have ⟨hn, _⟩ := hbuf
  have hready := State.readyPort_mapPort (State.readyPort_afterCbc .enc k n h)
    (f := fun q => { q with iv := p.iv, src := p.dst, dst := y }) rfl hlive
  have hm' : (s.afterCbc p .enc k n).mem.wf s.params.aw = true := Memory.wf_writeBytes _ _ hm
  refine ⟨s.afterCbc p .enc k n, _, exec_cbc .enc h hek hm hlen hbuf, exec_cbc .dec hready hdk hm' hlen hbuf', ?_⟩
  rw [← Memory.blockBytes_readBlocks, ← Memory.blockBytes_readBlocks]
  refine congrArg blockBytes ((State.readBlocks_afterCbc .dec k hm' hn).trans ?_)
  have hplain : (cbcChain Config.primitive .dec k p.iv (s.cbcResult p .enc k n).1).1
      = s.mem.readBlocks s.params.aw p.src n := cbcChain_dec_enc Config.primitive k p.iv _
  rw [← State.readBlocks_afterCbc .enc k hm hn] at hplain
  exact hplain

end Sys2Proof.Machine
end

section
/-! What the modes that go byte by byte share (spec/20_memory.md rules R61, R62; spec/43_cfb128.md rules R182 to R185;
spec/45_ctr.md rules R222 to R225): one more byte of a buffer, and which bytes use the engine. -/

namespace Sys2Proof.Machine

/-! ### One more byte of a buffer (R61, R62) -/

section
variable {aw : Nat} (m : Memory) (a : Nat)

theorem Memory.readBytes_succ (n : Nat) : m.readBytes aw a (n + 1) = m.readBytes aw a n ++ [m.read aw (a + n)] := by
  simp [Memory.readBytes, List.range_succ]

@[simp] theorem Memory.length_readBytes (n : Nat) : (m.readBytes aw a n).length = n := by
  simp [Memory.readBytes]

theorem Memory.writeBytes_concat (ys : List Byte) (y : Byte) :
    m.writeBytes aw a (ys ++ [y]) = (m.writeBytes aw a ys).write aw (a + ys.length) y :=
  Memory.writeBytes_append m a ys [y]

end

/-! ### The count of bytes in `OFFSET` (R183, R184, R224) -/

theorem toNat_offset_add_one (o : BitVec 4) : (o + 1).toNat = (o.toNat + 1) % 16 := BitVec.toNat_add o 1

/-- A byte more uses the engine if and only if the offset it starts from is 0. -/
theorem BigStep.refreshes_succ {o o' : BitVec 4} {n : Nat} (h : o'.toNat = (o.toNat + n) % 16) :
    BigStep.refreshes o (n + 1) = BigStep.refreshes o n + if o' = 0 then 1 else 0 := by
  have hzero : o' = 0 ↔ (o.toNat + n) % 16 = 0 := by rw [← h, BitVec.toNat_eq]; rfl
  simp only [BigStep.refreshes, List.range_succ, List.filter_append, List.length_append, hzero]
  congr 1
  split <;> simp_all

/-- The shared state after `n` bytes from the offset `o` under the key `k`: `ACTIVE` is that key's if there was a
refresh. -/
def Engine.afterRefreshes (e : Engine) (k : Key) (o : BitVec 4) (n : Nat) : Engine :=
  { e with active := if BigStep.refreshes o n = 0 then e.active else some (.enc, k) }

theorem Engine.afterRefreshes_succ (e : Engine) (k : Key) {o o' : BitVec 4} {n : Nat}
    (h : o'.toNat = (o.toNat + n) % 16) :
    e.afterRefreshes k o (n + 1)
      = { e.afterRefreshes k o n with
          active := if o' = 0 then some (.enc, k) else (e.afterRefreshes k o n).active } := by
  by_cases ho : o' = 0
  · simp only [Engine.afterRefreshes, BigStep.refreshes_succ h, if_pos ho, Nat.add_one_ne_zero, if_false]
  · simp only [Engine.afterRefreshes, BigStep.refreshes_succ h, if_neg ho, Nat.add_zero]

end Sys2Proof.Machine
end

section
/-! The CFB-128 shift register (spec/43_cfb128.md): one call of it in either direction (R180 to R185), and the round trip
(R186). -/

namespace Sys2Proof.Machine

/-- The CFB-128 command of a direction. -/
def cfb128Of : Dir → Instr
  | .enc => .cfb128Enc
  | .dec => .cfb128Dec

/-- One byte of the CFB-128 command of a direction. -/
def cfb128Unit : Dir → Port → List MicroOp
  | .enc => cfb128EncUnit
  | .dec => cfb128DecUnit

theorem program_cfb128 (d : Dir) : Instr.program (cfb128Of d) = loopProgram (cfb128Unit d) := by
  cases d <;> rfl

/-! ### The stream, for either direction -/

section
variable (E : Block → Block) (d : Dir) (v : Block) (o : BitVec 4) (xs : List Byte)

@[simp] theorem BigStep.length_cfb128 : (BigStep.cfb128 E d v o xs).1.length = xs.length := by
  induction xs generalizing v o with
  | nil => rfl
  | cons x xs ih => exact congrArg (· + 1) (ih _ _)

/-- The final offset of the big-step form (R183, R184). -/
theorem BigStep.toNat_cfb128_offset : (BigStep.cfb128 E d v o xs).2.2.toNat = (o.toNat + xs.length) % 16 := by
  induction xs generalizing v o with
  | nil => exact (Nat.mod_eq_of_lt o.isLt).symm
  | cons x xs ih =>
    refine (ih _ (o + 1)).trans ?_
    rw [toNat_offset_add_one, List.length_cons]
    omega

/-- Decryption undoes encryption from the same `IV` and `OFFSET`: both put the ciphertext byte into the register, so
each byte meets the same keystream byte twice (R186). -/
theorem BigStep.cfb128_dec_enc : (BigStep.cfb128 E .dec v o (BigStep.cfb128 E .enc v o xs).1).1 = xs := by
  induction xs generalizing v o with
  | nil => rfl
  | cons x xs ih =>
    refine congrArg₂ List.cons ?_ (ih _ _)
    rw [BitVec.xor_assoc, BitVec.xor_self, BitVec.xor_zero]

end

/-! ### One byte -/

section
variable (prim : BlockPrimitive) (k : Key) (v : View)

/-- The register after the refresh (R182). -/
theorem afterCfb128Refresh_iv :
    (afterCfb128Refresh prim k v).port.iv
      = if v.port.offset = 0 then prim.encryptBlock k v.port.iv else v.port.iv := by
  unfold afterCfb128Refresh
  split <;> rfl

/-- The engine after the refresh (R182): the lock is free again, and `ACTIVE` holds the key if there was one. -/
theorem afterCfb128Refresh_eng (hl : v.eng.lock = .free) :
    (afterCfb128Refresh prim k v).eng
      = { v.eng with active := if v.port.offset = 0 then some (.enc, k) else v.eng.active } := by
  unfold afterCfb128Refresh
  split <;> simp [← hl]

end

/-- One byte of CFB-128 with the lock free and `EK` set: a step of the stream, its output at `DST + POS`, the engine used
if the offset is 0 (R182 to R184). -/
theorem runOps_cfb128Unit (prim : BlockPrimitive) (ps : Params) (c : Nat) (i : Instr) (d : Dir) {v : View} {k : Key}
    (hl : v.eng.lock = .free) (hk : v.port.ek = .set k) {x : Byte}
    (hx : v.mem.read ps.aw (v.port.src + v.port.pos) = x) :
    ∃ y iv l, BigStep.cfb128 (prim.encryptBlock k) d v.port.iv v.port.offset [x] = ([y], iv, v.port.offset + 1)
      ∧ runOps prim ps c i (cfb128Unit d v.port) v = .next
        { port := { v.port with iv := iv, offset := v.port.offset + 1, pos := v.port.pos + 1, scratch := l }
          eng := { v.eng with active := if v.port.offset = 0 then some (.enc, k) else v.eng.active }
          mem := v.mem.write ps.aw (v.port.dst + v.port.pos) y } := by
  subst hx
  have hiv := afterCfb128Refresh_iv prim k v
  have heng := afterCfb128Refresh_eng prim k v hl
  cases d with
  | enc =>
    have hrun := runOps_cfb128EncUnit prim ps c i k v hl hk
    dsimp only at hrun
    rw [hiv, heng, BitVec.xor_comm] at hrun
    exact ⟨_, _, _, rfl, hrun⟩
  | dec =>
    have hrun := runOps_cfb128DecUnit prim ps c i k v hl hk
    dsimp only at hrun
    rw [hiv, heng, BitVec.xor_comm] at hrun
    exact ⟨_, _, _, rfl, hrun⟩

/-! ### A call of CFB-128, for either direction -/

/-- The output bytes and the final `IV` and `OFFSET` of the first `n` bytes at `SRC`. -/
def State.cfb128Result (s : State) (p : Port) (d : Dir) (k : Key) (n : Nat) : List Byte × Block × BitVec 4 :=
  BigStep.cfb128 (Config.primitive.encryptBlock k) d p.iv p.offset (s.mem.readBytes s.params.aw p.src n)

/-- The called port's view at the loop head of a CFB-128 command after `n` bytes, with the latches `l`: the output so far
is at `DST`, and the engine was used if the offset was 0 before one of them. -/
def State.cfb128Head (s : State) (p : Port) (d : Dir) (k : Key) (n : Nat) (l : Scratch) : View where
  port := { p with
    cmd := encode (cfb128Of d)
    iv := (s.cfb128Result p d k n).2.1
    offset := (s.cfb128Result p d k n).2.2
    pos := n
    seq := .run (cfb128Of d) []
    scratch := l }
  eng := s.engine.afterRefreshes k p.offset n
  mem := s.mem.writeBytes s.params.aw p.dst (s.cfb128Result p d k n).1

/-- The view `v` is the called port's at that loop head, whatever the latches hold. -/
def State.atCfb128Head (s : State) (p : Port) (d : Dir) (k : Key) (n : Nat) (v : View) : Prop :=
  ∃ l, v = s.cfb128Head p d k n l

/-- The called port after a CFB-128 call. -/
def State.portAfterCfb128 (s : State) (p : Port) (d : Dir) (k : Key) : Port :=
  (s.cfb128Head p d k p.len p.scratch).port.finish .ok

/-- The machine after a CFB-128 call under the key `k`. -/
def State.afterCfb128 (s : State) (p : Port) (d : Dir) (k : Key) : State :=
  s.putView s.cur { s.cfb128Head p d k p.len p.scratch with port := s.portAfterCfb128 p d k }

section
variable {s : State} {p : Port} {k : Key}

/-- CFB-128 validates `EK` in both directions (R180, R181). -/
theorem check_cfb128 (d : Dir) (hlive : p.live = true) (hk : p.ek = .set k) : Instr.check (cfb128Of d) p = none := by
  cases d with
  | enc => exact check_of_live (d := .enc) (by decide) hlive rfl rfl hk
  | dec => exact check_of_live (d := .enc) (by decide) hlive rfl rfl hk

theorem State.length_cfb128Result (d : Dir) (n : Nat) : (s.cfb128Result p d k n).1.length = n := by
  simp [State.cfb128Result]

theorem State.toNat_cfb128Result_offset (d : Dir) (n : Nat) :
    (s.cfb128Result p d k n).2.2.toNat = (p.offset.toNat + n) % 16 := by
  simp [State.cfb128Result, BigStep.toNat_cfb128_offset]

/-- One more byte appends its step of the stream. -/
theorem State.cfb128Result_succ {d : Dir} {n : Nat} {y : Byte} {iv : Block} {o : BitVec 4}
    (h : BigStep.cfb128 (Config.primitive.encryptBlock k) d (s.cfb128Result p d k n).2.1 (s.cfb128Result p d k n).2.2
      [s.mem.read s.params.aw (p.src + n)] = ([y], iv, o)) :
    s.cfb128Result p d k (n + 1) = ((s.cfb128Result p d k n).1 ++ [y], iv, o) := by
  unfold State.cfb128Result at h ⊢
  rw [Memory.readBytes_succ, BigStep.cfb128_append]
  simp only [h]

/-- One byte leads from a loop head to the next: the byte read is the input's, since no output byte written before it
lies there (R70). -/
theorem runOps_cfb128Head (d : Dir) (hlock : s.engine.lock = .free) (hk : p.ek = .set k)
    (hm : s.mem.wf s.params.aw = true) (hbuf : BuffersOk s.params.aw p.src p.dst p.len) (n : Nat) (v : View)
    (hv : s.atCfb128Head p d k n v) (hn : n < p.len) :
    ∃ w, runOps Config.primitive s.params s.cur (cfb128Of d) (cfb128Unit d v.port) v = .next w
      ∧ s.atCfb128Head p d k (n + 1) w := by
  obtain ⟨l, rfl⟩ := hv
  have hlen := State.length_cfb128Result (s := s) (p := p) (k := k) d n
  have hoffset := State.toNat_cfb128Result_offset (s := s) (p := p) (k := k) d n
  obtain ⟨y, iv, l', hstep, hrun⟩ := runOps_cfb128Unit Config.primitive s.params s.cur (cfb128Of d) d
    (v := s.cfb128Head p d k n l) hlock hk (hbuf.read_ahead hm hlen.le hn)
  have hmem : (s.cfb128Head p d k n l).mem.write s.params.aw (p.dst + n) y
      = s.mem.writeBytes s.params.aw p.dst ((s.cfb128Result p d k n).1 ++ [y]) := by
    rw [Memory.writeBytes_concat, hlen]
    rfl
  refine ⟨_, hrun, l', ?_⟩
  have hsucc := State.cfb128Result_succ hstep
  simp only [State.cfb128Head, hsucc, Engine.afterRefreshes_succ _ _ hoffset] at hmem ⊢
  rw [← hmem]
  rfl

/-- A call of CFB-128 on a ready port with `EK` set, in place or into a disjoint buffer. -/
theorem exec_cfb128 (d : Dir) (h : s.readyPort p) (hk : p.ek = .set k) (hm : s.mem.wf s.params.aw = true)
    (hbuf : BuffersOk s.params.aw p.src p.dst p.len) : exec (cfb128Of d) s = .next (s.afterCfb128 p d k) := by
  obtain ⟨hport, hlive, hlock⟩ := h
  have hhead : ∀ n v, s.atCfb128Head p d k n v →
      v.port.seq = .run (cfb128Of d) [] ∧ v.port.len = p.len ∧ v.port.pos = 1 * n := by
    rintro n v ⟨l, rfl⟩
    exact ⟨rfl, rfl, (Nat.one_mul n).symm⟩
  have hstart : s.atCfb128Head p d k 0 (s.loopHead p (cfb128Of d)) := ⟨p.scratch, rfl⟩
  obtain ⟨w, ⟨l, rfl⟩, hexec⟩ := exec_of_loop hport (check_cfb128 d hlive hk) (program_cfb128 d) Nat.one_pos
    (Nat.one_mul p.len).symm hhead hstart (runOps_cfb128Head d hlock hk hm hbuf)
  exact hexec

/-- After a CFB-128 call the port is ready again. -/
theorem State.readyPort_afterCfb128 (d : Dir) (k : Key) (h : s.readyPort p) :
    (s.afterCfb128 p d k).readyPort (s.portAfterCfb128 p d k) := by
  obtain ⟨⟨hp, -⟩, hlive, hlock⟩ := h
  exact ⟨⟨State.putView_port_self _ hp, rfl⟩, hlive, hlock⟩

/-- After a CFB-128 call the output bytes are at `DST`, if they fit data memory. -/
theorem State.readBytes_afterCfb128 (d : Dir) (k : Key) (hm : s.mem.wf s.params.aw = true)
    (hn : p.len ≤ 2 ^ s.params.aw) :
    (s.afterCfb128 p d k).mem.readBytes s.params.aw p.dst p.len = (s.cfb128Result p d k p.len).1 := by
  have hlen := State.length_cfb128Result (s := s) (p := p) (k := k) d p.len
  have hread := Memory.readBytes_writeBytes hm p.dst (hlen.trans_le hn)
  rwa [hlen] at hread

end

/-- Settles O25: the call of CFB-128 in both directions. -/
theorem cfb128RunsTheShiftRegister : Obligations.Cfb128RunsTheShiftRegister := by
  intro s p k h hk hm hbuf
  exact ⟨exec_cfb128 .enc h hk hm hbuf, exec_cfb128 .dec h hk hm hbuf⟩

/-- Settles O37: the second call reads the bytes that the first one wrote, and decrypting the stream undoes it. -/
theorem cfb128RoundTrip : Obligations.Cfb128RoundTrip := by
  intro s p k y h hek hm hbuf hbuf'
  have ⟨_, hlive, _⟩ := h
  have ⟨hn, _⟩ := hbuf
  have hready := State.readyPort_mapPort (State.readyPort_afterCfb128 .enc k h)
    (f := fun q => { q with iv := p.iv, offset := p.offset, src := p.dst, dst := y }) rfl hlive
  have hm' : (s.afterCfb128 p .enc k).mem.wf s.params.aw = true := Memory.wf_writeBytes _ _ hm
  refine ⟨s.afterCfb128 p .enc k, _, exec_cfb128 .enc h hek hm hbuf, exec_cfb128 .dec hready hek hm' hbuf', ?_⟩
  refine Eq.trans (State.readBytes_afterCfb128 .dec k hm' hn) ?_
  have hplain : (BigStep.cfb128 (Config.primitive.encryptBlock k) .dec p.iv p.offset (s.cfb128Result p .enc k p.len).1).1
      = s.mem.readBytes s.params.aw p.src p.len := BigStep.cfb128_dec_enc _ p.iv p.offset _
  rw [← State.readBytes_afterCfb128 .enc k hm hn] at hplain
  exact hplain

end Sys2Proof.Machine
end

section
/-! `OFFSET` counts the bytes of CFB-128 and CTR, wherever their buffers lie (spec/43_cfb128.md rules R183, R184;
spec/45_ctr.md rules R224, R225). -/

namespace Sys2Proof.Machine

/-- The final offset of the big-step form of CTR (R224, R225). -/
theorem BigStep.toNat_ctr_offset (E : Block → Block) (t : BigStep.CtrState) (xs : List Byte) :
    (BigStep.ctr E t xs).2.offset.toNat = (t.offset.toNat + xs.length) % 16 := by
  induction xs generalizing t with
  | nil => exact (Nat.mod_eq_of_lt t.offset.isLt).symm
  | cons x xs ih =>
    have hrefresh : (BigStep.ctrRefresh E t).offset = t.offset := by
      unfold BigStep.ctrRefresh
      split <;> rfl
    refine (ih _).trans ?_
    rw [toNat_offset_add_one, hrefresh, List.length_cons]
    omega

/-! ### One byte, whatever it is -/

/-- The view `w` is one byte further than `v` in a command that counts its bytes in `OFFSET`, and the lock is free. -/
structure View.ByteStep (v w : View) : Prop where
  seq : w.port.seq = v.port.seq
  len : w.port.len = v.port.len
  ek : w.port.ek = v.port.ek
  pos : w.port.pos = v.port.pos + 1
  offset : w.port.offset = v.port.offset + 1
  lock : w.eng.lock = .free

/-- With the lock free and `EK` set, the unit of the command `i` takes one byte and counts it in `OFFSET`. -/
def CountsInOffset (i : Instr) (unit : Port → List MicroOp) : Prop :=
  ∀ prim ps c v k, v.eng.lock = .free → v.port.ek = .set k →
    ∃ w, runOps prim ps c i (unit v.port) v = .next w ∧ v.ByteStep w

theorem countsInOffset_cfb128Unit (i : Instr) (d : Dir) : CountsInOffset i (cfb128Unit d) := by
  intro prim ps c v k hl hk
  obtain ⟨y, iv, l, -, hrun⟩ := runOps_cfb128Unit prim ps c i d hl hk rfl
  exact ⟨_, hrun, rfl, rfl, rfl, rfl, rfl, hl⟩

theorem countsInOffset_ctrUnit (i : Instr) : CountsInOffset i ctrUnit := by
  intro prim ps c v k hl hk
  have hlock : (afterCtrRefresh prim k v).eng.lock = .free := by
    unfold afterCtrRefresh
    split
    · rfl
    · exact hl
  exact ⟨_, runOps_ctrUnit prim ps c i k v hl hk, rfl, rfl, rfl, rfl, rfl, hlock⟩

/-! ### A call, wherever the buffers lie -/

/-- What holds of `OFFSET` at the loop head of the command `i` after `n` bytes, and what one more byte needs. -/
structure View.AtByte (i : Instr) (p : Port) (k : Key) (n : Nat) (v : View) : Prop where
  seq : v.port.seq = .run i []
  len : v.port.len = p.len
  ek : v.port.ek = .set k
  pos : v.port.pos = n
  offset : v.port.offset.toNat = (p.offset.toNat + n) % 16
  lock : v.eng.lock = .free

theorem View.AtByte.next {i : Instr} {p : Port} {k : Key} {n : Nat} {v w : View} (h : v.AtByte i p k n)
    (hstep : v.ByteStep w) : w.AtByte i p k (n + 1) where
  seq := hstep.seq.trans h.seq
  len := hstep.len.trans h.len
  ek := hstep.ek.trans h.ek
  pos := by rw [hstep.pos, h.pos]
  offset := by
    rw [hstep.offset, toNat_offset_add_one, h.offset]
    omega
  lock := hstep.lock

/-- A validated call of a command whose unit counts its byte in `OFFSET`. -/
theorem exec_countsInOffset {s : State} {p : Port} {k : Key} {i : Instr} {unit : Port → List MicroOp}
    (h : s.readyPort p) (hk : p.ek = .set k) (hcheck : Instr.check i p = none)
    (hprog : Instr.program i = loopProgram unit) (hunit : CountsInOffset i unit) :
    ∃ t q, exec i s = .next t ∧ t.ports[s.cur]? = some q ∧ q.busy = false ∧ q.result = .ok
      ∧ q.offset.toNat = (p.offset.toNat + p.len) % 16 := by
  obtain ⟨hport, -, hlock⟩ := h
  have hstart : (s.loopHead p i).AtByte i p k 0 :=
    ⟨rfl, rfl, hk, rfl, (Nat.mod_eq_of_lt p.offset.isLt).symm, hlock⟩
  have hhead : ∀ n v, View.AtByte i p k n v →
      v.port.seq = .run i [] ∧ v.port.len = p.len ∧ v.port.pos = 1 * n := fun n v hv =>
    ⟨hv.seq, hv.len, hv.pos.trans (Nat.one_mul n).symm⟩
  have hnext : ∀ n v, View.AtByte i p k n v → n < p.len →
      ∃ w, runOps Config.primitive s.params s.cur i (unit v.port) v = .next w ∧ View.AtByte i p k (n + 1) w := by
    intro n v hv _
    obtain ⟨w, hrun, hstep⟩ := hunit Config.primitive s.params s.cur v k hv.lock hv.ek
    exact ⟨w, hrun, hv.next hstep⟩
  obtain ⟨w, hw, hexec⟩ := exec_of_loop hport hcheck hprog Nat.one_pos (Nat.one_mul p.len).symm hhead hstart hnext
  exact ⟨_, _, hexec, State.putView_port_self _ hport.1, rfl, rfl, hw.offset⟩

/-- Settles O31: the units of all three commands count their byte in `OFFSET`, and so do the big-step forms. -/
theorem offsetAdvancesByTheLength : Obligations.OffsetAdvancesByTheLength := by
  refine ⟨fun s p k i h hk hi => ?_, fun E dir v o t xs =>
    ⟨BigStep.toNat_cfb128_offset E dir v o xs, BigStep.toNat_ctr_offset E t xs⟩⟩
  have ⟨_, hlive, _⟩ := h
  rcases hi with rfl | rfl | rfl
  · exact exec_countsInOffset h hk (check_cfb128 .enc hlive hk) (program_cfb128 .enc) (countsInOffset_cfb128Unit _ .enc)
  · exact exec_countsInOffset h hk (check_cfb128 .dec hlive hk) (program_cfb128 .dec) (countsInOffset_cfb128Unit _ .dec)
  · exact exec_countsInOffset h hk (check_of_live (d := .enc) (by decide) hlive rfl rfl hk) rfl
      (countsInOffset_ctrUnit _)

end Sys2Proof.Machine
end

section
/-! The CFB-8 byte shifter (spec/44_cfb8.md): the window its register slides over (R206), one call of it in either
direction (R200 to R205), and the round trip (R207). -/

namespace Sys2Proof.Machine

/-- The CFB-8 command of a direction. -/
def cfb8Of : Dir → Instr
  | .enc => .cfb8Enc
  | .dec => .cfb8Dec

/-- One byte of the CFB-8 command of a direction. -/
def cfb8Unit : Dir → Port → List MicroOp
  | .enc => cfb8EncUnit
  | .dec => cfb8DecUnit

theorem program_cfb8 (d : Dir) : Instr.program (cfb8Of d) = loopProgram (cfb8Unit d) := by
  cases d <;> rfl

/-! ### The stream, for either direction -/

section
variable (E : Block → Block) (d : Dir) (v : Block) (xs : List Byte)

@[simp] theorem BigStep.length_cfb8 : (BigStep.cfb8 E d v xs).1.length = xs.length := by
  induction xs generalizing v with
  | nil => rfl
  | cons x xs ih => exact congrArg (· + 1) (ih _)

/-- Decryption undoes encryption from the same `IV`: both shift the ciphertext byte into the register, so each byte
meets the same keystream byte twice (R207). -/
theorem BigStep.cfb8_dec_enc : (BigStep.cfb8 E .dec v (BigStep.cfb8 E .enc v xs).1).1 = xs := by
  induction xs generalizing v with
  | nil => rfl
  | cons x xs ih =>
    refine congrArg₂ List.cons ?_ (ih _)
    rw [BitVec.xor_assoc, BitVec.xor_self, BitVec.xor_zero]

/-! ### The window (R206) -/

/-- The ciphertext of a stream: its output when encrypting, its input when decrypting (R206). -/
def BigStep.cfb8Cipher : List Byte :=
  match d with
  | .enc => (BigStep.cfb8 E d v xs).1
  | .dec => xs

/-- `W` of R206: the starting register followed by the ciphertext. -/
def BigStep.cfb8Window : List Byte := v.toList ++ BigStep.cfb8Cipher E d v xs

/-- A byte behind a register: the first byte falls out of the register and the byte moves in (R202). -/
theorem toList_append_cons_eq_shiftIn (z : Byte) (zs : List Byte) :
    v.toList ++ z :: zs = v[0] :: ((shiftIn v z).toList ++ zs) := by
  have hshift : v.toList ++ [z] = v[0] :: (shiftIn v z).toList := by
    apply List.ext_getElem
    · simp
    · intro j hj _
      simp only [List.length_append, Vector.length_toList, List.length_cons, List.length_nil] at hj
      cases j with
      | zero => simp
      | succ j =>
        by_cases hlt : j < 15
        · have hin : j + 1 < 16 := by omega
          simp [shiftIn, hlt, hin]
        · obtain rfl : j = 15 := by omega
          simp [shiftIn]
  rw [← List.singleton_append, ← List.append_assoc, hshift, List.cons_append]

/-- The window from the next register on is the window without its first byte. -/
theorem BigStep.cfb8Window_cons (x : Byte) :
    BigStep.cfb8Window E d v (x :: xs)
      = v[0] :: BigStep.cfb8Window E d (shiftIn v (BigStep.cipherByte d x (x ^^^ (E v)[0]))) xs := by
  cases d <;> exact toList_append_cons_eq_shiftIn v _ _

theorem BigStep.cfb8Window_take : (BigStep.cfb8Window E d v xs).take 16 = v.toList :=
  List.take_left' Vector.length_toList

/-- The final register is the window behind as many bytes as the stream has. -/
theorem BigStep.toList_cfb8_register :
    (BigStep.cfb8 E d v xs).2.toList = (BigStep.cfb8Window E d v xs).drop xs.length := by
  induction xs generalizing v with
  | nil => cases d <;> exact (List.append_nil _).symm
  | cons x xs ih =>
    rw [BigStep.cfb8Window_cons, List.length_cons, List.drop_succ_cons]
    exact ih _

/-- Output byte `i` is input byte `i` xor byte 0 of the encryption of the window's bytes `i` to `i + 15`. -/
theorem BigStep.getElem?_cfb8 {i : Nat} {x : Byte} (h : xs[i]? = some x) :
    ∃ b : Block, b.toList = ((BigStep.cfb8Window E d v xs).drop i).take 16
      ∧ (BigStep.cfb8 E d v xs).1[i]? = some (x ^^^ (E b)[0]) := by
  induction xs generalizing v i with
  | nil => simp at h
  | cons x' xs ih =>
    cases i with
    | zero =>
      obtain rfl : x' = x := by simpa using h
      exact ⟨v, (BigStep.cfb8Window_take E d v (x' :: xs)).symm, rfl⟩
    | succ i =>
      rw [BigStep.cfb8Window_cons, List.drop_succ_cons]
      exact ih _ h

end

/-- Settles O33: the register slides along the window one byte with every byte of the stream. -/
theorem cfb8SlidesAWindow : Obligations.Cfb8SlidesAWindow := by
  intro E dir v xs
  exact ⟨BigStep.length_cfb8 E dir v xs, BigStep.toList_cfb8_register E dir v xs,
    fun _ _ h => BigStep.getElem?_cfb8 E dir v xs h⟩

/-! ### One byte -/

/-- One byte of CFB-8 with the lock free and `EK` set: a step of the stream, its output at `DST + POS` (R202 to
R205). -/
theorem runOps_cfb8Unit (prim : BlockPrimitive) (ps : Params) (c : Nat) (i : Instr) (d : Dir) (q : Port) {v : View}
    {k : Key} (hl : v.eng.lock = .free) (hk : v.port.ek = .set k) {x : Byte}
    (hx : v.mem.read ps.aw (v.port.src + v.port.pos) = x) :
    ∃ y iv ov l, BigStep.cfb8 (prim.encryptBlock k) d v.port.iv [x] = ([y], iv)
      ∧ runOps prim ps c i (cfb8Unit d q) v = .next
        { port := { v.port with iv := iv, pos := v.port.pos + 1, ov := ov, scratch := l }
          eng := { v.eng with lock := .free, active := some (.enc, k) }
          mem := v.mem.write ps.aw (v.port.dst + v.port.pos) y } := by
  subst hx
  cases d with
  | enc =>
    have hrun := runOps_cfb8EncUnit prim ps c i q k v hl hk
    dsimp only at hrun
    rw [BitVec.xor_comm] at hrun
    exact ⟨_, _, _, _, rfl, hrun⟩
  | dec =>
    have hrun := runOps_cfb8DecUnit prim ps c i q k v hl hk
    dsimp only at hrun
    rw [BitVec.xor_comm] at hrun
    exact ⟨_, _, _, _, rfl, hrun⟩

/-! ### A call of CFB-8, for either direction -/

/-- The output bytes and the final `IV` of the first `n` bytes at `SRC`. -/
def State.cfb8Result (s : State) (p : Port) (d : Dir) (k : Key) (n : Nat) : List Byte × Block :=
  BigStep.cfb8 (Config.primitive.encryptBlock k) d p.iv (s.mem.readBytes s.params.aw p.src n)

/-- The called port's view at the loop head of a CFB-8 command after `n` bytes, with the hidden `OV` and the latches
`l`: the output so far is at `DST`, and the engine was used if there was a byte. -/
def State.cfb8Head (s : State) (p : Port) (d : Dir) (k : Key) (n : Nat) (ov : Vector Byte 17) (l : Scratch) : View where
  port := { p with
    cmd := encode (cfb8Of d)
    iv := (s.cfb8Result p d k n).2
    pos := n
    ov := ov
    seq := .run (cfb8Of d) []
    scratch := l }
  eng := { s.engine with active := if n = 0 then s.engine.active else some (.enc, k) }
  mem := s.mem.writeBytes s.params.aw p.dst (s.cfb8Result p d k n).1

/-- The view `v` is the called port's at that loop head, whatever `OV` and the latches hold. -/
def State.atCfb8Head (s : State) (p : Port) (d : Dir) (k : Key) (n : Nat) (v : View) : Prop :=
  ∃ ov l, v = s.cfb8Head p d k n ov l

/-- The called port after a CFB-8 call that leaves `ov` in `OV`. -/
def State.portAfterCfb8 (s : State) (p : Port) (d : Dir) (k : Key) (ov : Vector Byte 17) : Port :=
  (s.cfb8Head p d k p.len ov p.scratch).port.finish .ok

/-- The machine after a CFB-8 call under the key `k` that leaves `ov` in `OV`. -/
def State.afterCfb8 (s : State) (p : Port) (d : Dir) (k : Key) (ov : Vector Byte 17) : State :=
  s.putView s.cur { s.cfb8Head p d k p.len ov p.scratch with port := s.portAfterCfb8 p d k ov }

section
variable {s : State} {p : Port} {k : Key}

/-- CFB-8 validates `EK` in both directions (R200, R201). -/
theorem check_cfb8 (d : Dir) (hlive : p.live = true) (hk : p.ek = .set k) : Instr.check (cfb8Of d) p = none := by
  cases d with
  | enc => exact check_of_live (d := .enc) (by decide) hlive rfl rfl hk
  | dec => exact check_of_live (d := .enc) (by decide) hlive rfl rfl hk

theorem State.length_cfb8Result (d : Dir) (n : Nat) : (s.cfb8Result p d k n).1.length = n := by
  simp [State.cfb8Result]

/-- One more byte appends its step of the stream. -/
theorem State.cfb8Result_succ {d : Dir} {n : Nat} {y : Byte} {iv : Block}
    (h : BigStep.cfb8 (Config.primitive.encryptBlock k) d (s.cfb8Result p d k n).2
      [s.mem.read s.params.aw (p.src + n)] = ([y], iv)) :
    s.cfb8Result p d k (n + 1) = ((s.cfb8Result p d k n).1 ++ [y], iv) := by
  unfold State.cfb8Result at h ⊢
  rw [Memory.readBytes_succ, BigStep.cfb8_append]
  simp only [h]

/-- One byte leads from a loop head to the next: the byte read is the input's, since no output byte written before it
lies there (R70). -/
theorem runOps_cfb8Head (d : Dir) (hlock : s.engine.lock = .free) (hk : p.ek = .set k)
    (hm : s.mem.wf s.params.aw = true) (hbuf : BuffersOk s.params.aw p.src p.dst p.len) (n : Nat) (v : View)
    (hv : s.atCfb8Head p d k n v) (hn : n < p.len) :
    ∃ w, runOps Config.primitive s.params s.cur (cfb8Of d) (cfb8Unit d v.port) v = .next w
      ∧ s.atCfb8Head p d k (n + 1) w := by
  obtain ⟨ov, l, rfl⟩ := hv
  have hlen := State.length_cfb8Result (s := s) (p := p) (k := k) d n
  obtain ⟨y, iv, ov', l', hstep, hrun⟩ := runOps_cfb8Unit Config.primitive s.params s.cur (cfb8Of d) d
    (s.cfb8Head p d k n ov l).port (v := s.cfb8Head p d k n ov l) hlock hk (hbuf.read_ahead hm hlen.le hn)
  have hmem : (s.cfb8Head p d k n ov l).mem.write s.params.aw (p.dst + n) y
      = s.mem.writeBytes s.params.aw p.dst ((s.cfb8Result p d k n).1 ++ [y]) := by
    rw [Memory.writeBytes_concat, hlen]
    rfl
  refine ⟨_, hrun, ov', l', ?_⟩
  have hsucc := State.cfb8Result_succ hstep
  simp only [State.cfb8Head, hsucc] at hmem ⊢
  rw [← hmem]
  simp [hlock]

/-- A call of CFB-8 on a ready port with `EK` set, in place or into a disjoint buffer. -/
theorem exec_cfb8 (d : Dir) (h : s.readyPort p) (hk : p.ek = .set k) (hm : s.mem.wf s.params.aw = true)
    (hbuf : BuffersOk s.params.aw p.src p.dst p.len) : ∃ ov, exec (cfb8Of d) s = .next (s.afterCfb8 p d k ov) := by
  obtain ⟨hport, hlive, hlock⟩ := h
  have hhead : ∀ n v, s.atCfb8Head p d k n v →
      v.port.seq = .run (cfb8Of d) [] ∧ v.port.len = p.len ∧ v.port.pos = 1 * n := by
    rintro n v ⟨ov, l, rfl⟩
    exact ⟨rfl, rfl, (Nat.one_mul n).symm⟩
  have hstart : s.atCfb8Head p d k 0 (s.loopHead p (cfb8Of d)) := ⟨p.ov, p.scratch, rfl⟩
  obtain ⟨w, ⟨ov, l, rfl⟩, hexec⟩ := exec_of_loop hport (check_cfb8 d hlive hk) (program_cfb8 d) Nat.one_pos
    (Nat.one_mul p.len).symm hhead hstart (runOps_cfb8Head d hlock hk hm hbuf)
  exact ⟨ov, hexec⟩

/-- After a CFB-8 call the port is ready again. -/
theorem State.readyPort_afterCfb8 (d : Dir) (k : Key) (ov : Vector Byte 17) (h : s.readyPort p) :
    (s.afterCfb8 p d k ov).readyPort (s.portAfterCfb8 p d k ov) := by
  obtain ⟨⟨hp, -⟩, hlive, hlock⟩ := h
  exact ⟨⟨State.putView_port_self _ hp, rfl⟩, hlive, hlock⟩

/-- After a CFB-8 call the output bytes are at `DST`, if they fit data memory. -/
theorem State.readBytes_afterCfb8 (d : Dir) (k : Key) (ov : Vector Byte 17) (hm : s.mem.wf s.params.aw = true)
    (hn : p.len ≤ 2 ^ s.params.aw) :
    (s.afterCfb8 p d k ov).mem.readBytes s.params.aw p.dst p.len = (s.cfb8Result p d k p.len).1 := by
  have hlen := State.length_cfb8Result (s := s) (p := p) (k := k) d p.len
  have hread := Memory.readBytes_writeBytes hm p.dst (hlen.trans_le hn)
  rwa [hlen] at hread

end

/-- Settles O26: the call of CFB-8 in both directions. -/
theorem cfb8ShiftsByteByByte : Obligations.Cfb8ShiftsByteByByte := by
  intro s p k h hk hm hbuf
  exact ⟨exec_cfb8 .enc h hk hm hbuf, exec_cfb8 .dec h hk hm hbuf⟩

/-- Settles O38: the second call reads the bytes that the first one wrote, and decrypting the stream undoes it. -/
theorem cfb8RoundTrip : Obligations.Cfb8RoundTrip := by
  intro s p k y h hek hm hbuf hbuf'
  have ⟨_, hlive, _⟩ := h
  have ⟨hn, _⟩ := hbuf
  obtain ⟨ov, henc⟩ := exec_cfb8 .enc h hek hm hbuf
  have hready := State.readyPort_mapPort (State.readyPort_afterCfb8 .enc k ov h)
    (f := fun q => { q with iv := p.iv, src := p.dst, dst := y }) rfl hlive
  have hm' : (s.afterCfb8 p .enc k ov).mem.wf s.params.aw = true := Memory.wf_writeBytes _ _ hm
  obtain ⟨ov', hdec⟩ := exec_cfb8 .dec hready hek hm' hbuf'
  refine ⟨s.afterCfb8 p .enc k ov, _, henc, hdec, ?_⟩
  refine Eq.trans (State.readBytes_afterCfb8 .dec k ov' hm' hn) ?_
  have hplain : (BigStep.cfb8 (Config.primitive.encryptBlock k) .dec p.iv (s.cfb8Result p .enc k p.len).1).1
      = s.mem.readBytes s.params.aw p.src p.len := BigStep.cfb8_dec_enc _ p.iv _
  rw [← State.readBytes_afterCfb8 .enc k ov hm hn] at hplain
  exact hplain

end Sys2Proof.Machine
end

section
/-! The CTR increment-and-XOR engine (spec/45_ctr.md): the counter (R223), the keystream (R225), one call (R220 to R225)
and two calls in a row (R226). -/

namespace Sys2Proof.Machine

/-! ### The counter (R9, R223) -/

section
variable (n : Block)

theorem be128_eq_sum : be128 n = ∑ i : Fin 16, n[i].toNat * 256 ^ (15 - i.val) := (Fin.sum_univ_def _).symm

theorem be128_lt : be128 n < 2 ^ 128 :=
  calc be128 n = ∑ i : Fin 16, n[i].toNat * 256 ^ (15 - i.val) := be128_eq_sum n
    _ ≤ ∑ i : Fin 16, 255 * 256 ^ (15 - i.val) :=
      Finset.sum_le_sum fun i _ => Nat.mul_le_mul_right _ (Nat.le_of_lt_succ n[i].isLt)
    _ < 2 ^ 128 := by decide

/-- One byte replaced: its term of the sum is exchanged, and the others stay. -/
theorem be128_set {i : Nat} (h : i < 16) (x : Byte) :
    be128 (n.set i x h) + n[i].toNat * 256 ^ (15 - i) = be128 n + x.toNat * 256 ^ (15 - i) := by
  have hrest : ∑ j ∈ Finset.univ.erase (⟨i, h⟩ : Fin 16), (n.set i x h)[j].toNat * 256 ^ (15 - j.val)
      = ∑ j ∈ Finset.univ.erase (⟨i, h⟩ : Fin 16), n[j].toNat * 256 ^ (15 - j.val) := by
    refine Finset.sum_congr rfl fun j hj => ?_
    have hne : i ≠ j.val := fun hij => Finset.ne_of_mem_erase hj (Fin.ext hij.symm)
    simp [Vector.getElem_set_ne h j.isLt hne]
  rw [be128_eq_sum, be128_eq_sum, ← Finset.add_sum_erase _ _ (Finset.mem_univ (⟨i, h⟩ : Fin 16)),
    ← Finset.add_sum_erase _ _ (Finset.mem_univ (⟨i, h⟩ : Fin 16)), hrest]
  simp only [Fin.getElem_fin, Vector.getElem_set_self]
  omega

/-- One byte incremented: the number grows by the byte's weight, less what a wrap carries out of it. -/
theorem be128_set_add_one {i : Nat} (h : i < 16) :
    be128 (n.set i (n[i] + 1) h) + (if n[i] + 1 = 0 then 256 * 256 ^ (15 - i) else 0)
      = be128 n + 256 ^ (15 - i) := by
  have hset := be128_set n h (n[i] + 1)
  split
  next hwrap =>
    obtain ⟨hfull, hzero⟩ : n[i].toNat = 255 ∧ (n[i] + 1).toNat = 0 := by bv_omega
    rw [hfull, hzero] at hset
    omega
  next hwrap =>
    have hbyte : (n[i] + 1).toNat = n[i].toNat + 1 := by bv_omega
    rw [hbyte, Nat.add_one_mul] at hset
    omega

/-- The loop of R223 from index `i` down adds the weight of byte `i`, modulo `2^128`: the carry out of a byte is the
weight of the byte before it, and the carry out of byte 0 is `2^128`. -/
theorem be128_incFrom (i : Nat) (h : i < 16) :
    be128 (incFrom i h n) ≡ be128 n + 256 ^ (15 - i) [MOD 2 ^ 128] := by
  induction i generalizing n with
  | zero =>
    rw [← be128_set_add_one n h, incFrom]
    split
    · have hcarry : 256 * 256 ^ (15 - 0) = 2 ^ 128 := by decide
      rw [hcarry]
      exact Nat.add_modEq_right.symm
    · rw [Nat.add_zero (be128 _)]
  | succ i ih =>
    rw [← be128_set_add_one n h, incFrom]
    by_cases hwrap : n[i + 1] + 1 = 0
    · rw [if_pos hwrap, if_neg (not_not.2 hwrap), ← Nat.pow_succ', show (15 - (i + 1)).succ = 15 - i by omega]
      exact ih _ _
    · rw [if_neg hwrap, if_pos hwrap, Nat.add_zero (be128 _)]

end

/-- Settles O30: the loop starts at the byte of weight 1. -/
theorem inc128AddsOne : Obligations.Inc128AddsOne := by
  intro n
  have hinc : be128 (inc128 n) % 2 ^ 128 = (be128 n + 1) % 2 ^ 128 := be128_incFrom n 15 (by decide)
  rwa [Nat.mod_eq_of_lt (be128_lt _)] at hinc

/-! ### The stream (R222, R225) -/

section
variable (E : Block → Block)

@[simp] theorem BigStep.ctrRefresh_offset (t : BigStep.CtrState) : (BigStep.ctrRefresh E t).offset = t.offset := by
  unfold BigStep.ctrRefresh
  split <;> rfl

@[simp] theorem BigStep.length_ctr (t : BigStep.CtrState) (xs : List Byte) :
    (BigStep.ctr E t xs).1.length = xs.length := by
  induction xs generalizing t with
  | nil => rfl
  | cons x xs ih => exact congrArg (· + 1) (ih _)

theorem BigStep.ctr_singleton (t : BigStep.CtrState) (x : Byte) :
    BigStep.ctr E t [x]
      = ([x ^^^ byteAt (BigStep.ctrRefresh E t).sb t.offset],
          { BigStep.ctrRefresh E t with offset := t.offset + 1 }) := by
  simp only [BigStep.ctr, BigStep.ctrRefresh_offset]

/-- The stream undoes itself from the same chaining state: no input byte enters that state, so each byte meets the
same keystream byte twice (R226). -/
theorem BigStep.ctr_ctr (t : BigStep.CtrState) (xs : List Byte) :
    (BigStep.ctr E t (BigStep.ctr E t xs).1).1 = xs := by
  induction xs generalizing t with
  | nil => rfl
  | cons x xs ih =>
    refine congrArg₂ List.cons ?_ (ih _)
    rw [BitVec.xor_assoc, BitVec.xor_self, BitVec.xor_zero]

/-- The chaining state in which byte `j` of a stream from the counter `n` and offset 0 is taken, after its refresh if it
has one. -/
def BigStep.ctrStateAt (n : Block) (j : Nat) : BigStep.CtrState where
  nc := inc128^[j / 16 + 1] n
  sb := E (inc128^[j / 16] n)
  offset := BitVec.ofNat 4 j

theorem BigStep.ctrRefresh_start (n s : Block) :
    BigStep.ctrRefresh E { nc := n, sb := s, offset := 0 } = BigStep.ctrStateAt E n 0 := rfl

/-- One byte further: at a multiple of 16 the counter is encrypted and incremented, and elsewhere only the offset
moves. -/
theorem BigStep.ctrRefresh_ctrStateAt (n : Block) (j : Nat) :
    BigStep.ctrRefresh E { BigStep.ctrStateAt E n j with offset := (BigStep.ctrStateAt E n j).offset + 1 }
      = BigStep.ctrStateAt E n (j + 1) := by
  have hoffset : (BigStep.ctrStateAt E n j).offset + 1 = BitVec.ofNat 4 (j + 1) := (BitVec.ofNat_add j 1).symm
  have hzero : BitVec.ofNat 4 (j + 1) = 0 ↔ (j + 1) % 16 = 0 := by simp [BitVec.toNat_eq]
  rw [hoffset, BigStep.ctrRefresh]
  simp only [hzero, BigStep.ctrStateAt]
  split
  next hstart =>
    have hblock : (j + 1) / 16 = j / 16 + 1 := by omega
    rw [hblock, Function.iterate_succ_apply' inc128 (j / 16 + 1)]
  next hinside =>
    have hblock : (j + 1) / 16 = j / 16 := by omega
    rw [hblock]

/-- Output byte `i` of a stream whose first byte is byte `j` of the stream from `n` and offset 0. -/
theorem BigStep.getElem?_ctr (n : Block) {t : BigStep.CtrState} {xs : List Byte} {i j : Nat} {x : Byte}
    (ht : BigStep.ctrRefresh E t = BigStep.ctrStateAt E n j) (hx : xs[i]? = some x) :
    (BigStep.ctr E t xs).1[i]?
      = some (x ^^^ (E (inc128^[(j + i) / 16] n))[(j + i) % 16]'(Nat.mod_lt _ (by decide))) := by
  induction xs generalizing t i j with
  | nil => simp at hx
  | cons x' xs ih =>
    cases i with
    | zero =>
      obtain rfl : x' = x := by simpa using hx
      simp [BigStep.ctr, ht, BigStep.ctrStateAt, byteAt]
    | succ i =>
      have hnext := ih (BigStep.ctrRefresh_ctrStateAt E n j) hx
      rw [← ht] at hnext
      simp only [show j + (i + 1) = j + 1 + i by omega]
      exact hnext

end

/-- Settles O34: byte 0 of the stream is taken in the state of offset 0 after its refresh, whatever `SB` held. -/
theorem ctrKeystreamIsTheCounter : Obligations.CtrKeystreamIsTheCounter := by
  intro E n s xs i x hx
  have hbyte := BigStep.getElem?_ctr E n (BigStep.ctrRefresh_start E n s) hx
  simpa only [Nat.zero_add] using hbyte

/-! ### One byte -/

/-- The chaining state of CTR in a port's registers (R220). -/
def Port.ctrState (p : Port) : BigStep.CtrState := { nc := p.nc, sb := p.sb, offset := p.offset }

section
variable (prim : BlockPrimitive) (k : Key) (v : View)

/-- The chaining state after the refresh (R222). -/
theorem ctrState_afterCtrRefresh :
    (afterCtrRefresh prim k v).port.ctrState = BigStep.ctrRefresh (prim.encryptBlock k) v.port.ctrState := by
  unfold afterCtrRefresh BigStep.ctrRefresh Port.ctrState
  split <;> rfl

/-- The engine after the refresh (R222): the lock is free again, and `ACTIVE` holds the key if there was one. -/
theorem afterCtrRefresh_eng (hl : v.eng.lock = .free) :
    (afterCtrRefresh prim k v).eng
      = { v.eng with active := if v.port.offset = 0 then some (.enc, k) else v.eng.active } := by
  unfold afterCtrRefresh
  split <;> simp [← hl]

end

/-- One byte of CTR with the lock free and `EK` set: a step of the stream, its output at `DST + POS`, the engine used if
the offset is 0 (R222, R224). -/
theorem runOps_ctrUnit_step (prim : BlockPrimitive) (ps : Params) (c : Nat) (i : Instr) {v : View} {k : Key}
    (hl : v.eng.lock = .free) (hk : v.port.ek = .set k) {x : Byte}
    (hx : v.mem.read ps.aw (v.port.src + v.port.pos) = x) :
    ∃ y t l, BigStep.ctr (prim.encryptBlock k) v.port.ctrState [x] = ([y], t)
      ∧ runOps prim ps c i (ctrUnit v.port) v = .next
        { port := { v.port with
            nc := t.nc, sb := t.sb, offset := t.offset, pos := v.port.pos + 1, scratch := l }
          eng := { v.eng with active := if v.port.offset = 0 then some (.enc, k) else v.eng.active }
          mem := v.mem.write ps.aw (v.port.dst + v.port.pos) y } := by
  subst hx
  have hstate := ctrState_afterCtrRefresh prim k v
  have hnc : (afterCtrRefresh prim k v).port.nc = _ := congrArg BigStep.CtrState.nc hstate
  have hsb : (afterCtrRefresh prim k v).port.sb = _ := congrArg BigStep.CtrState.sb hstate
  have hrun := runOps_ctrUnit prim ps c i k v hl hk
  dsimp only at hrun
  rw [hnc, hsb, afterCtrRefresh_eng prim k v hl] at hrun
  exact ⟨_, _, _, BigStep.ctr_singleton _ _ _, hrun⟩

/-! ### A call of CTR -/

/-- The output bytes and the final chaining state of the first `n` bytes at `SRC`. -/
def State.ctrResult (s : State) (p : Port) (k : Key) (n : Nat) : List Byte × BigStep.CtrState :=
  BigStep.ctr (Config.primitive.encryptBlock k) p.ctrState (s.mem.readBytes s.params.aw p.src n)

/-- The called port's view at the loop head of CTR after `n` bytes, with the latches `l`: the output so far is at `DST`,
and the engine was used if the offset was 0 before one of them. -/
def State.ctrHead (s : State) (p : Port) (k : Key) (n : Nat) (l : Scratch) : View where
  port := { p with
    cmd := encode .ctr
    nc := (s.ctrResult p k n).2.nc
    sb := (s.ctrResult p k n).2.sb
    offset := (s.ctrResult p k n).2.offset
    pos := n
    seq := .run .ctr []
    scratch := l }
  eng := s.engine.afterRefreshes k p.offset n
  mem := s.mem.writeBytes s.params.aw p.dst (s.ctrResult p k n).1

/-- The view `v` is the called port's at that loop head, whatever the latches hold. -/
def State.atCtrHead (s : State) (p : Port) (k : Key) (n : Nat) (v : View) : Prop := ∃ l, v = s.ctrHead p k n l

/-- The called port after a CTR call. -/
def State.portAfterCtr (s : State) (p : Port) (k : Key) : Port := (s.ctrHead p k p.len p.scratch).port.finish .ok

/-- The machine after a CTR call under the key `k`. -/
def State.afterCtr (s : State) (p : Port) (k : Key) : State :=
  s.putView s.cur { s.ctrHead p k p.len p.scratch with port := s.portAfterCtr p k }

section
variable {s : State} {p : Port} {k : Key}

/-- CTR validates `EK` (R221). -/
theorem check_ctr (hlive : p.live = true) (hk : p.ek = .set k) : Instr.check .ctr p = none :=
  check_of_live (d := .enc) (by decide) hlive rfl rfl hk

theorem State.length_ctrResult (n : Nat) : (s.ctrResult p k n).1.length = n := by
  simp [State.ctrResult]

theorem State.toNat_ctrResult_offset (n : Nat) :
    (s.ctrResult p k n).2.offset.toNat = (p.offset.toNat + n) % 16 := by
  simp [State.ctrResult, BigStep.toNat_ctr_offset, Port.ctrState]

/-- One more byte appends its step of the stream. -/
theorem State.ctrResult_succ {n : Nat} {y : Byte} {t : BigStep.CtrState}
    (h : BigStep.ctr (Config.primitive.encryptBlock k) (s.ctrResult p k n).2 [s.mem.read s.params.aw (p.src + n)]
      = ([y], t)) :
    s.ctrResult p k (n + 1) = ((s.ctrResult p k n).1 ++ [y], t) := by
  unfold State.ctrResult at h ⊢
  rw [Memory.readBytes_succ, BigStep.ctr_append]
  simp only [h]

/-- One byte leads from a loop head to the next: the byte read is the input's, since no output byte written before it
lies there (R70). -/
theorem runOps_ctrHead (hlock : s.engine.lock = .free) (hk : p.ek = .set k) (hm : s.mem.wf s.params.aw = true)
    (hbuf : BuffersOk s.params.aw p.src p.dst p.len) (n : Nat) (v : View) (hv : s.atCtrHead p k n v) (hn : n < p.len) :
    ∃ w, runOps Config.primitive s.params s.cur .ctr (ctrUnit v.port) v = .next w ∧ s.atCtrHead p k (n + 1) w := by
  obtain ⟨l, rfl⟩ := hv
  have hlen := State.length_ctrResult (s := s) (p := p) (k := k) n
  have hoffset := State.toNat_ctrResult_offset (s := s) (p := p) (k := k) n
  obtain ⟨y, t, l', hstep, hrun⟩ := runOps_ctrUnit_step Config.primitive s.params s.cur .ctr
    (v := s.ctrHead p k n l) hlock hk (hbuf.read_ahead hm hlen.le hn)
  have hmem : (s.ctrHead p k n l).mem.write s.params.aw (p.dst + n) y
      = s.mem.writeBytes s.params.aw p.dst ((s.ctrResult p k n).1 ++ [y]) := by
    rw [Memory.writeBytes_concat, hlen]
    rfl
  refine ⟨_, hrun, l', ?_⟩
  have hsucc := State.ctrResult_succ hstep
  simp only [State.ctrHead, hsucc, Engine.afterRefreshes_succ _ _ hoffset] at hmem ⊢
  rw [← hmem]
  rfl

/-- A call of CTR on a ready port with `EK` set, in place or into a disjoint buffer. -/
theorem exec_ctr (h : s.readyPort p) (hk : p.ek = .set k) (hm : s.mem.wf s.params.aw = true)
    (hbuf : BuffersOk s.params.aw p.src p.dst p.len) : exec .ctr s = .next (s.afterCtr p k) := by
  obtain ⟨hport, hlive, hlock⟩ := h
  have hhead : ∀ n v, s.atCtrHead p k n v →
      v.port.seq = .run .ctr [] ∧ v.port.len = p.len ∧ v.port.pos = 1 * n := by
    rintro n v ⟨l, rfl⟩
    exact ⟨rfl, rfl, (Nat.one_mul n).symm⟩
  have hstart : s.atCtrHead p k 0 (s.loopHead p .ctr) := ⟨p.scratch, rfl⟩
  obtain ⟨w, ⟨l, rfl⟩, hexec⟩ := exec_of_loop hport (check_ctr hlive hk) (unit := ctrUnit) rfl Nat.one_pos
    (Nat.one_mul p.len).symm hhead hstart (runOps_ctrHead hlock hk hm hbuf)
  exact hexec

/-- After a CTR call the port is ready again. -/
theorem State.readyPort_afterCtr (k : Key) (h : s.readyPort p) :
    (s.afterCtr p k).readyPort (s.portAfterCtr p k) := by
  obtain ⟨⟨hp, -⟩, hlive, hlock⟩ := h
  exact ⟨⟨State.putView_port_self _ hp, rfl⟩, hlive, hlock⟩

/-- After a CTR call the output bytes are at `DST`, if they fit data memory. -/
theorem State.readBytes_afterCtr (k : Key) (hm : s.mem.wf s.params.aw = true) (hn : p.len ≤ 2 ^ s.params.aw) :
    (s.afterCtr p k).mem.readBytes s.params.aw p.dst p.len = (s.ctrResult p k p.len).1 := by
  have hlen := State.length_ctrResult (s := s) (p := p) (k := k) p.len
  have hread := Memory.readBytes_writeBytes hm p.dst (hlen.trans_le hn)
  rwa [hlen] at hread

end

/-- Settles O27: the call of CTR. -/
theorem ctrRunsTheCounter : Obligations.CtrRunsTheCounter := fun _ _ _ h hk hm hbuf => exec_ctr h hk hm hbuf

/-- Settles O39: the second call reads the bytes that the first one wrote, and the stream undoes itself. -/
theorem ctrIsSelfInverse : Obligations.CtrIsSelfInverse := by
  intro s p k y h hek hm hbuf hbuf'
  have ⟨_, hlive, _⟩ := h
  have ⟨hn, _⟩ := hbuf
  have hready := State.readyPort_mapPort (State.readyPort_afterCtr k h)
    (f := fun q => { q with nc := p.nc, sb := p.sb, offset := p.offset, src := p.dst, dst := y }) rfl hlive
  have hm' : (s.afterCtr p k).mem.wf s.params.aw = true := Memory.wf_writeBytes _ _ hm
  refine ⟨s.afterCtr p k, _, exec_ctr h hek hm hbuf, exec_ctr hready hek hm' hbuf', ?_⟩
  refine Eq.trans (State.readBytes_afterCtr k hm' hn) ?_
  have hplain : (BigStep.ctr (Config.primitive.encryptBlock k) p.ctrState (s.ctrResult p k p.len).1).1
      = s.mem.readBytes s.params.aw p.src p.len := BigStep.ctr_ctr _ p.ctrState _
  rw [← State.readBytes_afterCtr k hm hn] at hplain
  exact hplain

end Sys2Proof.Machine
end

section
/-! How a command ends (spec/60_exceptions.md): the check that raises each failure (R241, R243, R247), the results a
command can return (R252), and that a data command which passes its checks ends with `Ok` (R249). -/

namespace Sys2Proof.Machine

/-! ### The check that raises a failure (R246) -/

section
variable {i : Instr} {p : Port}

/-- The life-cycle check raises `ContextState` where `INIT` meets a live port, or any other command one that is not
live. -/
theorem lifeCheck_eq_some (h : p.live = true ↔ i = .init) : lifeCheck i p = some .contextState := by
  by_cases hi : i = .init
  · simp [lifeCheck, checkNotLive, hi, h.2 hi]
  · have hlive : ¬p.live = true := fun hl => hi (h.1 hl)
    simp [lifeCheck, checkLive, hi, hlive]

/-- On a live port it passes every command but `INIT`. -/
theorem lifeCheck_eq_none (hi : i ≠ .init) (hlive : p.live = true) : lifeCheck i p = none := by
  simp [lifeCheck, checkLive, hi, hlive]

/-- A command that issues block units is not `INIT`. -/
theorem ne_init_of_keyDir {d : Dir} (hd : Instr.keyDir i = some d) : i ≠ .init := by
  rintro rfl
  cases hd

/-- Of the commands that issue block units, only CBC checks an operand: `LEN` (R242). -/
theorem operandCheck_of_keyDir {d : Dir} (hd : Instr.keyDir i = some d)
    (hlen : i = .cbcEnc ∨ i = .cbcDec → p.len % 16 = 0) : operandCheck i p = none := by
  cases i with
  | setkeyEnc => cases hd
  | setkeyDec => cases hd
  | cbcEnc => exact if_pos (hlen (.inl rfl))
  | cbcDec => exact if_pos (hlen (.inr rfl))
  | _ => rfl

end

/-- Settles O16: the life-cycle check is the first of every command. -/
theorem wrongLifecycleStateIsRefused : Obligations.WrongLifecycleStateIsRefused := by
  intro s p i hport hlive
  refine exec_of_check_some hport ?_
  rw [check_eq, firstFailure_cons_some (lifeCheck_eq_some hlive)]

/-- Settles O15: on a live port `SETKEY` ends with what the check of `KEYBITS` raises. -/
theorem badKeyLengthIsRefused : Obligations.BadKeyLengthIsRefused := by
  rintro s p hport hlive ⟨h128, h192, h256⟩
  have hbits : checkKeyBits p = some .invalidKeyLength := if_neg (not_or.2 ⟨h128, not_or.2 ⟨h192, h256⟩⟩)
  have hexec := fun d => exec_of_check_some hport ((check_setkey d hlive).trans hbits)
  exact ⟨hexec .enc, hexec .dec⟩

/-- Settles O18: the checks before the key check pass. -/
theorem missingKeyIsRefused : Obligations.MissingKeyIsRefused := by
  intro s p i d hport hlive hd hunset hlen
  have hlife := lifeCheck_eq_none (ne_init_of_keyDir hd) hlive
  have hoperand := operandCheck_of_keyDir hd hlen
  have hkey : keyCheck i p = some .keyNotSet := by simp [keyCheck, hd, checkKey, hunset, KeyRecord.present]
  refine exec_of_check_some hport ?_
  rw [check_eq, firstFailure_cons_none hlife, firstFailure_cons_none hoperand, firstFailure_cons_some hkey]

/-! ### The results of a command (R252) -/

/-- The port runs the command `o` (none: a reserved byte) alone, or has ended it with one of its results. -/
def Port.answers (o : Option Instr) (p : Port) : Prop :=
  match p.seq with
  | .idle => p.result ∈ resultsOf o
  | .decoded o' => o' = o
  | .run i todo => some i = o ∧ listOk i todo = true
  | .ending o' => o' = o ∧ p.result ∈ resultsOf o

section
variable {prim : BlockPrimitive} {ps : Params} {c : Nat} {o : Option Instr} {v w : View}

/-- Once such a port is not busy, `RESULT` is one of the command's results. -/
theorem Port.answers.result_mem {p : Port} (h : p.answers o) (hb : p.busy = false) : p.result ∈ resultsOf o := by
  simpa only [Port.answers, (Port.busy_eq_false_iff p).1 hb] using h

/-- While it is busy, it holds the command. -/
theorem Port.answers.command_eq {p : Port} (h : p.answers o) (hb : p.busy = true) : p.command = o := by
  cases hs : p.seq with
  | idle => simp [Port.busy, hs] at hb
  | decoded o' => simpa [Port.answers, Port.command, hs] using h
  | run i todo =>
    obtain ⟨rfl, -⟩ : some i = o ∧ listOk i todo = true := by simpa only [Port.answers, hs] using h
    simp only [Port.command, hs]
  | ending o' =>
    obtain ⟨rfl, -⟩ : o' = o ∧ p.result ∈ resultsOf o := by simpa only [Port.answers, hs] using h
    simp only [Port.command, hs]

/-- A step that ends a unit's command writes a result listed for it. -/
theorem perform_last_answers {op : MicroOp} {i : Instr} {rest : List MicroOp} (hs : v.port.seq = .run i rest)
    (hhead : headOk i op rest = true) (hop : op = .conclude ∨ op = .complete)
    (h : perform prim ps c op v = .next w) : w.port.answers (some i) := by
  have hcmd : v.port.command = some i := by simp only [Port.command, hs]
  rcases hop with rfl | rfl <;> cases h
  · obtain ⟨hi, -⟩ : (i = .init ∨ i = .free) ∧ rest = [] := by simpa [headOk] using hhead
    refine ⟨hcmd, ?_⟩
    show (if v.port.scratch.failed then Result.engineUnavailable else .ok) ∈ resultsOf (some i)
    rcases hi with rfl | rfl <;> cases v.port.scratch.failed <;> decide
  · refine ⟨hcmd, ?_⟩
    show Result.ok ∈ resultsOf (some i)
    cases i <;> decide

/-- A step of a unit leaves the port running its command, or ends it with one of its results. -/
theorem perform_answers {op : MicroOp} {i : Instr} {rest : List MicroOp} (hs : v.port.seq = .run i rest)
    (hhead : headOk i op rest = true) (hrest : listOk i rest = true)
    (h : perform prim ps c op v = .next w) : w.port.answers (some i) := by
  by_cases hlast : op = .conclude ∨ op = .complete
  · exact perform_last_answers hs hhead hlast h
  · obtain ⟨hc, hk⟩ := not_or.1 hlast
    have hseq := (perform_seq h hc hk).trans hs
    simpa only [Port.answers, hseq, true_and] using hrest

/-- So does every step of the port's sequencer. -/
theorem microStep_answers (hv : v.port.answers o) (h : microStep prim ps c v = .next w) : w.port.answers o := by
  cases hs : v.port.seq with
  | idle =>
    simp only [microStep, hs] at h
    cases h
    exact hv
  | decoded o' =>
    obtain rfl : o' = o := by simpa only [Port.answers, hs] using hv
    have hcmd : v.port.command = o' := by simp only [Port.command, hs]
    cases o' with
    | none =>
      rw [microStep_reserved hs] at h
      cases h
      exact ⟨hcmd, List.mem_singleton_self _⟩
    | some i =>
      cases hk : Instr.check i v.port with
      | some k =>
        simp only [microStep, hs, hk] at h
        cases h
        exact ⟨hcmd, check_result hk⟩
      | none =>
        simp only [microStep, hs, hk] at h
        cases h
        exact ⟨rfl, rfl⟩
  | run i todo =>
    obtain ⟨rfl, hlist⟩ : some i = o ∧ listOk i todo = true := by simpa only [Port.answers, hs] using hv
    cases todo with
    | nil =>
      simp only [microStep, hs] at h
      cases h
      exact ⟨rfl, (Instr.program_ok i v.port).1⟩
    | cons op rest =>
      cases he : op.enabled c v.eng with
      | false =>
        simp only [microStep, hs, he] at h
        cases h
        exact hv
      | true =>
        simp only [microStep, hs, he, if_true] at h
        obtain ⟨hhead, hrest⟩ : headOk i op rest = true ∧ listOk i rest = true := by
          simpa only [listOk, Bool.and_eq_true] using hlist
        exact perform_answers (v := { v with port := v.port.withSeq (.run i rest) }) rfl hhead hrest h
  | ending o' =>
    obtain ⟨-, hresult⟩ : o' = o ∧ v.port.result ∈ resultsOf o := by simpa only [Port.answers, hs] using hv
    rw [microStep_ending hs] at h
    cases h
    exact hresult

/-- So does a run of them. -/
theorem Reaches.answers (hv : v.port.answers o) (h : Reaches prim ps c v (.next w)) : w.port.answers o := by
  obtain ⟨n, hn⟩ := h
  induction n generalizing v with
  | zero => cases hn; exact hv
  | succ n ih =>
    obtain ⟨u, hu, hn⟩ := andThen_eq_next hn
    exact ih (microStep_answers hv hu) hn

/-- The steps left of a program satisfy what the program's steps do. -/
theorem listOk_of_suffix {i : Instr} {l todo : List MicroOp} (h : listOk i l = true) (hs : todo <:+ l) :
    listOk i todo = true := by
  induction l with
  | nil => rw [List.suffix_nil.1 hs]; rfl
  | cons a l ih =>
    rcases List.suffix_cons_iff.1 hs with rfl | hs
    · exact h
    · simp only [listOk, Bool.and_eq_true] at h
      exact ih h.2 hs

/-- A busy port of the invariant runs the command it holds. -/
theorem Port.answers_of_seqOk {p : Port} (h : p.seqOk) (hb : p.busy = true) : p.answers p.command := by
  cases hs : p.seq with
  | idle => simp [Port.busy, hs] at hb
  | decoded o => simp only [Port.answers, Port.command, hs]
  | run i todo =>
    obtain ⟨⟨q, hsuf⟩, -⟩ := (Port.seqOk_run hs).1 h
    simpa only [Port.answers, Port.command, hs, true_and] using listOk_of_suffix (Instr.program_ok i q).1 hsuf
  | ending o =>
    simpa only [Port.answers, Port.command, hs, true_and] using (Port.seqOk_ending hs).1 h

/-- A call on a port that is not busy leaves it running the called command, or ended with one of its results. -/
theorem exec_answers {s t : State} {p q : Port} {i : Instr} (hport : s.idlePort p) (h : exec i s = .next t)
    (hq : t.ports[s.cur]? = some q) : q.answers (some i) := by
  obtain ⟨hp, hidle⟩ := hport
  rw [exec_eq_issue, issue_idle _ _ _ _ hp hidle] at h
  obtain ⟨w, hw, rfl⟩ := mapNext_eq_next h
  cases (State.putView_port_self w hp).symm.trans hq
  have hstart : (p.start (encode i)).seq = .decoded (some i) := congrArg Seq.decoded (decodeCommand_encode i)
  have hreach := reaches_runCommand (prim := Config.primitive) (ps := s.params) (c := s.cur)
    (v := { port := p.start (encode i), eng := s.engine, mem := s.mem }) hstart
  rw [hw] at hreach
  exact hreach.answers (by simp only [Port.answers, hstart])

/-- A step granted to a port leaves it running its command, or ended with one of its results. -/
theorem grantStep_answers {s t : State} {p q : Port} (hp : s.ports[c]? = some p) (hans : p.answers o)
    (h : grantStep prim c s = .next t) (hq : t.ports[c]? = some q) : q.answers o := by
  rw [grantStep_eq hp] at h
  obtain ⟨w, hw, rfl⟩ := mapNext_eq_next h
  cases (State.putView_port_self w hp).symm.trans hq
  exact microStep_answers hans hw

end

/-- Settles O20: a reserved byte fails at once, and a call and a granted step keep `Port.answers` of the command. -/
theorem eachCommandReturnsOnlyItsResults : Obligations.EachCommandReturnsOnlyItsResults := by
  refine ⟨?_, ?_, ?_⟩
  · intro s p w t q hport hw h hq
    rw [callByte_reserved hport hw, State.failed_eq_putView] at h
    cases h
    cases (State.putView_port_self _ hport.1).symm.trans hq
    rfl
  · intro s p i t q hport h hq hb
    have hresult := (exec_answers hport h hq).result_mem hb
    cases i <;> simpa [resultsOf] using hresult
  · intro s c p t q hinv hp hb h hq
    have hans := grantStep_answers hp (Port.answers_of_seqOk (hinv.seq c p hp).1 hb) h hq
    exact ⟨hans.command_eq, hans.result_mem⟩

/-! ### A data command that passes its checks (R249) -/

/-- The call of the data command `i` on the called port `p` completes with `Ok` after all its bytes, and the lock is
free. -/
def State.EndsOk (s : State) (p : Port) (i : Instr) : Prop :=
  ∃ t q, exec i s = .next t ∧ t.ports[s.cur]? = some q ∧ q.busy = false ∧ q.result = .ok
    ∧ q.pos = Instr.dataLen i p ∧ t.engine.lock = .free

/-- The view `w` is one unit of `n` bytes further than `v` in a command that reads the key record of direction `d`, and
the lock is free. -/
structure View.UnitStep (d : Dir) (n : Nat) (v w : View) : Prop where
  seq : w.port.seq = v.port.seq
  len : w.port.len = v.port.len
  key : w.port.record d = v.port.record d
  pos : w.port.pos = v.port.pos + n
  lock : w.eng.lock = .free

/-- With the lock free and the key record set, the unit of the command `i` takes `n` bytes, wherever the buffers lie. -/
def TakesBytes (i : Instr) (d : Dir) (n : Nat) (unit : Port → List MicroOp) : Prop :=
  ∀ prim ps c v k, v.eng.lock = .free → v.port.record d = .set k →
    ∃ w, runOps prim ps c i (unit v.port) v = .next w ∧ v.UnitStep d n w

theorem takesBytes_cbcUnit (i : Instr) (d : Dir) : TakesBytes i d 16 (cbcUnit d) := by
  intro prim ps c v k hl hk
  obtain ⟨o, iv, l, -, hrun⟩ := runOps_cbcUnit prim ps c i d v.port hl hk rfl
  exact ⟨_, hrun, rfl, rfl, by cases d <;> rfl, rfl, rfl⟩

theorem takesBytes_cfb8Unit (i : Instr) (d : Dir) : TakesBytes i .enc 1 (cfb8Unit d) := by
  intro prim ps c v k hl hk
  obtain ⟨y, iv, ov, l, -, hrun⟩ := runOps_cfb8Unit prim ps c i d v.port hl hk rfl
  exact ⟨_, hrun, rfl, rfl, rfl, rfl, rfl⟩

/-- A unit that counts its byte in `OFFSET` takes one byte. -/
theorem CountsInOffset.takesBytes {i : Instr} {unit : Port → List MicroOp} (h : CountsInOffset i unit) :
    TakesBytes i .enc 1 unit := by
  intro prim ps c v k hl hk
  obtain ⟨w, hrun, hstep⟩ := h prim ps c v k hl hk
  exact ⟨w, hrun, hstep.seq, hstep.len, hstep.ek, hstep.pos, hstep.lock⟩

/-- What holds at the loop head of the command `i` after `j` units of `n` bytes, and what one more unit needs. -/
structure View.AtHead (i : Instr) (p : Port) (d : Dir) (k : Key) (n j : Nat) (v : View) : Prop where
  seq : v.port.seq = .run i []
  len : v.port.len = p.len
  key : v.port.record d = .set k
  pos : v.port.pos = n * j
  lock : v.eng.lock = .free

theorem View.AtHead.next {i : Instr} {p : Port} {d : Dir} {k : Key} {n j : Nat} {v w : View}
    (h : v.AtHead i p d k n j) (hstep : v.UnitStep d n w) : w.AtHead i p d k n (j + 1) where
  seq := hstep.seq.trans h.seq
  len := hstep.len.trans h.len
  key := hstep.key.trans h.key
  pos := by rw [hstep.pos, h.pos, Nat.mul_succ]
  lock := hstep.lock

section
variable {s : State} {p : Port} {i : Instr} {d : Dir} {k : Key}

/-- A validated command whose units take `n` bytes each ends with `Ok` after a `LEN` of whole units. -/
theorem endsOk_of_takesBytes (h : s.readyPort p) (hk : p.record d = .set k) (hcheck : Instr.check i p = none)
    {unit : Port → List MicroOp} (hprog : Instr.program i = loopProgram unit) {n m : Nat} (hn : 0 < n)
    (hlen : p.len = n * m) (hdata : Instr.dataLen i p = p.len) (hunit : TakesBytes i d n unit) : s.EndsOk p i := by
  obtain ⟨hport, -, hlock⟩ := h
  have hstart : (s.loopHead p i).AtHead i p d k n 0 := ⟨rfl, rfl, by cases d <;> exact hk, rfl, hlock⟩
  have hnext : ∀ j v, View.AtHead i p d k n j v → j < m →
      ∃ w, runOps Config.primitive s.params s.cur i (unit v.port) v = .next w ∧ w.AtHead i p d k n (j + 1) := by
    intro j v hv _
    obtain ⟨w, hrun, hstep⟩ := hunit Config.primitive s.params s.cur v k hv.lock hv.key
    exact ⟨w, hrun, hv.next hstep⟩
  obtain ⟨w, hw, hexec⟩ := exec_of_loop hport hcheck hprog hn hlen
    (fun _ _ hv => ⟨hv.seq, hv.len, hv.pos⟩) hstart hnext
  refine ⟨_, _, hexec, State.putView_port_self _ hport.1, rfl, rfl, ?_, hw.lock⟩
  rw [Port.finish_pos, hw.pos, hdata, hlen]

/-- A byte at a time, every `LEN` is one of whole units. -/
theorem endsOk_of_takesByte (h : s.readyPort p) (hk : p.record d = .set k) (hcheck : Instr.check i p = none)
    {unit : Port → List MicroOp} (hprog : Instr.program i = loopProgram unit)
    (hdata : Instr.dataLen i p = p.len) (hunit : TakesBytes i d 1 unit) : s.EndsOk p i :=
  endsOk_of_takesBytes h hk hcheck hprog Nat.one_pos (Nat.one_mul p.len).symm hdata hunit

theorem endsOk_cbc (h : s.readyPort p) (hk : p.record d = .set k) (hlen : p.len % 16 = 0) : s.EndsOk p (cbcOf d) := by
  have ⟨_, hlive, _⟩ := h
  exact endsOk_of_takesBytes h hk (check_cbc d hlive hk hlen) (program_cbc d) (by decide : 0 < 16)
    (Nat.mul_div_cancel' (Nat.dvd_of_mod_eq_zero hlen)).symm (by cases d <;> rfl) (takesBytes_cbcUnit _ d)

/-- ECB is one unit (R150). -/
theorem endsOk_ecb (h : s.readyPort p) (hk : p.record d = .set k) : s.EndsOk p (ecbOf d) := by
  obtain ⟨⟨hp, -⟩, -, hlock⟩ := State.readyPort_afterEcb d k h
  exact ⟨_, _, exec_ecb d h hk, hp, rfl, rfl, by cases d <;> rfl, hlock⟩

end

/-- Settles O28: ECB is one unit, and the loop of every other data command takes its bytes unit by unit. -/
theorem validatedDataCommandEndsOk : Obligations.ValidatedDataCommandEndsOk := by
  intro s p i d h hd hset hlen
  show s.EndsOk p i
  obtain ⟨k, hk⟩ : ∃ k, p.record d = .set k := by
    cases hk : p.record d with
    | unset => simp [hk, KeyRecord.present] at hset
    | set k => exact ⟨k, rfl⟩
  have ⟨_, hlive, _⟩ := h
  have hcheck := check_of_live (ne_init_of_keyDir hd) hlive (operandCheck_of_keyDir hd hlen) hd hk
  cases i with
  | init => cases hd
  | free => cases hd
  | setkeyDec => cases hd
  | setkeyEnc => cases hd
  | ecbDec => cases hd; exact endsOk_ecb h hk
  | ecbEnc => cases hd; exact endsOk_ecb h hk
  | cbcDec => cases hd; exact endsOk_cbc h hk (hlen (.inr rfl))
  | cbcEnc => cases hd; exact endsOk_cbc h hk (hlen (.inl rfl))
  | cfb128Dec =>
    cases hd
    exact endsOk_of_takesByte h hk hcheck (program_cfb128 .dec) rfl (countsInOffset_cfb128Unit _ .dec).takesBytes
  | cfb128Enc =>
    cases hd
    exact endsOk_of_takesByte h hk hcheck (program_cfb128 .enc) rfl (countsInOffset_cfb128Unit _ .enc).takesBytes
  | cfb8Dec => cases hd; exact endsOk_of_takesByte h hk hcheck (program_cfb8 .dec) rfl (takesBytes_cfb8Unit _ .dec)
  | cfb8Enc => cases hd; exact endsOk_of_takesByte h hk hcheck (program_cfb8 .enc) rfl (takesBytes_cfb8Unit _ .enc)
  | ctr => cases hd; exact endsOk_of_takesByte h hk hcheck rfl rfl (countsInOffset_ctrUnit _).takesBytes

end Sys2Proof.Machine
end

section
/-! Reset, and a machine that is left alone (spec/70_reset_and_hazards.md): CME does nothing by itself (R281), and what
a hardware reset does (R44, R280). -/

namespace Sys2Proof.Machine

/-! ### No event, and a step granted to an idle port (R281) -/

section
variable {prim : BlockPrimitive} {s : State} {c : Nat}

/-- With no event left, a step leaves the machine as it is. -/
theorem step_nil (h : s.agenda = []) : step s = .next s := by
  simp only [step, h]

/-- An idle sequencer has no step. -/
theorem microStep_idle {ps : Params} {v : View} (h : v.port.seq = .idle) : microStep prim ps c v = .next v := by
  simp only [microStep, h]

/-- A step granted to a port that is not busy leaves the machine as it is, whatever other ports do. -/
theorem grantStep_idle {p : Port} (hp : s.ports[c]? = some p) (hb : p.busy = false) :
    grantStep prim c s = .next s := by
  rw [grantStep_eq hp, microStep_idle ((Port.busy_eq_false_iff p).1 hb), mapNext_next, State.putView_self hp]

end

/-- Settles O7: the granted port is one of the idle ones. -/
theorem nothingHappensWithoutTheHost : Obligations.NothingHappensWithoutTheHost :=
  fun _ => ⟨step_nil, fun hidle _ hc =>
    grantStep_idle (List.getElem?_eq_getElem hc) (hidle _ (List.getElem_mem hc))⟩

/-! ### Hardware reset (R44, R280) -/

/-- A step whose next event is a hardware reset is that reset, with the event taken off. -/
theorem step_reset {s : State} {rest : List Event} (h : s.agenda = .reset :: rest) :
    step s = .next (hardReset { s with agenda := rest }) := by
  simp only [step, h, happen]

/-- Settles O52: the step is `hardReset`, whose shared state is the one that R44 lists. -/
theorem resetAbandonsRunningCommands : Obligations.ResetAbandonsRunningCommands := by
  intro s rest ha
  rw [step_reset ha]
  rfl

end Sys2Proof.Machine
end
